-- ==== Sys2Proof/Word.lean ====
section
/-! DEFINITION. The widths of the CORE's values (spec/00_scope.md R7, R8): bit 0 is the least
significant bit, all arithmetic wraps at 32 bits, and the signed reading `s32` of a word is
`BitVec.toInt`. -/

namespace Sys2Proof

/-- A register, an instruction word, an operand, a result (R4: `XLEN` = 32). -/
abbrev Word := BitVec 32

/-- The unit of data memory (R33). -/
abbrev Byte := BitVec 8

/-- A register index; every 5-bit value names a slot (R10). -/
abbrev RegIndex := BitVec 5

/-- The opcode field, bits [5:0] of a word (R51). -/
abbrev Opcode := BitVec 6

end Sys2Proof
end

