-- ==== Sys2Proof/Config.lean ====
section
/-! DEFINITION. What is fixed for this CORE: the constants of spec/00_scope.md R4, the instruction
types (spec/40_decoder.md R81) and the 36 operations of the ISA (spec/30_encoding.md R62). The
opcode numbers themselves stand in Decode.lean. The spec leaves no result undefined, so there is
no free value here. -/

namespace Sys2Proof

namespace Config

/-- `XLEN` (R4). -/
def xlen : Nat := 32

/-- `NREGS` (R4, R10). -/
def nRegs : Nat := 32

/-- `PC_INDEX`: the slot that is the program counter (R4, R12). -/
def pcIndex : RegIndex := 31

/-- `OPCODE_BITS` (R4, R51). -/
def opcodeBits : Nat := 6

/-- `ALU_TABLE_SLOTS` (R4, R100); slots 64 to 127 are never indexed. -/
def aluTableSlots : Nat := 128

/-- `NSTAGES` (R4). -/
def nStages : Nat := 5

/-- The reference value of `DATA_SIZE`, 1 MiB (R4, R33). DESIGN CHOICE of the spec (D8), log 9. -/
def defaultDataSize : Nat := 1048576

/-- `RESET_X` (R4, R26). DESIGN CHOICE of the spec (D10), log 4. -/
def resetX : Word := 0

/-- `RESET_FLAG` (R4, R26). DESIGN CHOICE of the spec (D10), log 4. -/
def resetFlag : Bool := false

end Config

/-- The eight instruction types (R81); the list is closed. -/
inductive InstrType where
  | unknown
  | binaryArithmetic
  | unaryArithmetic
  | compare
  | jump
  | branch
  | io
  | misc
deriving DecidableEq, Repr

/-- The ten instruction formats (R53). -/
inductive Format where
  | br | bi | ur | ui | cr | ci | jr | ji | io | m
deriving DecidableEq, Repr

/-- The 36 operations the opcode map selects among (R62), in the map's order. -/
inductive Op where
  | add | addi | sub | subi | and | andi | or | ori
  | shl | shli | shra | shrai | shrl | shrli
  | not | noti | mov | movi
  | ceq | ceqi | cltu | cltui | clts | cltsi | cgtu | cgtui | cgts | cgtsi
  | jump | jumpi | branch | branchi
  | load | store
  | nop | halt
deriving DecidableEq, Repr

end Sys2Proof
end

