-- ==== Sys2Proof/Syntax.lean ====
section
/-! DEFINITION. The abstract syntax of the 36 instructions (spec/30_encoding.md R53 to R59, R62),
one constructor per row of spec/opcode_table.json. A register operand is a 5-bit index; an
immediate is the signed decimal of the assembler syntax (R60, R67), whose range WellFormed.lean
checks. Bits that no decoder function reads (R61) are no operands. -/

namespace Sys2Proof

/-- An instruction of the RCPU ISA. -/
inductive Instr where
  -- BINARY_ARITHMETIC: formats BR and BI (R54)
  | add (rd rs1 rs2 : RegIndex)
  | addi (rd rs1 : RegIndex) (imm : Int)
  | sub (rd rs1 rs2 : RegIndex)
  | subi (rd rs1 : RegIndex) (imm : Int)
  | and (rd rs1 rs2 : RegIndex)
  | andi (rd rs1 : RegIndex) (imm : Int)
  | or (rd rs1 rs2 : RegIndex)
  | ori (rd rs1 : RegIndex) (imm : Int)
  | shl (rd rs1 rs2 : RegIndex)
  | shli (rd rs1 : RegIndex) (imm : Int)
  | shra (rd rs1 rs2 : RegIndex)
  | shrai (rd rs1 : RegIndex) (imm : Int)
  | shrl (rd rs1 rs2 : RegIndex)
  | shrli (rd rs1 : RegIndex) (imm : Int)
  -- UNARY_ARITHMETIC: formats UR and UI (R55)
  | not (rd rs : RegIndex)
  | noti (rd : RegIndex) (imm : Int)
  | mov (rd rs : RegIndex)
  | movi (rd : RegIndex) (imm : Int)
  -- COMPARE: formats CR and CI (R56)
  | ceq (rs1 rs2 : RegIndex)
  | ceqi (rs1 : RegIndex) (imm : Int)
  | cltu (rs1 rs2 : RegIndex)
  | cltui (rs1 : RegIndex) (imm : Int)
  | clts (rs1 rs2 : RegIndex)
  | cltsi (rs1 : RegIndex) (imm : Int)
  | cgtu (rs1 rs2 : RegIndex)
  | cgtui (rs1 : RegIndex) (imm : Int)
  | cgts (rs1 rs2 : RegIndex)
  | cgtsi (rs1 : RegIndex) (imm : Int)
  -- JUMP and BRANCH: formats JR and JI (R57)
  | jump (rs : RegIndex)
  | jumpi (off : Int)
  | branch (rs : RegIndex)
  | branchi (off : Int)
  -- IO: format IO (R58)
  | load (rd rb : RegIndex) (off : Int)
  | store (rv rb : RegIndex) (off : Int)
  -- MISC: format M (R59)
  | nop
  | halt
deriving DecidableEq, Repr

end Sys2Proof
end

