-- ==== Sys2Proof/WellFormed.lean ====
section
/-! DEFINITION. Which terms of the syntax are instructions: an immediate must lie in the signed
range of its field (spec/30_encoding.md R60). A 5-bit register index always names a slot (R10),
so registers need no check. -/

namespace Sys2Proof

/-- `v` is the signed value of some `n`-bit field. -/
def fitsSigned (n : Nat) (v : Int) : Bool :=
  decide (-(2 : Int) ^ (n - 1) ≤ v) && decide (v < (2 : Int) ^ (n - 1))

/-- Every immediate of the instruction is in its field's range (R60): 16 bits for the binary and
IO types, 21 for the unary and compare types, 26 for jumps and branches. -/
def Instr.wellFormed : Instr → Bool
  | .addi _ _ imm | .subi _ _ imm | .andi _ _ imm | .ori _ _ imm
  | .shli _ _ imm | .shrai _ _ imm | .shrli _ _ imm
  | .load _ _ imm | .store _ _ imm => fitsSigned 16 imm
  | .noti _ imm | .movi _ imm
  | .ceqi _ imm | .cltui _ imm | .cltsi _ imm | .cgtui _ imm | .cgtsi _ imm => fitsSigned 21 imm
  | .jumpi off | .branchi off => fitsSigned 26 off
  | .add .. | .sub .. | .and .. | .or .. | .shl .. | .shra .. | .shrl ..
  | .not .. | .mov ..
  | .ceq .. | .cltu .. | .clts .. | .cgtu .. | .cgts ..
  | .jump .. | .branch .. | .nop | .halt => true

end Sys2Proof
end

