-- ==== Sys2Proof/Decode.lean ====
section
/-! DEFINITION. The encoding (spec/30_encoding.md) and the classifying half of the decoder
(spec/40_decoder.md R80 to R83, R85): the fields of a word, the opcode map, sign extension, the
decoder from words to instructions, and the encoder. The decoder is total: every word is an
instruction or is rejected by name, with its opcode: as UNKNOWN (R64) or as a bad IO opcode (R65).
The functions of R84 and R86 to R92, which can fail, stand in Machine/DecoderUnit.lean. -/

namespace Sys2Proof

/-! ## Fields of a word (R53) -/

/-- Bits [5:0]: `decode_opcode` (R51, R82), total on every word (the spec's D21, log 25). -/
def opcodeField (w : Word) : Opcode := w.extractLsb' 0 6

/-- Bits [10:6]: `rd`, `rv`, the first source of a COMPARE, the register of a jump. -/
def fieldA (w : Word) : RegIndex := w.extractLsb' 6 5

/-- Bits [15:11]: `rs1`, `rs`, `rb`, the second source of a COMPARE. -/
def fieldB (w : Word) : RegIndex := w.extractLsb' 11 5

/-- Bits [20:16]: `rs2` of the BR format. -/
def fieldC (w : Word) : RegIndex := w.extractLsb' 16 5

/-- Bits [31:16]. -/
def imm16Field (w : Word) : BitVec 16 := w.extractLsb' 16 16

/-- Bits [31:11]. -/
def imm21Field (w : Word) : BitVec 21 := w.extractLsb' 11 21

/-- Bits [31:6]. -/
def imm26Field (w : Word) : BitVec 26 := w.extractLsb' 6 26

/-- `sext_N` (R85): if the top bit of the `n`-bit field is 1 all higher bits of the word are set. -/
def sext (n : Nat) (v : BitVec n) : Word :=
  if v.msb then v.setWidth 32 ||| (0xFFFFFFFF#32 <<< n) else v.setWidth 32

/-! ## The opcode map (R62, R63) -/

/-- An assignment of 6-bit values to operations: the parameter `OPCODE_MAP` (R4). -/
abbrev OpcodeMap := List (Opcode × Op)

/-- The BINARY_ARITHMETIC rows of R62. -/
def binaryRows : OpcodeMap :=
  [(0x02, .add), (0x03, .addi), (0x04, .sub), (0x05, .subi), (0x06, .and), (0x07, .andi),
   (0x08, .or), (0x09, .ori), (0x0A, .shl), (0x0B, .shli), (0x0C, .shra), (0x0D, .shrai),
   (0x0E, .shrl), (0x0F, .shrli)]

/-- The UNARY_ARITHMETIC rows of R62. -/
def unaryRows : OpcodeMap := [(0x10, .not), (0x11, .noti), (0x12, .mov), (0x13, .movi)]

/-- The COMPARE rows of R62. -/
def compareRows : OpcodeMap :=
  [(0x20, .ceq), (0x21, .ceqi), (0x22, .cltu), (0x23, .cltui), (0x24, .clts), (0x25, .cltsi),
   (0x26, .cgtu), (0x27, .cgtui), (0x28, .cgts), (0x29, .cgtsi)]

/-- The JUMP and BRANCH rows of R62. -/
def transferRows : OpcodeMap := [(0x30, .jump), (0x31, .jumpi), (0x32, .branch), (0x33, .branchi)]

/-- The IO and MISC rows of R62. -/
def ioMiscRows : OpcodeMap := [(0x38, .load), (0x39, .store), (0x3C, .nop), (0x3E, .halt)]

/-- The reference map, in the order R62 prints it. DESIGN CHOICE of the spec (D1), log 5. -/
def referenceMap : OpcodeMap :=
  binaryRows ++ unaryRows ++ compareRows ++ transferRows ++ ioMiscRows

/-- The type of an operation (R62). -/
def Op.type : Op → InstrType
  | .add | .addi | .sub | .subi | .and | .andi | .or | .ori
  | .shl | .shli | .shra | .shrai | .shrl | .shrli => .binaryArithmetic
  | .not | .noti | .mov | .movi => .unaryArithmetic
  | .ceq | .ceqi | .cltu | .cltui | .clts | .cltsi | .cgtu | .cgtui | .cgts | .cgtsi => .compare
  | .jump | .jumpi => .jump
  | .branch | .branchi => .branch
  | .load | .store => .io
  | .nop | .halt => .misc

/-- The format of an operation (R62). -/
def Op.format : Op → Format
  | .add | .sub | .and | .or | .shl | .shra | .shrl => .br
  | .addi | .subi | .andi | .ori | .shli | .shrai | .shrli => .bi
  | .not | .mov => .ur
  | .noti | .movi => .ui
  | .ceq | .cltu | .clts | .cgtu | .cgts => .cr
  | .ceqi | .cltui | .cltsi | .cgtui | .cgtsi => .ci
  | .jump | .branch => .jr
  | .jumpi | .branchi => .ji
  | .load | .store => .io
  | .nop | .halt => .m

/-- The bits of a word that the decoder's functions read in each format, ones where a bit is read
(R53, R61). -/
def Format.readMask : Format → Word
  | .br => 0x001FFFFF
  | .ur | .cr => 0x0000FFFF
  | .jr => 0x000007FF
  | .m => 0x0000003F
  | .bi | .ui | .ci | .ji | .io => 0xFFFFFFFF

/-- The register form and the immediate form of each of the sixteen paired operations (R63 item 2). -/
def Op.pairs : List (Op × Op) :=
  [(.add, .addi), (.sub, .subi), (.and, .andi), (.or, .ori), (.shl, .shli), (.shra, .shrai),
   (.shrl, .shrli), (.not, .noti), (.mov, .movi), (.ceq, .ceqi), (.cltu, .cltui),
   (.clts, .cltsi), (.cgtu, .cgtui), (.cgts, .cgtsi), (.jump, .jumpi), (.branch, .branchi)]

/-- Every operation, once. -/
def Op.all : List Op :=
  Op.pairs.flatMap (fun p => [p.1, p.2]) ++ [.load, .store, .nop, .halt]

/-- The opcode a map gives an operation (0 if it gives none). -/
def OpcodeMap.opcodeOf (m : OpcodeMap) (op : Op) : Opcode :=
  match m with
  | [] => 0
  | (c, o) :: rest => if o = op then c else OpcodeMap.opcodeOf rest op

/-- The operation a map gives an opcode: the table lookup of `decode_type` (R80). -/
def OpcodeMap.opOf (m : OpcodeMap) (c : Opcode) : Option Op :=
  match m with
  | [] => none
  | (c', o) :: rest => if c' = c then some o else OpcodeMap.opOf rest c

/-- The constraints on an admissible map (R63): the opcodes are distinct (items 1 and 6), every
operation has exactly one opcode (items 4 and 5), and in each register and immediate pair the
opcodes differ in bit 0 only, clear for the register form (item 2). Item 3 holds of every map here,
because an operation carries its type and its ALU function with it. -/
def OpcodeMap.admissible (m : OpcodeMap) : Bool :=
  decide ((m.map Prod.fst).Nodup) &&
  Op.all.all (fun op => (m.filter (fun row => decide (row.2 = op))).length == 1) &&
  Op.pairs.all (fun p =>
    !(m.opcodeOf p.1).getLsbD 0 && (m.opcodeOf p.2 == (m.opcodeOf p.1 ||| 1)))

/-- R63 but for item 4: LOAD and STORE may have further rows, whose opcodes are of type IO and neither
`OPC_LOAD` nor `OPC_STORE`. -/
def OpcodeMap.admissibleButIo (m : OpcodeMap) : Bool :=
  decide ((m.map Prod.fst).Nodup) &&
  Op.all.all (fun op =>
    let rows := (m.filter (fun row => decide (row.2 = op))).length
    rows == 1 || (decide (op.type = .io) && decide (1 ≤ rows))) &&
  Op.pairs.all (fun p =>
    !(m.opcodeOf p.1).getLsbD 0 && (m.opcodeOf p.2 == (m.opcodeOf p.1 ||| 1)))

/-! ## Classification under an opcode map (R80 to R83) -/

/-- `decode_type` (R80, R81). -/
def decodeType (m : OpcodeMap) (w : Word) : InstrType :=
  match m.opOf (opcodeField w) with
  | some op => op.type
  | none => .unknown

/-- `OPC_HALT`, `OPC_LOAD`, `OPC_STORE` (spec/42_pipeline.md, names). -/
def opcHalt (m : OpcodeMap) : Opcode := m.opcodeOf .halt

@[inherit_doc opcHalt] def opcLoad (m : OpcodeMap) : Opcode := m.opcodeOf .load

@[inherit_doc opcHalt] def opcStore (m : OpcodeMap) : Opcode := m.opcodeOf .store

/-- The word has type IO and its opcode is neither `OPC_LOAD` nor `OPC_STORE` (R65, R234). Only a map
that breaks R63 item 4 has such opcodes: those of its further rows for LOAD or STORE. -/
def isBadIo (m : OpcodeMap) (w : Word) : Bool :=
  decide (decodeType m w = .io) && opcodeField w != opcLoad m && opcodeField w != opcStore m

/-- The operation of a word, none for UNKNOWN and for an IO-typed word that is neither LOAD nor
STORE. -/
def opOfWord (m : OpcodeMap) (w : Word) : Option Op :=
  if isBadIo m w then none else m.opOf (opcodeField w)

/-- `is_immediate_variant` (R83): bit 0 of the opcode is set and the opcode is not STORE's. -/
def isImmediateVariant (m : OpcodeMap) (w : Word) : Bool :=
  w.getLsbD 0 && opcodeField w != opcStore m

/-! ## The decoder -/

/-- Why a word is no instruction. -/
inductive DecodeError where
  /-- Its opcode is unmapped: type UNKNOWN (R64). -/
  | unknown (opcode : Opcode)
  /-- Its opcode has type IO and is neither LOAD's nor STORE's (R65, R234). -/
  | badIo (opcode : Opcode)
deriving DecidableEq, Repr

/-- The instruction of an operation, its operands taken from the fields of its format (R54 to R60). -/
def instrOf (op : Op) (w : Word) : Instr :=
  match op with
  | .add => .add (fieldA w) (fieldB w) (fieldC w)
  | .addi => .addi (fieldA w) (fieldB w) (imm16Field w).toInt
  | .sub => .sub (fieldA w) (fieldB w) (fieldC w)
  | .subi => .subi (fieldA w) (fieldB w) (imm16Field w).toInt
  | .and => .and (fieldA w) (fieldB w) (fieldC w)
  | .andi => .andi (fieldA w) (fieldB w) (imm16Field w).toInt
  | .or => .or (fieldA w) (fieldB w) (fieldC w)
  | .ori => .ori (fieldA w) (fieldB w) (imm16Field w).toInt
  | .shl => .shl (fieldA w) (fieldB w) (fieldC w)
  | .shli => .shli (fieldA w) (fieldB w) (imm16Field w).toInt
  | .shra => .shra (fieldA w) (fieldB w) (fieldC w)
  | .shrai => .shrai (fieldA w) (fieldB w) (imm16Field w).toInt
  | .shrl => .shrl (fieldA w) (fieldB w) (fieldC w)
  | .shrli => .shrli (fieldA w) (fieldB w) (imm16Field w).toInt
  | .not => .not (fieldA w) (fieldB w)
  | .noti => .noti (fieldA w) (imm21Field w).toInt
  | .mov => .mov (fieldA w) (fieldB w)
  | .movi => .movi (fieldA w) (imm21Field w).toInt
  | .ceq => .ceq (fieldA w) (fieldB w)
  | .ceqi => .ceqi (fieldA w) (imm21Field w).toInt
  | .cltu => .cltu (fieldA w) (fieldB w)
  | .cltui => .cltui (fieldA w) (imm21Field w).toInt
  | .clts => .clts (fieldA w) (fieldB w)
  | .cltsi => .cltsi (fieldA w) (imm21Field w).toInt
  | .cgtu => .cgtu (fieldA w) (fieldB w)
  | .cgtui => .cgtui (fieldA w) (imm21Field w).toInt
  | .cgts => .cgts (fieldA w) (fieldB w)
  | .cgtsi => .cgtsi (fieldA w) (imm21Field w).toInt
  | .jump => .jump (fieldA w)
  | .jumpi => .jumpi (imm26Field w).toInt
  | .branch => .branch (fieldA w)
  | .branchi => .branchi (imm26Field w).toInt
  | .load => .load (fieldA w) (fieldB w) (imm16Field w).toInt
  | .store => .store (fieldA w) (fieldB w) (imm16Field w).toInt
  | .nop => .nop
  | .halt => .halt

/-- The CORE's decoder, under the opcode map it is given (R25, R62): only bits [5:0] select the
instruction (R51). -/
def decodeWith (m : OpcodeMap) (w : Word) : Except DecodeError Instr :=
  match opOfWord m w with
  | some op => .ok (instrOf op w)
  | none =>
    if isBadIo m w then .error (.badIo (opcodeField w)) else .error (.unknown (opcodeField w))

/-- The decoder under the default of that parameter, the reference map (R62). -/
def decode (w : Word) : Except DecodeError Instr := decodeWith referenceMap w

/-! ## The encoder -/

/-- The operation of an instruction. -/
def Instr.op : Instr → Op
  | .add .. => .add
  | .addi .. => .addi
  | .sub .. => .sub
  | .subi .. => .subi
  | .and .. => .and
  | .andi .. => .andi
  | .or .. => .or
  | .ori .. => .ori
  | .shl .. => .shl
  | .shli .. => .shli
  | .shra .. => .shra
  | .shrai .. => .shrai
  | .shrl .. => .shrl
  | .shrli .. => .shrli
  | .not .. => .not
  | .noti .. => .noti
  | .mov .. => .mov
  | .movi .. => .movi
  | .ceq .. => .ceq
  | .ceqi .. => .ceqi
  | .cltu .. => .cltu
  | .cltui .. => .cltui
  | .clts .. => .clts
  | .cltsi .. => .cltsi
  | .cgtu .. => .cgtu
  | .cgtui .. => .cgtui
  | .cgts .. => .cgts
  | .cgtsi .. => .cgtsi
  | .jump .. => .jump
  | .jumpi .. => .jumpi
  | .branch .. => .branch
  | .branchi .. => .branchi
  | .load .. => .load
  | .store .. => .store
  | .nop => .nop
  | .halt => .halt

/-- BR: `-----------bbbbbaaaaadddddoooooo` (R53); unread bits are 0 (the spec's D3, log 22). -/
def formatBR (opc : Opcode) (rd rs1 rs2 : RegIndex) : Word := 0#11 ++ rs2 ++ rs1 ++ rd ++ opc

/-- BI and IO: `iiiiiiiiiiiiiiiiaaaaadddddoooooo` (R53). -/
def formatBI (opc : Opcode) (rd rs1 : RegIndex) (imm : Int) : Word :=
  BitVec.ofInt 16 imm ++ rs1 ++ rd ++ opc

/-- UR and CR: `----------------aaaaadddddoooooo` (R53). -/
def formatUR (opc : Opcode) (rd rs : RegIndex) : Word := 0#16 ++ rs ++ rd ++ opc

/-- UI and CI: `iiiiiiiiiiiiiiiiiiiiidddddoooooo` (R53). -/
def formatUI (opc : Opcode) (rd : RegIndex) (imm : Int) : Word := BitVec.ofInt 21 imm ++ rd ++ opc

/-- JR: `---------------------dddddoooooo` (R53). -/
def formatJR (opc : Opcode) (rs : RegIndex) : Word := 0#21 ++ rs ++ opc

/-- JI: `iiiiiiiiiiiiiiiiiiiiiiiiiioooooo` (R53). -/
def formatJI (opc : Opcode) (off : Int) : Word := BitVec.ofInt 26 off ++ opc

/-- M: `--------------------------oooooo` (R53). -/
def formatM (opc : Opcode) : Word := 0#26 ++ opc

/-- The encoder, under the opcode map it is given. -/
def encodeWith (m : OpcodeMap) (i : Instr) : Word :=
  match i with
  | .add rd rs1 rs2 | .sub rd rs1 rs2 | .and rd rs1 rs2 | .or rd rs1 rs2
  | .shl rd rs1 rs2 | .shra rd rs1 rs2 | .shrl rd rs1 rs2 =>
    formatBR (m.opcodeOf i.op) rd rs1 rs2
  | .addi rd rs1 imm | .subi rd rs1 imm | .andi rd rs1 imm | .ori rd rs1 imm
  | .shli rd rs1 imm | .shrai rd rs1 imm | .shrli rd rs1 imm
  | .load rd rs1 imm | .store rd rs1 imm =>
    formatBI (m.opcodeOf i.op) rd rs1 imm
  | .not rd rs | .mov rd rs
  | .ceq rd rs | .cltu rd rs | .clts rd rs | .cgtu rd rs | .cgts rd rs =>
    formatUR (m.opcodeOf i.op) rd rs
  | .noti rd imm | .movi rd imm
  | .ceqi rd imm | .cltui rd imm | .cltsi rd imm | .cgtui rd imm | .cgtsi rd imm =>
    formatUI (m.opcodeOf i.op) rd imm
  | .jump rs | .branch rs => formatJR (m.opcodeOf i.op) rs
  | .jumpi off | .branchi off => formatJI (m.opcodeOf i.op) off
  | .nop | .halt => formatM (m.opcodeOf i.op)

/-- The word of an instruction under the reference map (R62). -/
def encode (i : Instr) : Word := encodeWith referenceMap i

/-! ## The table's numbering -/

/-- A word as spec/opcode_table.json numbers it: the low `nbits` bits of `w`, zeros above. An
instruction is one 32-bit word fetched whole, so no byte order enters (R45, R50). -/
def tableWord (nbits w : Nat) : Word := BitVec.ofNat 32 (w % 2 ^ nbits)

/-- The instruction the decoder reads from a word numbered as the table numbers it, which is the
reference map's numbering (R62). -/
def decodeTableWord (nbits w : Nat) : Option Instr :=
  match decode (tableWord nbits w) with
  | .ok i => some i
  | .error _ => none

end Sys2Proof
end

