-- ==== Sys2Proof/Machine/Alu.lean ====
section
/-! DEFINITION. The binary and unary functions of the ALU (spec/41_alu_dispatch.md R102 to R111).
None of them touches any state (R117). -/

namespace Sys2Proof.Machine

/-- R102: addition modulo 2^32. -/
def aluAdd (a b : Word) : Word := a + b

/-- R103: operand 1 minus operand 2, modulo 2^32. -/
def aluSub (a b : Word) : Word := a - b

/-- R104. -/
def aluAnd (a b : Word) : Word := a &&& b

/-- R105. -/
def aluOr (a b : Word) : Word := a ||| b

/-- R106: the shift selector; 0 selects 1 bit, anything else 8 bits. -/
def shiftAmount (b : Word) : Nat := if b = 0 then 1 else 8

/-- R107: vacated low bits are 0. -/
def aluShl (a b : Word) : Word := a <<< shiftAmount b

/-- R108: the original top bit fills the vacated bits. -/
def aluShra (a b : Word) : Word := a.sshiftRight (shiftAmount b)

/-- R109: zeros fill the vacated bits. -/
def aluShrl (a b : Word) : Word := a >>> shiftAmount b

/-- R110. -/
def aluNot (a : Word) : Word := ~~~a

/-- R111. -/
def aluMove (a : Word) : Word := a

end Sys2Proof.Machine
end

