-- ==== Sys2Proof/Machine/State.lean ====
section
/-! DEFINITION. The state of the CORE, as the closed list of spec/10_state.md R24 gives it, the
reasons it stops (spec/60_exceptions.md R232) and its state after reset (R26). -/

namespace Sys2Proof.Machine

/-- The causes of a fatal stop (R232). A fatal stop is a fault: the cycle is abandoned and the CORE
never steps again (R230). Stopping here is safe: nothing is claimed of what would follow. -/
inductive Fault where
  /-- Raised by Fetch when `x[31] >= CODE_LEN` (R32, R236); a case the source leaves undefined and
  the spec makes a stop (D9, log 10). Safe. -/
  | fetchOutOfRange
  /-- Raised by Decode of an IO-typed opcode that is neither LOAD nor STORE (R234):
  an opcode of a further LOAD or STORE row, which only a map that breaks R63 item 4 has (log 30). Safe. -/
  | badIoOpcode
  /-- Raised by Execute of a word whose opcode is unmapped (R233). Safe. -/
  | unknownInstruction
  /-- Raised by Execute of a LOAD or STORE with `ea > DATA_SIZE - 4` (R37, R235), and by the memory
  primitives if ever called with such an address (log 16). Safe. -/
  | dataAddressOutOfRange
  /-- Raised by the decoder's functions called with an operand index or a type they do not support
  (R92, R231); no stage does so. Safe. -/
  | decoderContract
  /-- Raised by a lookup of an empty ALU table slot (R101, R231); no stage does so. Safe. -/
  | aluSlotEmpty
deriving DecidableEq, Repr

/-- An instruction the model gives no meaning. -/
inductive Refusal where
  /-- Raised by an arm of `exec` that has no meaning yet; safe, since the run stops there. No arm of
  this model raises it. -/
  | notModelled (mnemonic : String)
deriving DecidableEq, Repr

/-- The five stages of the pipeline (R120). -/
inductive Stage where
  | fetch | decode | execute | memoryAccess | writeBack
deriving DecidableEq, Repr

/-- The IF-result, produced by Fetch and consumed by Decode (R20). -/
structure IfId where
  /-- The index of the instruction plus 1 (R121). -/
  nextPc : Word
  instr : Word
deriving DecidableEq, Repr

/-- The ID-result, produced by Decode and consumed by Execute (R20). -/
structure IdEx where
  nextPc : Word
  instr : Word
  operand1 : Word
  operand2 : Word
  /-- The destination index of a LOAD, the value a STORE stores (R58). -/
  ioOperand : Word
deriving DecidableEq, Repr

/-- The EX-result, produced by Execute and consumed by Memory-Access (R20). -/
structure ExMem where
  nextPc : Word
  instr : Word
  branchTaken : Bool
  result : Word
  ioOperand : Word
deriving DecidableEq, Repr

/-- The MEM-result, produced by Memory-Access and consumed by Write-Back (R20). -/
structure MemWb where
  nextPc : Word
  instr : Word
  result : Word
  ioOperand : Word
deriving DecidableEq, Repr

/-- Data memory: address and byte pairs, addresses strictly rising, no entry equal to what an
unlisted address reads as (`Memory.wf` in Machine/Memory.lean). -/
abbrev Memory := List Host.Cell

/-- The complete state (R24), with the step's parameters `CODE`, `DATA_SIZE` and `OPCODE_MAP` (R25)
carried beside it (log 2) and the model's own cursor `stage` (log 1). -/
structure State where
  /-- `x[0]` to `x[31]`; slot 31 is the program counter (R10, R12). -/
  regs : Vector Word 32
  /-- The one flag, written by COMPARE and read by BRANCH (R17). -/
  flag : Bool
  /-- `DATA` (R33). -/
  data : Memory
  /-- `IF_ID`; `none` is `absent` (R20, R21). -/
  ifId : Option IfId
  /-- `ID_EX` (R20). -/
  idEx : Option IdEx
  /-- `EX_MEM` (R20). -/
  exMem : Option ExMem
  /-- `MEM_WB` (R20). -/
  memWb : Option MemWb
  /-- The store-address log, oldest first (R22). -/
  log : List Word
  /-- The run has ended: all four pipeline registers were absent after a cycle (R23, R129). -/
  done : Bool
  /-- The cause of the fatal stop, if one was raised (R23, R230). -/
  fatal : Option Fault
  /-- `CODE`, indexed by words; its length is `CODE_LEN` (R31). No step changes it. -/
  code : List Word
  /-- `DATA_SIZE` in bytes (R33). No step changes it. -/
  dataSize : Nat
  /-- `OPCODE_MAP` (R4, R62), which of the 64 opcodes selects which operation. No step changes it;
  R63 says which maps are admissible (`State.Inv`). -/
  opcodes : OpcodeMap
  /-- The stage being evaluated; `fetch` between cycles. DESIGN CHOICE, log 1. -/
  stage : Stage
deriving DecidableEq, Repr

/-- The state right after reset (R26, R260). The register and flag values are the spec's D10
(log 4); nothing is loaded (log 3), `DATA_SIZE` is the reference size (log 9) and `OPCODE_MAP` the
reference map (log 5). -/
def State.reset : State where
  regs := Vector.replicate 32 Config.resetX
  flag := Config.resetFlag
  data := []
  ifId := none
  idEx := none
  exMem := none
  memWb := none
  log := []
  done := false
  fatal := none
  code := []
  dataSize := Config.defaultDataSize
  opcodes := referenceMap
  stage := .fetch

end Sys2Proof.Machine
end

