-- ==== Sys2Proof/Machine/Memory.lean ====
section
/-! DEFINITION. Data memory (spec/20_memory.md R33 to R37): bytes by address in one canonical form,
and the little-endian 4-byte word that every access moves. -/

namespace Sys2Proof.Machine

/-- What an address reads as when nothing is listed for it: data memory is zeroed (R33). -/
def unlistedByte : Byte := 0

/-- The listed addresses are strictly rising from `lo` on, and no listed byte is `unlistedByte`. -/
def Memory.wfFrom (lo : Nat) : Memory → Bool
  | [] => true
  | (k, v) :: rest => decide (lo ≤ k) && v != unlistedByte && Memory.wfFrom (k + 1) rest

/-- The canonical form: equal memories are equal lists. -/
def Memory.wf (m : Memory) : Bool := Memory.wfFrom 0 m

/-- The byte at an address. -/
def Memory.readByte (m : Memory) (a : Nat) : Byte :=
  match m with
  | [] => unlistedByte
  | (k, v) :: rest => if k = a then v else Memory.readByte rest a

/-- Put a byte before the entries that follow it, unless it is what an unlisted address reads as. -/
def Memory.consByte (a : Nat) (b : Byte) (rest : Memory) : Memory :=
  if b = unlistedByte then rest else (a, b) :: rest

/-- Store one byte, keeping the canonical form. -/
def Memory.writeByte (m : Memory) (a : Nat) (b : Byte) : Memory :=
  match m with
  | [] => Memory.consByte a b []
  | (k, v) :: rest =>
    if a < k then Memory.consByte a b ((k, v) :: rest)
    else if a = k then Memory.consByte a b rest
    else (k, v) :: Memory.writeByte rest a b

/-! Byte order (R35): little-endian. DESIGN CHOICE of the spec (D6), log 7. -/

/-- The word whose byte at the lowest address is `b0`. -/
def wordOfBytes (b0 b1 b2 b3 : Byte) : Word := b3 ++ b2 ++ b1 ++ b0

/-- Byte `i` of a word, counted from the lowest address of its access. -/
def byteOfWord (w : Word) (i : Nat) : Byte := w.extractLsb' (8 * i) 8

/-- `MemRead(a, 4)` (R35). The four addresses are counted as natural numbers and do not wrap; with a
data memory above 2^32 bytes the spec leaves that open: DESIGN CHOICE, log 34. -/
def Memory.readWord (m : Memory) (a : Nat) : Word :=
  wordOfBytes (m.readByte a) (m.readByte (a + 1)) (m.readByte (a + 2)) (m.readByte (a + 3))

/-- `MemWrite(a, 4, v)` (R35). As in `readWord` the addresses do not wrap: DESIGN CHOICE, log 34. -/
def Memory.writeWord (m : Memory) (a : Nat) (v : Word) : Memory :=
  (((m.writeByte a (byteOfWord v 0)).writeByte (a + 1) (byteOfWord v 1)).writeByte
    (a + 2) (byteOfWord v 2)).writeByte (a + 3) (byteOfWord v 3)

/-- The range check of R37: all four bytes lie inside data memory. Any alignment is legal (R36). -/
def legalAddress (dataSize : Nat) (ea : Word) : Bool :=
  decide (4 ≤ dataSize) && decide (ea.toNat ≤ dataSize - 4)

end Sys2Proof.Machine
end

