-- ==== Sys2Proof/Machine/Ops.lean ====
section
/-! DEFINITION. The operations every meaning is built from: the register file and program counter
(spec/10_state.md R10 to R16), code and data accesses (spec/20_memory.md R32, R35), the fatal stop
(spec/60_exceptions.md R230), and the five stages' handling of their pipeline registers
(spec/42_pipeline.md R120 to R126), each of which maps an absent input to an absent output. -/

namespace Sys2Proof.Machine

/-- What a stage, a cycle or a meaning answers. -/
abbrev Result := Host.Outcome State Fault Refusal

/-- Go on with `f` from a next state; stop at a fault or a refusal. -/
def andThen (o : Result) (f : State → Result) : Result :=
  match o with
  | .next s => f s
  | .fault c => .fault c
  | .refused r => .refused r

/-! ## Registers (R10 to R16) -/

/-- `x[r]`. No slot is hardwired (R11). -/
def State.reg (s : State) (r : RegIndex) : Word := s.regs[r.toNat]'(r.isLt)

/-- `x[r] <- v`, effective at once (R13). -/
def State.setReg (s : State) (r : RegIndex) (v : Word) : State :=
  { s with regs := s.regs.set r.toNat v r.isLt }

/-- The program counter is slot 31 (R12). -/
def State.pc (s : State) : Word := s.reg Config.pcIndex

/-- `pc <- t`. Nothing is checked (R16). -/
def State.setPc (s : State) (t : Word) : State := s.setReg Config.pcIndex t

/-! ## Code and data (R32, R35, R22) -/

/-- `CodeRead(i)` (R32). A fetch at or beyond `CODE_LEN` stops (the spec's D9, log 10). -/
def State.codeRead (s : State) (i : Word) : Except Fault Word :=
  match s.code[i.toNat]? with
  | some w => .ok w
  | none => .error .fetchOutOfRange

/-- `MemRead(a, 4)` (R35). The address has passed the check of R37 in every state a run reaches; in
any other state the access stops (log 16). -/
def State.memRead (s : State) (a : Word) : Except Fault Word :=
  if legalAddress s.dataSize a then .ok (s.data.readWord a.toNat)
  else .error .dataAddressOutOfRange

/-- `MemWrite(a, 4, v)` (R35), guarded as `memRead` is (log 16). -/
def State.memWrite (s : State) (a v : Word) : Except Fault State :=
  if legalAddress s.dataSize a then .ok { s with data := s.data.writeWord a.toNat v }
  else .error .dataAddressOutOfRange

/-- `LogStore(a)` (R22). -/
def State.logStore (s : State) (a : Word) : State := { s with log := s.log ++ [a] }

/-! ## The stop marks (R23, R129, R133, R230) -/

/-- Taking a fatal stop: the cause is recorded, nothing else is saved or changed and control goes
nowhere (R230, R240). There is no return from it (R241). The model's cursor is put back (log 1). -/
def State.raiseFatal (s : State) (cause : Fault) : State :=
  { s with fatal := some cause, stage := .fetch }

/-- All four pipeline registers are absent. -/
def State.drained (s : State) : Bool :=
  s.ifId.isNone && s.idEx.isNone && s.exMem.isNone && s.memWb.isNone

/-- The last line of the cycle function (R127): `done` is computed anew. -/
def State.markDone (s : State) : State := { s with done := s.drained }

/-- Enter a stage of the cycle (log 1). -/
def State.atStage (s : State) (st : Stage) : State := { s with stage := st }

/-! ## Fetch (R121) -/

/-- Fetch of a word that is not HALT: the program counter is incremented modulo 2^32 (R15) and the
incremented value travels with the word. -/
def fetchAdvance (s : State) : Result :=
  match s.codeRead s.pc with
  | .ok w => .next { s.setPc (s.pc + 1) with ifId := some ⟨s.pc + 1, w⟩ }
  | .error c => .fault c

/-- Fetch of HALT: absent, and the program counter is left unchanged (R15, R121). -/
def fetchHold (s : State) : Result :=
  match s.codeRead s.pc with
  | .ok _ => .next { s with ifId := none }
  | .error c => .fault c

/-! ## Decode (R122, R123) -/

/-- What Decode resolves for one instruction. -/
structure Operands where
  operand1 : Word
  operand2 : Word
  ioOperand : Word
deriving DecidableEq, Repr

/-- No operand: fields an instruction does not use hold 0 (R20; the spec's D15, log 15). -/
def noOperands : Operands := ⟨0, 0, 0⟩

/-- Decode with the operands `f` resolves from the IF-result; it writes nothing else (R122). -/
def decodeTo (f : IfId → Operands) (s : State) : Result :=
  match s.ifId with
  | some r =>
    .next { s with
      idEx := some ⟨r.nextPc, r.instr, (f r).operand1, (f r).operand2, (f r).ioOperand⟩ }
  | none => .next { s with idEx := none }

/-- Decode of an IO-typed word that is neither LOAD nor STORE (R123, R234). -/
def decodeBadIo (s : State) : Result :=
  match s.ifId with
  | some _ => .fault .badIoOpcode
  | none => .next { s with idEx := none }

/-! ## Execute (R124) -/

/-- Execute that computes a result and whether a transfer is taken, and changes nothing else. -/
def executeTo (taken : Bool) (f : IdEx → Word) (s : State) : Result :=
  match s.idEx with
  | some r => .next { s with exMem := some ⟨r.nextPc, r.instr, taken, f r, r.ioOperand⟩ }
  | none => .next { s with exMem := none }

/-- Execute of a COMPARE: the flag is written; the result carried on is 0 (R180; log 15). -/
def executeFlag (p : IdEx → Bool) (s : State) : Result :=
  match s.idEx with
  | some r =>
    .next { s with flag := p r, exMem := some ⟨r.nextPc, r.instr, false, 0, r.ioOperand⟩ }
  | none => .next { s with exMem := none }

/-- The effective address of an IO instruction (R210), modulo 2^32. -/
def effectiveAddress (r : IdEx) : Word := r.operand1 + r.operand2

/-- Execute of an IO instruction: the address is computed and range-checked (R37, R235). -/
def executeAddress (s : State) : Result :=
  match s.idEx with
  | some r =>
    if legalAddress s.dataSize (effectiveAddress r) then executeTo false effectiveAddress s
    else .fault .dataAddressOutOfRange
  | none => .next { s with exMem := none }

/-- Execute of an UNKNOWN word (R233). -/
def executeUnknown (s : State) : Result :=
  match s.idEx with
  | some _ => .fault .unknownInstruction
  | none => .next { s with exMem := none }

/-! ## Memory-Access (R125) -/

/-- The MEM-result that passes an EX-result on (R135). -/
def ExMem.passed (r : ExMem) : MemWb := ⟨r.nextPc, r.instr, r.result, r.ioOperand⟩

/-- Memory-Access of a type that does nothing there (R135). -/
def memoryPass (s : State) : Result :=
  match s.exMem with
  | some r => .next { s with memWb := some r.passed }
  | none => .next { s with memWb := none }

/-- Memory-Access of LOAD: the word at the address becomes the result (R211). -/
def memoryLoad (s : State) : Result :=
  match s.exMem with
  | some r =>
    match s.memRead r.result with
    | .ok v => .next { s with memWb := some { r.passed with result := v } }
    | .error c => .fault c
  | none => .next { s with memWb := none }

/-- Memory-Access of STORE: the four bytes are written, then the address is logged (R212, R22). -/
def memoryStore (s : State) : Result :=
  match s.exMem with
  | some r =>
    match s.memWrite r.result r.ioOperand with
    | .ok t => .next { t.logStore r.result with memWb := some r.passed }
    | .error c => .fault c
  | none => .next { s with memWb := none }

/-- Memory-Access of a jump or branch: if the transfer happens the program counter and the carried
`next_pc` become the target, otherwise nothing changes (R125, R196 to R199). -/
def memoryRedirect (taken : ExMem → Bool) (s : State) : Result :=
  match s.exMem with
  | some r =>
    if taken r then .next { s.setPc r.result with memWb := some { r.passed with nextPc := r.result } }
    else .next { s with memWb := some r.passed }
  | none => .next { s with memWb := none }

/-! ## Write-Back (R126) -/

/-- Write-Back of a type that writes no register (R135). -/
def writeBackNothing (s : State) : Result := .next s

/-- Write-Back of a binary or unary instruction: `x[rd] <- result`, slot 31 included (R126, R268). -/
def writeBackTo (rd : RegIndex) (s : State) : Result :=
  match s.memWb with
  | some r => .next (s.setReg rd r.result)
  | none => .next s

/-- The register a LOAD's io-operand names. It is a zero-extended 5-bit index in every state a run
reaches (R123); its low five bits are taken (log 17). -/
def ioRegister (io : Word) : RegIndex := io.setWidth 5

/-- Write-Back of LOAD: `x[io_operand] <- result` (R126). -/
def writeBackLoaded (s : State) : Result :=
  match s.memWb with
  | some r => .next (s.setReg (ioRegister r.ioOperand) r.result)
  | none => .next s

end Sys2Proof.Machine
end

