-- ==== Sys2Proof/Machine/Operands.lean ====
section
/-! DEFINITION. The operand forms Decode resolves (spec/40_decoder.md R86 to R94,
spec/42_pipeline.md R123, spec/46_control_transfer.md R195): registers, which are read from the
register file as it stands when Decode runs, and sign-extended immediates, used as they are. -/

namespace Sys2Proof.Machine

/-- The 32-bit value of an immediate: sign-extended from its field (R60, R85). -/
def immediate (v : Int) : Word := BitVec.ofInt 32 v

/-- A source that is a register or, in the immediate variant, a literal (R52). -/
inductive Source where
  | reg (r : RegIndex)
  | imm (v : Int)
deriving DecidableEq, Repr

/-- The value of a source: the current register or the literal (R122). -/
def Source.value (src : Source) (s : State) : Word :=
  match src with
  | .reg r => s.reg r
  | .imm v => immediate v

/-- BINARY_ARITHMETIC: operand 1 is always a register (R86, R150). -/
def binaryOperands (rs1 : RegIndex) (src2 : Source) (s : State) (_ : IfId) : Operands :=
  ⟨s.reg rs1, src2.value s, 0⟩

/-- UNARY_ARITHMETIC: operand 2 is unused (R87, R170). -/
def unaryOperands (src : Source) (s : State) (_ : IfId) : Operands := ⟨src.value s, 0, 0⟩

/-- COMPARE: operand 1 is always a register (R88, R180). -/
def compareOperands (rs1 : RegIndex) (src2 : Source) (s : State) (_ : IfId) : Operands :=
  ⟨s.reg rs1, src2.value s, 0⟩

/-- Where a jump or branch goes: an absolute index in a register, or an offset (R57). -/
inductive Target where
  | reg (r : RegIndex)
  | offset (v : Int)
deriving DecidableEq, Repr

/-- `BRANCH_IMM_BASE`: an offset is relative to the `next_pc` carried from Fetch (R195). DESIGN
CHOICE of the spec (D5), log 6. -/
def branchImmBase (r : IfId) : Word := r.nextPc

/-- `JUMP_REG_BASE`: a register target is absolute (R195). DESIGN CHOICE of the spec (D5), log 6. -/
def jumpRegBase : Word := 0

/-- JUMP and BRANCH: the two addends of the target (R123, R195). -/
def targetOperands (t : Target) (s : State) (r : IfId) : Operands :=
  match t with
  | .reg rs => ⟨s.reg rs, jumpRegBase, 0⟩
  | .offset v => ⟨branchImmBase r, immediate v, 0⟩

/-- LOAD: base, offset and the destination's index (R90, R123). -/
def loadOperands (rd rb : RegIndex) (off : Int) (s : State) (_ : IfId) : Operands :=
  ⟨s.reg rb, immediate off, rd.setWidth 32⟩

/-- STORE: base, offset and the value to store (R90, R123). -/
def storeOperands (rv rb : RegIndex) (off : Int) (s : State) (_ : IfId) : Operands :=
  ⟨s.reg rb, immediate off, s.reg rv⟩

end Sys2Proof.Machine
end

