-- ==== Sys2Proof/Machine/Binary.lean ====
section
/-! DEFINITION. The BINARY_ARITHMETIC instructions (spec/43_binary_arithmetic.md). -/

namespace Sys2Proof.Machine

/-- The template of all fourteen (R150): what the instruction does in each stage of the pipeline. -/
def binaryInstr (f : Word → Word → Word) (rd rs1 : RegIndex) (src2 : Source) (s : State) : Result :=
  match s.stage with
  | .fetch => fetchAdvance s
  | .decode => decodeTo (binaryOperands rs1 src2 s) s
  | .execute => executeTo false (fun r => f r.operand1 r.operand2) s
  | .memoryAccess => memoryPass s
  | .writeBack => writeBackTo rd s

/-- ADD `rd, rs1, rs2` (R151). -/
def execAdd (rd rs1 rs2 : RegIndex) (s : State) : Result := binaryInstr aluAdd rd rs1 (.reg rs2) s

/-- ADDI `rd, rs1, imm` (R152). -/
def execAddi (rd rs1 : RegIndex) (imm : Int) (s : State) : Result :=
  binaryInstr aluAdd rd rs1 (.imm imm) s

/-- SUB `rd, rs1, rs2` (R153). -/
def execSub (rd rs1 rs2 : RegIndex) (s : State) : Result := binaryInstr aluSub rd rs1 (.reg rs2) s

/-- SUBI `rd, rs1, imm` (R154). -/
def execSubi (rd rs1 : RegIndex) (imm : Int) (s : State) : Result :=
  binaryInstr aluSub rd rs1 (.imm imm) s

/-- AND `rd, rs1, rs2` (R155). -/
def execAnd (rd rs1 rs2 : RegIndex) (s : State) : Result := binaryInstr aluAnd rd rs1 (.reg rs2) s

/-- ANDI `rd, rs1, imm` (R156). -/
def execAndi (rd rs1 : RegIndex) (imm : Int) (s : State) : Result :=
  binaryInstr aluAnd rd rs1 (.imm imm) s

/-- OR `rd, rs1, rs2` (R157). -/
def execOr (rd rs1 rs2 : RegIndex) (s : State) : Result := binaryInstr aluOr rd rs1 (.reg rs2) s

/-- ORI `rd, rs1, imm` (R158). -/
def execOri (rd rs1 : RegIndex) (imm : Int) (s : State) : Result :=
  binaryInstr aluOr rd rs1 (.imm imm) s

/-- SHL `rd, rs1, rs2` (R159). -/
def execShl (rd rs1 rs2 : RegIndex) (s : State) : Result := binaryInstr aluShl rd rs1 (.reg rs2) s

/-- SHLI `rd, rs1, imm` (R160). -/
def execShli (rd rs1 : RegIndex) (imm : Int) (s : State) : Result :=
  binaryInstr aluShl rd rs1 (.imm imm) s

/-- SHRA `rd, rs1, rs2` (R161). -/
def execShra (rd rs1 rs2 : RegIndex) (s : State) : Result := binaryInstr aluShra rd rs1 (.reg rs2) s

/-- SHRAI `rd, rs1, imm` (R162). -/
def execShrai (rd rs1 : RegIndex) (imm : Int) (s : State) : Result :=
  binaryInstr aluShra rd rs1 (.imm imm) s

/-- SHRL `rd, rs1, rs2` (R163). -/
def execShrl (rd rs1 rs2 : RegIndex) (s : State) : Result := binaryInstr aluShrl rd rs1 (.reg rs2) s

/-- SHRLI `rd, rs1, imm` (R164). -/
def execShrli (rd rs1 : RegIndex) (imm : Int) (s : State) : Result :=
  binaryInstr aluShrl rd rs1 (.imm imm) s

end Sys2Proof.Machine
end

