-- ==== Sys2Proof/Machine/Flags.lean ====
section
/-! DEFINITION. The flag computations: the five compare predicates (spec/41_alu_dispatch.md R112 to
R116). There is one flag and these are all that is ever written to it (spec/10_state.md R17); the
writing itself is Execute's (R180, `executeFlag`). `BitVec.toInt` is the signed reading `s32` (R8). -/

namespace Sys2Proof.Machine

/-- R112: equal on all 32 bits. -/
def cmpEq (a b : Word) : Bool := decide (a = b)

/-- R113: unsigned less-than. -/
def cmpLtu (a b : Word) : Bool := decide (a.toNat < b.toNat)

/-- R114: signed less-than. -/
def cmpLts (a b : Word) : Bool := decide (a.toInt < b.toInt)

/-- R115: unsigned greater-than. -/
def cmpGtu (a b : Word) : Bool := decide (b.toNat < a.toNat)

/-- R116: signed greater-than. -/
def cmpGts (a b : Word) : Bool := decide (b.toInt < a.toInt)

end Sys2Proof.Machine
end

