-- ==== Sys2Proof/Machine/Compare.lean ====
section
/-! DEFINITION. The COMPARE instructions (spec/45_compare.md). -/

namespace Sys2Proof.Machine

/-- The template of all ten (R180): the flag is written in Execute and nothing is written back. -/
def compareInstr (p : Word → Word → Bool) (rs1 : RegIndex) (src2 : Source) (s : State) : Result :=
  match s.stage with
  | .fetch => fetchAdvance s
  | .decode => decodeTo (compareOperands rs1 src2 s) s
  | .execute => executeFlag (fun r => p r.operand1 r.operand2) s
  | .memoryAccess => memoryPass s
  | .writeBack => writeBackNothing s

/-- CEQ `rs1, rs2` (R181). -/
def execCeq (rs1 rs2 : RegIndex) (s : State) : Result := compareInstr cmpEq rs1 (.reg rs2) s

/-- CEQI `rs1, imm` (R182). -/
def execCeqi (rs1 : RegIndex) (imm : Int) (s : State) : Result := compareInstr cmpEq rs1 (.imm imm) s

/-- CLTU `rs1, rs2` (R183). -/
def execCltu (rs1 rs2 : RegIndex) (s : State) : Result := compareInstr cmpLtu rs1 (.reg rs2) s

/-- CLTUI `rs1, imm` (R184). -/
def execCltui (rs1 : RegIndex) (imm : Int) (s : State) : Result := compareInstr cmpLtu rs1 (.imm imm) s

/-- CLTS `rs1, rs2` (R185). -/
def execClts (rs1 rs2 : RegIndex) (s : State) : Result := compareInstr cmpLts rs1 (.reg rs2) s

/-- CLTSI `rs1, imm` (R186). -/
def execCltsi (rs1 : RegIndex) (imm : Int) (s : State) : Result := compareInstr cmpLts rs1 (.imm imm) s

/-- CGTU `rs1, rs2` (R187). -/
def execCgtu (rs1 rs2 : RegIndex) (s : State) : Result := compareInstr cmpGtu rs1 (.reg rs2) s

/-- CGTUI `rs1, imm` (R188). -/
def execCgtui (rs1 : RegIndex) (imm : Int) (s : State) : Result := compareInstr cmpGtu rs1 (.imm imm) s

/-- CGTS `rs1, rs2` (R189). -/
def execCgts (rs1 rs2 : RegIndex) (s : State) : Result := compareInstr cmpGts rs1 (.reg rs2) s

/-- CGTSI `rs1, imm` (R190). -/
def execCgtsi (rs1 : RegIndex) (imm : Int) (s : State) : Result := compareInstr cmpGts rs1 (.imm imm) s

end Sys2Proof.Machine
end

