-- ==== Sys2Proof/Machine/Control.lean ====
section
/-! DEFINITION. The JUMP and BRANCH instructions (spec/46_control_transfer.md). The target is the sum
of the two operands, computed in Execute; the program counter is overwritten in Memory-Access, two
fetches later, so two delay slots follow (R200). No register but the program counter is written
(R201) and no target is checked (R203). -/

namespace Sys2Proof.Machine

/-- JUMP, both forms (R196, R197): always taken, in Execute and in Memory-Access alike. -/
def jumpInstr (t : Target) (s : State) : Result :=
  match s.stage with
  | .fetch => fetchAdvance s
  | .decode => decodeTo (targetOperands t s) s
  | .execute => executeTo true (fun r => r.operand1 + r.operand2) s
  | .memoryAccess => memoryRedirect (fun _ => true) s
  | .writeBack => writeBackNothing s

/-- BRANCH, both forms (R198, R199): taken exactly when the flag is true in its Execute. -/
def branchInstr (t : Target) (s : State) : Result :=
  match s.stage with
  | .fetch => fetchAdvance s
  | .decode => decodeTo (targetOperands t s) s
  | .execute => executeTo s.flag (fun r => r.operand1 + r.operand2) s
  | .memoryAccess => memoryRedirect ExMem.branchTaken s
  | .writeBack => writeBackNothing s

/-- JUMP `rs` (R196). -/
def execJump (rs : RegIndex) (s : State) : Result := jumpInstr (.reg rs) s

/-- JUMPI `off` (R197). -/
def execJumpi (off : Int) (s : State) : Result := jumpInstr (.offset off) s

/-- BRANCH `rs` (R198). -/
def execBranch (rs : RegIndex) (s : State) : Result := branchInstr (.reg rs) s

/-- BRANCHI `off` (R199). -/
def execBranchi (off : Int) (s : State) : Result := branchInstr (.offset off) s

end Sys2Proof.Machine
end

