-- ==== Sys2Proof/Machine/LoadStore.lean ====
section
/-! DEFINITION. The IO instructions, LOAD and STORE (spec/47_load_store.md), and what the stages do with
a word of type IO that is neither (spec/60_exceptions.md R234). -/

namespace Sys2Proof.Machine

/-- LOAD `rd, rb, off` (R211). -/
def execLoad (rd rb : RegIndex) (off : Int) (s : State) : Result :=
  match s.stage with
  | .fetch => fetchAdvance s
  | .decode => decodeTo (loadOperands rd rb off s) s
  | .execute => executeAddress s
  | .memoryAccess => memoryLoad s
  | .writeBack => writeBackLoaded s

/-- STORE `rv, rb, off` (R212). -/
def execStore (rv rb : RegIndex) (off : Int) (s : State) : Result :=
  match s.stage with
  | .fetch => fetchAdvance s
  | .decode => decodeTo (storeOperands rv rb off s) s
  | .execute => executeAddress s
  | .memoryAccess => memoryStore s
  | .writeBack => writeBackNothing s

/-- A word of type IO whose opcode is neither LOAD's nor STORE's: fetched like any other, fatal in
Decode (R65, R123, R234). It reaches no later stage; there it does what the pseudocode gives its type:
the range check in Execute (R124), nothing in Memory-Access and Write-Back (R125, R126). -/
def badIoWord (s : State) : Result :=
  match s.stage with
  | .fetch => fetchAdvance s
  | .decode => decodeBadIo s
  | .execute => executeAddress s
  | .memoryAccess => memoryPass s
  | .writeBack => writeBackNothing s

end Sys2Proof.Machine
end

