-- ==== Sys2Proof/Machine/Misc.lean ====
section
/-! DEFINITION. The MISC instructions, NOP and HALT (spec/48_misc.md), and what the stages do with an
UNKNOWN word (spec/42_pipeline.md R136). -/

namespace Sys2Proof.Machine

/-- NOP (R220): fetched and carried through, with no other effect. -/
def execNop (s : State) : Result :=
  match s.stage with
  | .fetch => fetchAdvance s
  | .decode => decodeTo (fun _ => noOperands) s
  | .execute => executeTo false (fun _ => 0) s
  | .memoryAccess => memoryPass s
  | .writeBack => writeBackNothing s

/-- HALT (R221): acted on by Fetch alone. It never enters a pipeline register (R134), so in the
other stages, which no run reaches with it, it does what the pseudocode gives its type MISC: nothing
(log 18). -/
def execHalt (s : State) : Result :=
  match s.stage with
  | .fetch => fetchHold s
  | .decode => decodeTo (fun _ => noOperands) s
  | .execute => executeTo false (fun _ => 0) s
  | .memoryAccess => memoryPass s
  | .writeBack => writeBackNothing s

/-- A word of type UNKNOWN: fetched and decoded with no operand read, fatal in Execute (R64, R136,
R233). It never reaches the last two stages, where the pseudocode passes it through. -/
def unknownWord (s : State) : Result :=
  match s.stage with
  | .fetch => fetchAdvance s
  | .decode => decodeTo (fun _ => noOperands) s
  | .execute => executeUnknown s
  | .memoryAccess => memoryPass s
  | .writeBack => writeBackNothing s

end Sys2Proof.Machine
end

