-- ==== Sys2Proof/Machine/Unary.lean ====
section
/-! DEFINITION. The UNARY_ARITHMETIC instructions (spec/44_unary_arithmetic.md). -/

namespace Sys2Proof.Machine

/-- The template of all four (R170). -/
def unaryInstr (f : Word → Word) (rd : RegIndex) (src : Source) (s : State) : Result :=
  match s.stage with
  | .fetch => fetchAdvance s
  | .decode => decodeTo (unaryOperands src s) s
  | .execute => executeTo false (fun r => f r.operand1) s
  | .memoryAccess => memoryPass s
  | .writeBack => writeBackTo rd s

/-- NOT `rd, rs` (R171). -/
def execNot (rd rs : RegIndex) (s : State) : Result := unaryInstr aluNot rd (.reg rs) s

/-- NOTI `rd, imm` (R172). -/
def execNoti (rd : RegIndex) (imm : Int) (s : State) : Result := unaryInstr aluNot rd (.imm imm) s

/-- MOV `rd, rs` (R173). -/
def execMov (rd rs : RegIndex) (s : State) : Result := unaryInstr aluMove rd (.reg rs) s

/-- MOVI `rd, imm` (R174). -/
def execMovi (rd : RegIndex) (imm : Int) (s : State) : Result := unaryInstr aluMove rd (.imm imm) s

end Sys2Proof.Machine
end

