-- ==== Sys2Proof/Machine/Dispatch.lean ====
section
/-! DEFINITION. What an instruction does in the stage of the pipeline that `stage` names: one arm per
constructor, each a direct call of the instruction's meaning (spec/42_pipeline.md R121 to R126). -/

namespace Sys2Proof.Machine

def exec (i : Instr) (s : State) : Host.Outcome State Fault Refusal :=
  match i with
  | .add rd rs1 rs2 => Sys2Proof.Machine.execAdd rd rs1 rs2 s
  | .addi rd rs1 imm => Sys2Proof.Machine.execAddi rd rs1 imm s
  | .sub rd rs1 rs2 => Sys2Proof.Machine.execSub rd rs1 rs2 s
  | .subi rd rs1 imm => Sys2Proof.Machine.execSubi rd rs1 imm s
  | .and rd rs1 rs2 => Sys2Proof.Machine.execAnd rd rs1 rs2 s
  | .andi rd rs1 imm => Sys2Proof.Machine.execAndi rd rs1 imm s
  | .or rd rs1 rs2 => Sys2Proof.Machine.execOr rd rs1 rs2 s
  | .ori rd rs1 imm => Sys2Proof.Machine.execOri rd rs1 imm s
  | .shl rd rs1 rs2 => Sys2Proof.Machine.execShl rd rs1 rs2 s
  | .shli rd rs1 imm => Sys2Proof.Machine.execShli rd rs1 imm s
  | .shra rd rs1 rs2 => Sys2Proof.Machine.execShra rd rs1 rs2 s
  | .shrai rd rs1 imm => Sys2Proof.Machine.execShrai rd rs1 imm s
  | .shrl rd rs1 rs2 => Sys2Proof.Machine.execShrl rd rs1 rs2 s
  | .shrli rd rs1 imm => Sys2Proof.Machine.execShrli rd rs1 imm s
  | .not rd rs => Sys2Proof.Machine.execNot rd rs s
  | .noti rd imm => Sys2Proof.Machine.execNoti rd imm s
  | .mov rd rs => Sys2Proof.Machine.execMov rd rs s
  | .movi rd imm => Sys2Proof.Machine.execMovi rd imm s
  | .ceq rs1 rs2 => Sys2Proof.Machine.execCeq rs1 rs2 s
  | .ceqi rs1 imm => Sys2Proof.Machine.execCeqi rs1 imm s
  | .cltu rs1 rs2 => Sys2Proof.Machine.execCltu rs1 rs2 s
  | .cltui rs1 imm => Sys2Proof.Machine.execCltui rs1 imm s
  | .clts rs1 rs2 => Sys2Proof.Machine.execClts rs1 rs2 s
  | .cltsi rs1 imm => Sys2Proof.Machine.execCltsi rs1 imm s
  | .cgtu rs1 rs2 => Sys2Proof.Machine.execCgtu rs1 rs2 s
  | .cgtui rs1 imm => Sys2Proof.Machine.execCgtui rs1 imm s
  | .cgts rs1 rs2 => Sys2Proof.Machine.execCgts rs1 rs2 s
  | .cgtsi rs1 imm => Sys2Proof.Machine.execCgtsi rs1 imm s
  | .jump rs => Sys2Proof.Machine.execJump rs s
  | .jumpi off => Sys2Proof.Machine.execJumpi off s
  | .branch rs => Sys2Proof.Machine.execBranch rs s
  | .branchi off => Sys2Proof.Machine.execBranchi off s
  | .load rd rb off => Sys2Proof.Machine.execLoad rd rb off s
  | .store rv rb off => Sys2Proof.Machine.execStore rv rb off s
  | .nop => Sys2Proof.Machine.execNop s
  | .halt => Sys2Proof.Machine.execHalt s

end Sys2Proof.Machine
end

