-- ==== Sys2Proof/Machine/Cycle.lean ====
section
/-! DEFINITION. The cycle function (spec/42_pipeline.md R127): the five stages in reverse pipeline
order, each running the instruction its input carries, then the termination test (R129); the state
a fatal stop leaves (R133); and where the next instruction will be fetched. -/

namespace Sys2Proof.Machine

/-- What a word does in the current stage. Every stage decodes the word it carries anew (R93), under
the opcode map the step is given (R25, R62). -/
def runWord (w : Word) (s : State) : Result :=
  match decodeWith s.opcodes w with
  | .ok i => exec i s
  | .error (.unknown _) => unknownWord s
  | .error (.badIo _) => badIoWord s

/-- The word in a stage's input: the fetched word for Fetch, the `instr` field of the pipeline
register for the others, none when it is absent (R20, R121). -/
def State.stageInput (s : State) (st : Stage) : Except Fault (Option Word) :=
  match st with
  | .fetch =>
    match s.codeRead s.pc with
    | .ok w => .ok (some w)
    | .error c => .error c
  | .decode => .ok (s.ifId.map IfId.instr)
  | .execute => .ok (s.idEx.map IdEx.instr)
  | .memoryAccess => .ok (s.exMem.map ExMem.instr)
  | .writeBack => .ok (s.memWb.map MemWb.instr)

/-- A stage with an absent input: its output is absent and it has no other effect (R120, R21). -/
def stageIdle (s : State) : Result :=
  match s.stage with
  | .fetch => .next s
  | .decode => .next { s with idEx := none }
  | .execute => .next { s with exMem := none }
  | .memoryAccess => .next { s with memWb := none }
  | .writeBack => .next s

/-- One stage of the cycle. -/
def runStage (st : Stage) (s : State) : Result :=
  match s.stageInput st with
  | .ok (some w) => runWord w (s.atStage st)
  | .ok none => stageIdle (s.atStage st)
  | .error c => .fault c

/-- Stages one after another; each sees all that those before it wrote, and none runs after a fatal
stop (R127, R133). -/
def runStages (order : List Stage) (s : State) : Result :=
  match order with
  | [] => .next s
  | st :: rest => andThen (runStage st s) (runStages rest)

/-- The stages that run before Fetch: Write-Back, Memory-Access, Execute, Decode (R127). -/
def olderStages : List Stage := [.writeBack, .memoryAccess, .execute, .decode]

/-- The order of the five stages in a cycle (R127). -/
def cycleOrder : List Stage := olderStages ++ [.fetch]

/-- The cycle function (R127). -/
def cycle (s : State) : Result := andThen (runStages cycleOrder s) fun t => .next t.markDone

/-- One step of the CORE. A cycle needs `fatal` none and `done` false (R127). After a fatal stop no
further cycle ever runs (R230): the stop stays (log 11). After `done` the state is the final state of
the run (R129): it stays as it is (log 12). -/
def advance (s : State) : Result :=
  match s.fatal with
  | some c => .fault c
  | none => if s.done then .next s else cycle s

/-- The state a fatal stop leaves among the given stages: the stages before the raise stand, the
raising stage wrote nothing, the ones after it did not run, and the cause is recorded (R133, R230,
R240). -/
def stopAmong (order : List Stage) (s : State) : Option State :=
  match order with
  | [] => none
  | st :: rest =>
    match runStage st s with
    | .next t => stopAmong rest t
    | .fault c => some (s.raiseFatal c)
    | .refused _ => none

/-- The faulted state of the step from `s`, if that step stops fatally. The spec describes it and
no run ends in it (R230, R240; log 11). -/
def stopState (s : State) : Option State :=
  match s.fatal with
  | some _ => some s
  | none => if s.done then none else stopAmong cycleOrder s

/-- The index the next Fetch reads: `x[31]` after the older stages of the cycle have run (R16), none
if one of them stops. -/
def fetchIndex (s : State) : Option Word :=
  match runStages olderStages s with
  | .next t => some t.pc
  | .fault _ => none
  | .refused _ => none

/-- Put a word into a code array, padding it with zero words up to the index (log 28). -/
def placeWord (i : Nat) (w : Word) (code : List Word) : List Word :=
  match i, code with
  | 0, [] => [w]
  | 0, _ :: rest => w :: rest
  | n + 1, [] => 0 :: placeWord n w []
  | n + 1, x :: rest => x :: placeWord n w rest

/-- Empty all four pipeline registers. -/
def State.emptyPipeline (s : State) : State :=
  { s with ifId := none, idEx := none, exMem := none, memWb := none }

/-- The state whose next step fetches `w`: the stop marks are cleared, and the word stands in the
code array where the coming Fetch reads. Should an older instruction stop the CORE before that Fetch,
the pipeline is emptied as well (log 27). -/
def State.placeForFetch (s : State) (w : Word) : State :=
  let s := { s with done := false, fatal := none }
  match fetchIndex s with
  | some i => { s with code := placeWord i.toNat w s.code }
  | none => { s.emptyPipeline with code := placeWord s.pc.toNat w s.code }

/-- The whole passage of one instruction alone in the pipeline: its own five stages one after
another (R132), the pipeline empty again after it. It is what the instruction does when no hazard is
in play (R274). -/
def passage (i : Instr) (s : State) : Result :=
  andThen (exec i (s.atStage .fetch)) fun s =>
  andThen (exec i (s.atStage .decode)) fun s =>
  andThen (exec i (s.atStage .execute)) fun s =>
  andThen (exec i (s.atStage .memoryAccess)) fun s =>
  andThen (exec i (s.atStage .writeBack)) fun s =>
  .next (s.emptyPipeline.atStage .fetch)

end Sys2Proof.Machine
end

