-- ==== Sys2Proof/Machine/Step.lean ====
section
/-! DEFINITION. The step of the CORE is one cycle (spec/00_scope.md R5, spec/42_pipeline.md R127), and
the word it fetches next can be placed. A program runs from reset once it is loaded from outside the
machine (spec/20_memory.md R44, R45, spec/70_reset_and_hazards.md R261; log 3). -/

namespace Sys2Proof.Machine

/-- One cycle. -/
def step (s : State) : Host.Outcome State Fault Refusal := advance s

/-- `s` with the instruction word `w`, numbered as spec/opcode_table.json numbers it, stored where
the next step fetches. -/
def State.withFetchWord (s : State) (nbits w : Nat) : State := s.placeForFetch (tableWord nbits w)

end Sys2Proof.Machine
end

