-- ==== Sys2Proof/Machine/AluTables.lean ====
section
/-! DEFINITION. The three ALU dispatch tables (spec/41_alu_dispatch.md R100, R101): 128 slots each,
populated exactly at the opcodes the map gives the table's type, both opcodes of an operation holding
the same function (the spec's D4, log 24). Looking up an empty slot is fatal (the spec's D22, log 24). -/

namespace Sys2Proof.Machine

/-- The function of a binary operation. -/
def binaryFunction : Op → Option (Word → Word → Word)
  | .add | .addi => some aluAdd
  | .sub | .subi => some aluSub
  | .and | .andi => some aluAnd
  | .or | .ori => some aluOr
  | .shl | .shli => some aluShl
  | .shra | .shrai => some aluShra
  | .shrl | .shrli => some aluShrl
  | _ => none

/-- The function of a unary operation. -/
def unaryFunction : Op → Option (Word → Word)
  | .not | .noti => some aluNot
  | .mov | .movi => some aluMove
  | _ => none

/-- The predicate of a compare operation. -/
def comparePredicate : Op → Option (Word → Word → Bool)
  | .ceq | .ceqi => some cmpEq
  | .cltu | .cltui => some cmpLtu
  | .clts | .cltsi => some cmpLts
  | .cgtu | .cgtui => some cmpGtu
  | .cgts | .cgtsi => some cmpGts
  | _ => none

/-- The content of a table's slot: slots beyond the 6-bit opcodes are empty. -/
def tableSlot {α : Type} (m : OpcodeMap) (functionOf : Op → Option α)
    (slot : Fin Config.aluTableSlots) : Option α :=
  if slot.val < 2 ^ Config.opcodeBits then
    (m.opOf (BitVec.ofNat 6 slot.val)).bind functionOf
  else none

/-- A lookup by opcode. -/
def tableLookup {α : Type} (m : OpcodeMap) (functionOf : Op → Option α) (c : Opcode) :
    Except Fault α :=
  match tableSlot m functionOf ⟨c.toNat, Nat.lt_of_lt_of_le c.isLt (by decide)⟩ with
  | some f => .ok f
  | none => .error .aluSlotEmpty

/-- `BINARY[op]`. -/
def binaryTable (m : OpcodeMap) (c : Opcode) : Except Fault (Word → Word → Word) :=
  tableLookup m binaryFunction c

/-- `UNARY[op]`. -/
def unaryTable (m : OpcodeMap) (c : Opcode) : Except Fault (Word → Word) :=
  tableLookup m unaryFunction c

/-- `COMPARE[op]`. -/
def compareTable (m : OpcodeMap) (c : Opcode) : Except Fault (Word → Word → Bool) :=
  tableLookup m comparePredicate c

end Sys2Proof.Machine
end

