-- ==== Sys2Proof/Machine/DecoderUnit.lean ====
section
/-! DEFINITION. The decoder's field functions as spec/40_decoder.md gives them on raw words (R84, R86
to R92), with their contract violations, under the opcode map they are given (R25). The meanings take
their operands from `decodeWith` instead; Machine/Pseudo.lean uses these functions, and an obligation
says the two agree. -/

namespace Sys2Proof.Machine

/-- `decode_destination` (R84): valid for the two arithmetic types and IO only. -/
def decodeDestination (m : OpcodeMap) (w : Word) : Except Fault RegIndex :=
  match decodeType m w with
  | .binaryArithmetic | .unaryArithmetic | .io => .ok (fieldA w)
  | .compare | .jump | .branch | .misc | .unknown => .error .decoderContract

/-- A register index as the 32-bit value `decode_operand` answers. -/
def indexValue (r : RegIndex) : Word := r.setWidth 32

/-- `decode_operand(1, w)` (R86 to R91). -/
def decodeOperand1 (m : OpcodeMap) (w : Word) : Except Fault Word :=
  match decodeType m w with
  | .binaryArithmetic => .ok (indexValue (fieldB w))
  | .unaryArithmetic =>
    .ok (if isImmediateVariant m w then sext 21 (imm21Field w) else indexValue (fieldB w))
  | .compare => .ok (indexValue (fieldA w))
  | .jump | .branch =>
    .ok (if isImmediateVariant m w then sext 26 (imm26Field w) else indexValue (fieldA w))
  | .io => .ok (indexValue (fieldB w))
  | .misc | .unknown => .error .decoderContract

/-- `decode_operand(2, w)` (R86 to R91). -/
def decodeOperand2 (m : OpcodeMap) (w : Word) : Except Fault Word :=
  match decodeType m w with
  | .binaryArithmetic =>
    .ok (if isImmediateVariant m w then sext 16 (imm16Field w) else indexValue (fieldC w))
  | .compare =>
    .ok (if isImmediateVariant m w then sext 21 (imm21Field w) else indexValue (fieldB w))
  | .io => .ok (sext 16 (imm16Field w))
  | .unaryArithmetic | .jump | .branch | .misc | .unknown => .error .decoderContract

/-- `decode_operand(n, w)`: a register index, zero-extended, or a sign-extended immediate. An operand
index the type does not support is a contract violation (R92). -/
def decodeOperand (m : OpcodeMap) (n : Nat) (w : Word) : Except Fault Word :=
  match n with
  | 1 => decodeOperand1 m w
  | 2 => decodeOperand2 m w
  | _ => .error .decoderContract

end Sys2Proof.Machine
end

