-- ==== Sys2Proof/Machine/Pseudo.lean ====
section
/-! DEFINITION. The stage functions and the cycle function as spec/42_pipeline.md prints them (R121 to
R127): on raw words, by instruction type, through the decoder's field functions and the ALU tables.
The opcode map is the step's parameter (R25, log 2). The machine's step goes through `exec`, one meaning
per instruction; this file is the text it is held against, and an obligation says that the two steps
agree under every map that meets R63, item 4 apart. -/

namespace Sys2Proof.Machine

/-- Read the register whose index `decode_operand` answered. -/
def State.regAt (s : State) (index : Word) : Word := s.reg (index.setWidth 5)

/-- `Fetch()` (R121). -/
def pseudoFetch (s : State) : Except Fault (Option IfId × State) := do
  let w ← s.codeRead s.pc
  if opcodeField w = opcHalt s.opcodes then
    return (none, s)
  else
    let s := s.setPc (s.pc + 1)
    return (some ⟨s.pc, w⟩, s)

/-- The operands Decode resolves, by type (R123). -/
def pseudoOperands (r : IfId) (s : State) : Except Fault Operands :=
  let m := s.opcodes
  let w := r.instr
  match decodeType m w with
  | .binaryArithmetic => do
    let o1 ← decodeOperand m 1 w
    let o2 ← decodeOperand m 2 w
    return ⟨s.regAt o1, if isImmediateVariant m w then o2 else s.regAt o2, 0⟩
  | .unaryArithmetic => do
    let o1 ← decodeOperand m 1 w
    return ⟨if isImmediateVariant m w then o1 else s.regAt o1, 0, 0⟩
  | .compare => do
    let o1 ← decodeOperand m 1 w
    let o2 ← decodeOperand m 2 w
    return ⟨s.regAt o1, if isImmediateVariant m w then o2 else s.regAt o2, 0⟩
  | .jump | .branch => do
    let o ← decodeOperand m 1 w
    return if isImmediateVariant m w then ⟨r.nextPc, o, 0⟩ else ⟨s.regAt o, 0, 0⟩
  | .io => do
    let o1 ← decodeOperand m 1 w
    let o2 ← decodeOperand m 2 w
    let d ← decodeDestination m w
    if opcodeField w = opcLoad m then return ⟨s.regAt o1, o2, indexValue d⟩
    else if opcodeField w = opcStore m then return ⟨s.regAt o1, o2, s.reg d⟩
    else .error .badIoOpcode
  | .misc | .unknown => return ⟨0, 0, 0⟩

/-- `Decode(in)` (R123). -/
def pseudoDecode (input : Option IfId) (s : State) : Except Fault (Option IdEx) :=
  match input with
  | none => return none
  | some r => do
    let o ← pseudoOperands r s
    return some ⟨r.nextPc, r.instr, o.operand1, o.operand2, o.ioOperand⟩

/-- `Execute(in)` (R124). -/
def pseudoExecute (input : Option IdEx) (s : State) : Except Fault (Option ExMem × State) :=
  match input with
  | none => return (none, s)
  | some r =>
    let m := s.opcodes
    let w := r.instr
    let out (taken : Bool) (v : Word) : Option ExMem := some ⟨r.nextPc, w, taken, v, r.ioOperand⟩
    match decodeType m w with
    | .binaryArithmetic => do
      let f ← binaryTable m (opcodeField w)
      return (out false (f r.operand1 r.operand2), s)
    | .unaryArithmetic => do
      let f ← unaryTable m (opcodeField w)
      return (out false (f r.operand1), s)
    | .compare => do
      let p ← compareTable m (opcodeField w)
      return (out false 0, { s with flag := p r.operand1 r.operand2 })
    | .branch => return (out s.flag (r.operand1 + r.operand2), s)
    | .jump => return (out true (r.operand1 + r.operand2), s)
    | .io =>
      if legalAddress s.dataSize (r.operand1 + r.operand2) then
        return (out false (r.operand1 + r.operand2), s)
      else .error .dataAddressOutOfRange
    | .misc => return (out false 0, s)
    | .unknown => .error .unknownInstruction

/-- `MemoryAccess(in)` (R125). -/
def pseudoMemoryAccess (input : Option ExMem) (s : State) : Except Fault (Option MemWb × State) :=
  match input with
  | none => return (none, s)
  | some r =>
    let m := s.opcodes
    let w := r.instr
    if decodeType m w = .io ∧ opcodeField w = opcLoad m then do
      let v ← s.memRead r.result
      return (some ⟨r.nextPc, w, v, r.ioOperand⟩, s)
    else if decodeType m w = .io ∧ opcodeField w = opcStore m then do
      let s ← s.memWrite r.result r.ioOperand
      return (some ⟨r.nextPc, w, r.result, r.ioOperand⟩, s.logStore r.result)
    else if decodeType m w = .jump ∨ (decodeType m w = .branch ∧ r.branchTaken) then
      return (some ⟨r.result, w, r.result, r.ioOperand⟩, s.setPc r.result)
    else
      return (some ⟨r.nextPc, w, r.result, r.ioOperand⟩, s)

/-- `WriteBack(in)` (R126). -/
def pseudoWriteBack (input : Option MemWb) (s : State) : Except Fault State :=
  match input with
  | none => return s
  | some r =>
    let m := s.opcodes
    let w := r.instr
    if decodeType m w = .binaryArithmetic ∨ decodeType m w = .unaryArithmetic then do
      let d ← decodeDestination m w
      return s.setReg d r.result
    else if decodeType m w = .io ∧ opcodeField w = opcLoad m then
      return s.setReg (ioRegister r.ioOperand) r.result
    else
      return s

/-- `Cycle()` (R127). -/
def pseudoCycle (s : State) : Except Fault State := do
  let s ← pseudoWriteBack s.memWb s
  let (memWb, s) ← pseudoMemoryAccess s.exMem s
  let s := { s with memWb := memWb }
  let (exMem, s) ← pseudoExecute s.idEx s
  let s := { s with exMem := exMem }
  let idEx ← pseudoDecode s.ifId s
  let s := { s with idEx := idEx }
  let (ifId, s) ← pseudoFetch s
  let s := { s with ifId := ifId }
  return { s with done := s.ifId.isNone && s.idEx.isNone && s.exMem.isNone && s.memWb.isNone }

/-- A cycle where its precondition holds (R127), the stop marks otherwise (logs 11 and 12). -/
def pseudoStep (s : State) : Result :=
  match s.fatal with
  | some c => .fault c
  | none =>
    if s.done then .next s
    else
      match pseudoCycle s with
      | .ok t => .next (t.atStage .fetch)
      | .error c => .fault c

end Sys2Proof.Machine
end

