-- ==== Sys2Proof/Machine/Effects.lean ====
section
/-! DEFINITION. What the record in a pipeline register will do, read off its word: the operands Decode
resolves (spec/42_pipeline.md R123), the result, flag and stop of Execute (R124), the transfer
Memory-Access makes (R125) and the register Write-Back writes (R126), under the opcode map (R25). The
step does not go through these; the whole-machine rules are stated with them. -/

namespace Sys2Proof.Machine

/-- The word is a LOAD. -/
def isLoad (m : OpcodeMap) (w : Word) : Bool := decide (opOfWord m w = some .load)

/-- The word is a STORE. -/
def isStore (m : OpcodeMap) (w : Word) : Bool := decide (opOfWord m w = some .store)

/-- The word is a LOAD or a STORE. -/
def isIo (m : OpcodeMap) (w : Word) : Bool := isLoad m w || isStore m w

/-- The word is a HALT, recognised by its opcode (R59). -/
def isHalt (m : OpcodeMap) (w : Word) : Bool := decide (opOfWord m w = some .halt)

/-- The register an instruction writes in Write-Back (R126), none for the types that write none. -/
def instrDestination : Instr → Option RegIndex
  | .add d _ _ | .addi d _ _ | .sub d _ _ | .subi d _ _ | .and d _ _ | .andi d _ _
  | .or d _ _ | .ori d _ _ | .shl d _ _ | .shli d _ _ | .shra d _ _ | .shrai d _ _
  | .shrl d _ _ | .shrli d _ _ => some d
  | .not d _ | .noti d _ | .mov d _ | .movi d _ => some d
  | .load d _ _ => some d
  | .ceq .. | .ceqi .. | .cltu .. | .cltui .. | .clts .. | .cltsi ..
  | .cgtu .. | .cgtui .. | .cgts .. | .cgtsi .. => none
  | .jump .. | .jumpi .. | .branch .. | .branchi .. => none
  | .store .. | .nop | .halt => none

/-- The register the instruction of a word writes in Write-Back. -/
def destinationOf (m : OpcodeMap) (w : Word) : Option RegIndex :=
  match opOfWord m w with
  | some op => instrDestination (instrOf op w)
  | none => none

/-- The word is a jump or a branch. -/
def isTransfer (m : OpcodeMap) (w : Word) : Bool :=
  decide (decodeType m w = .jump ∨ decodeType m w = .branch)

/-- The register an instruction's operand 1 is read from, none where it is a literal, the carried
`next_pc`, or unused (R86 to R91, R195). -/
def operand1Register : Instr → Option RegIndex
  | .add _ a _ | .sub _ a _ | .and _ a _ | .or _ a _ | .shl _ a _ | .shra _ a _ | .shrl _ a _ => some a
  | .addi _ a _ | .subi _ a _ | .andi _ a _ | .ori _ a _ | .shli _ a _ | .shrai _ a _
  | .shrli _ a _ => some a
  | .not _ a | .mov _ a => some a
  | .ceq a _ | .cltu a _ | .clts a _ | .cgtu a _ | .cgts a _ => some a
  | .ceqi a _ | .cltui a _ | .cltsi a _ | .cgtui a _ | .cgtsi a _ => some a
  | .jump a | .branch a => some a
  | .load _ a _ | .store _ a _ => some a
  | .noti .. | .movi .. | .jumpi .. | .branchi .. | .nop | .halt => none

/-- The register an instruction's operand 2 is read from (R86 to R91). -/
def operand2Register : Instr → Option RegIndex
  | .add _ _ b | .sub _ _ b | .and _ _ b | .or _ _ b | .shl _ _ b | .shra _ _ b | .shrl _ _ b => some b
  | .ceq _ b | .cltu _ b | .clts _ b | .cgtu _ b | .cgts _ b => some b
  | .addi .. | .subi .. | .andi .. | .ori .. | .shli .. | .shrai .. | .shrli .. => none
  | .not .. | .mov .. | .noti .. | .movi .. => none
  | .ceqi .. | .cltui .. | .cltsi .. | .cgtui .. | .cgtsi .. => none
  | .jump .. | .jumpi .. | .branch .. | .branchi .. | .load .. | .store .. | .nop | .halt => none

/-- The register whose value a STORE stores (R58, R212). -/
def storedRegister : Instr → Option RegIndex
  | .store v _ _ => some v
  | .add .. | .addi .. | .sub .. | .subi .. | .and .. | .andi .. | .or .. | .ori .. => none
  | .shl .. | .shli .. | .shra .. | .shrai .. | .shrl .. | .shrli .. => none
  | .not .. | .noti .. | .mov .. | .movi .. => none
  | .ceq .. | .ceqi .. | .cltu .. | .cltui .. | .clts .. | .cltsi .. => none
  | .cgtu .. | .cgtui .. | .cgts .. | .cgtsi .. => none
  | .jump .. | .jumpi .. | .branch .. | .branchi .. | .load .. | .nop | .halt => none

/-! ## Decode and Execute -/

/-- The operands of an instruction, read in a given state (R123, R195). -/
def operandsOf (i : Instr) (r : IfId) (s : State) : Operands :=
  match i with
  | .add _ a b | .sub _ a b | .and _ a b | .or _ a b | .shl _ a b | .shra _ a b | .shrl _ a b =>
    binaryOperands a (.reg b) s r
  | .addi _ a v | .subi _ a v | .andi _ a v | .ori _ a v | .shli _ a v | .shrai _ a v
  | .shrli _ a v => binaryOperands a (.imm v) s r
  | .not _ a | .mov _ a => unaryOperands (.reg a) s r
  | .noti _ v | .movi _ v => unaryOperands (.imm v) s r
  | .ceq a b | .cltu a b | .clts a b | .cgtu a b | .cgts a b => compareOperands a (.reg b) s r
  | .ceqi a v | .cltui a v | .cltsi a v | .cgtui a v | .cgtsi a v => compareOperands a (.imm v) s r
  | .jump a | .branch a => targetOperands (.reg a) s r
  | .jumpi v | .branchi v => targetOperands (.offset v) s r
  | .load d a v => loadOperands d a v s r
  | .store d a v => storeOperands d a v s r
  | .nop | .halt => noOperands

/-- The fatal stop Decode raises, if it raises one (R234). -/
def IfId.stop (r : IfId) (m : OpcodeMap) : Option Fault :=
  if isBadIo m r.instr then some .badIoOpcode else none

/-- The operands Decode resolves for a record, none for an UNKNOWN word (R136). -/
def IfId.operands (r : IfId) (s : State) : Operands :=
  match opOfWord s.opcodes r.instr with
  | some op => operandsOf (instrOf op r.instr) r s
  | none => noOperands

/-- The ID-result Decode produces from a record (R123). -/
def IfId.decoded (r : IfId) (s : State) : IdEx :=
  ⟨r.nextPc, r.instr, (r.operands s).operand1, (r.operands s).operand2, (r.operands s).ioOperand⟩

/-- The `result` Execute computes: the function of a binary or unary operation, the sum of the operands
for a target or an address, 0 for every other type (R124). -/
def IdEx.result (r : IdEx) (m : OpcodeMap) : Word :=
  match (opOfWord m r.instr).bind binaryFunction, (opOfWord m r.instr).bind unaryFunction with
  | some f, _ => f r.operand1 r.operand2
  | none, some f => f r.operand1
  | none, none =>
    match decodeType m r.instr with
    | .jump | .branch | .io => r.operand1 + r.operand2
    | .binaryArithmetic | .unaryArithmetic | .compare | .misc | .unknown => 0

/-- The `branch_taken` Execute sets: true for a JUMP, the current flag for a BRANCH (R124). -/
def IdEx.taken (r : IdEx) (m : OpcodeMap) (flag : Bool) : Bool :=
  match decodeType m r.instr with
  | .jump => true
  | .branch => flag
  | .binaryArithmetic | .unaryArithmetic | .compare | .io | .misc | .unknown => false

/-- The flag after Execute: a COMPARE's predicate, unchanged for every other type (R17, R124). -/
def IdEx.flagAfter (r : IdEx) (m : OpcodeMap) (flag : Bool) : Bool :=
  match (opOfWord m r.instr).bind comparePredicate with
  | some p => p r.operand1 r.operand2
  | none => flag

/-- The fatal stop Execute raises, if it raises one (R233, R235). -/
def IdEx.stop (r : IdEx) (m : OpcodeMap) (dataSize : Nat) : Option Fault :=
  match decodeType m r.instr with
  | .unknown => some .unknownInstruction
  | .io =>
    if legalAddress dataSize (r.operand1 + r.operand2) then none else some .dataAddressOutOfRange
  | .binaryArithmetic | .unaryArithmetic | .compare | .jump | .branch | .misc => none

/-- The EX-result Execute produces when it does not stop (R124). -/
def IdEx.executed (r : IdEx) (m : OpcodeMap) (flag : Bool) : ExMem :=
  ⟨r.nextPc, r.instr, r.taken m flag, r.result m, r.ioOperand⟩

/-! ## Memory-Access and Write-Back -/

/-- The register Write-Back writes: the destination field of a binary or unary instruction, the
io-operand's register of a LOAD, none for every other type (R126). -/
def MemWb.target (r : MemWb) (m : OpcodeMap) : Option RegIndex :=
  match decodeType m r.instr with
  | .binaryArithmetic | .unaryArithmetic => some (fieldA r.instr)
  | .io => if isLoad m r.instr then some (ioRegister r.ioOperand) else none
  | .compare | .jump | .branch | .misc | .unknown => none

/-- The index a transfer goes to in Memory-Access: always for a JUMP, if taken for a BRANCH (R125). -/
def ExMem.redirect (r : ExMem) (m : OpcodeMap) : Option Word :=
  match decodeType m r.instr with
  | .jump => some r.result
  | .branch => if r.branchTaken then some r.result else none
  | .binaryArithmetic | .unaryArithmetic | .compare | .io | .misc | .unknown => none

/-- The MEM-result of a record whose address, if it has one, is legal (R125). -/
def ExMem.accessed (r : ExMem) (m : OpcodeMap) (data : Memory) : MemWb :=
  if isLoad m r.instr then { r.passed with result := data.readWord r.result.toNat }
  else { r.passed with nextPc := (r.redirect m).getD r.nextPc }

/-- The state after the Write-Back stage (R126). -/
def State.wroteBack (s : State) : State :=
  match s.memWb with
  | some r =>
    match r.target s.opcodes with
    | some d => s.setReg d r.result
    | none => s
  | none => s

/-- The state after the Memory-Access stage, if no address stops it (R125). -/
def State.accessed (s : State) : State :=
  match s.exMem with
  | some r =>
    let t :=
      if isStore s.opcodes r.instr then
        { s with data := s.data.writeWord r.result.toNat r.ioOperand, log := s.log ++ [r.result] }
      else
        match r.redirect s.opcodes with
        | some a => s.setPc a
        | none => s
    { t with memWb := some (r.accessed s.opcodes s.data) }
  | none => { s with memWb := none }

/-- The program counter after Write-Back and Memory-Access, which is what Decode reads as `r31` and
Fetch uses as its index (R16, R128). -/
def State.redirectedPc (s : State) : Word :=
  match s.exMem.bind (ExMem.redirect · s.opcodes) with
  | some t => t
  | none => s.wroteBack.pc

/-- Register `r` as Decode reads it in the cycle that begins in `s`: after that cycle's Write-Back and
Memory-Access (R122, R128). -/
def State.decodeReg (s : State) (r : RegIndex) : Word :=
  if r = Config.pcIndex then s.redirectedPc else s.wroteBack.reg r

end Sys2Proof.Machine
end

