-- ==== Sys2Proof/Machine/HostView.lean ====
section
/-! DEFINITION. What the outside sees of the CORE and supplies to it: the port list of
spec/00_scope.md R6 (the spec's own framing, D16, log 26), the post-run report of the store-address
log (spec/10_state.md R22, spec/20_memory.md R44), and the load of a program (spec/20_memory.md R45,
spec/70_reset_and_hazards.md R261, logs 3 and 32). -/

namespace Sys2Proof.Machine

/-- The one data access a cycle may make, issued by Memory-Access (R6, R34). -/
inductive DataAccess where
  | read (addr : Word)
  | write (addr wdata : Word)
deriving DecidableEq, Repr

/-- The outputs of the block (R6). -/
structure Ports where
  /-- The word index Fetch presents to the code memory in the coming cycle, if it gets to run. -/
  codeAddr : Option Word
  /-- The data access of the coming cycle. -/
  dataAccess : Option DataAccess
  /-- The store event of the coming cycle: the effective address. -/
  storeLog : Option Word
  done : Bool
  fatal : Option Fault
deriving DecidableEq, Repr

/-- The data access of the instruction that stands before Memory-Access. -/
def ExMem.dataAccess (r : ExMem) (m : OpcodeMap) : Option DataAccess :=
  match opOfWord m r.instr with
  | some .load => some (.read r.result)
  | some .store => some (.write r.result r.ioOperand)
  | _ => none

/-- The ports in the cycle that begins in `s`; a stopped CORE drives no access. -/
def State.ports (s : State) : Ports :=
  let access := if s.done || s.fatal.isSome then none else s.exMem.bind (ExMem.dataAccess · s.opcodes)
  { codeAddr := if s.done || s.fatal.isSome then none else fetchIndex s
    dataAccess := access
    storeLog :=
      match access with
      | some (.write a _) => some a
      | _ => none
    done := s.done
    fatal := s.fatal }

/-- The report after the run: each logged address with the current word there, in order, duplicates
kept (R22, R44). -/
def State.storeReport (s : State) : List (Word × Word) :=
  s.log.map fun a => (a, s.data.readWord a.toNat)

/-- The instruction array of a binary image, little-endian, none unless its length is a multiple of
four bytes (R45). -/
def loadBinary : List Byte → Option (List Word)
  | [] => some []
  | b0 :: b1 :: b2 :: b3 :: rest => (loadBinary rest).map (wordOfBytes b0 b1 b2 b3 :: ·)
  | _ => none

/-- The instruction word of a line of the text format, its digits with the most significant first
(R45; the spec's D20, log 32). Of more than 32 digits the last 32 are kept; the spec leaves long lines
open (91_not_in_source N15): DESIGN CHOICE, log 35. -/
def wordOfDigits (digits : List Bool) : Word :=
  digits.foldl (fun w b => (w <<< 1) ||| (if b then 1 else 0)) 0

/-- The state in which the first cycle runs: reset, with an opcode map, a complete program and a sized,
zeroed data memory (R25, R261). -/
def State.boot (opcodes : OpcodeMap) (code : List Word) (dataSize : Nat) : State :=
  { State.reset with opcodes := opcodes, code := code, dataSize := dataSize }

end Sys2Proof.Machine
end

