-- ==== Sys2Proof/Safety.lean ====
section
/-! DEFINITION. What counts as a safe run, a completed run, and a well-formed state, in the terms the
statements use. -/

namespace Sys2Proof.Machine

/-- `k` cycles run from `s` to `t` with no fatal stop. -/
def RunsTo (k : Nat) (s t : State) : Prop := Host.Core.run Sys2Proof.core k s = .next t

/-- A run is safe when no number of cycles ends in a fatal stop (R230: a claim about a program has
"no fatal stop" among its premises or conclusions). -/
def SafeRun (s : State) : Prop := ∀ k, ∃ t, RunsTo k s t

/-- The run from `s` ends after exactly `k` cycles, in the final state `t` (R129). -/
def EndsAfter (k : Nat) (s t : State) : Prop :=
  RunsTo k s t ∧ t.done = true ∧ ∀ j < k, ∃ u, RunsTo j s u ∧ u.done = false

/-- The words in the four pipeline registers. -/
def State.inFlight (s : State) : List Word :=
  (s.ifId.map IfId.instr).toList ++ (s.idEx.map IdEx.instr).toList ++
    (s.exMem.map ExMem.instr).toList ++ (s.memWb.map MemWb.instr).toList

/-- What holds of every state a run reaches, between cycles. -/
structure State.Inv (s : State) : Prop where
  /-- The opcode map meets the constraints of R63. -/
  map_admissible : s.opcodes.admissible = true
  /-- Data memory is in canonical form. -/
  data_wf : Memory.wf s.data = true
  /-- Every listed byte exists (R33). -/
  data_bounded : ∀ c ∈ s.data, c.1 < s.dataSize
  /-- Every logged address passed the range check (R22, R37). -/
  log_legal : ∀ a ∈ s.log, legalAddress s.dataSize a = true
  /-- An address on its way to Memory-Access passed the range check (R125). -/
  address_legal : ∀ r, s.exMem = some r → isIo s.opcodes r.instr = true →
    legalAddress s.dataSize r.result = true
  /-- A LOAD carries its destination index (R123, R126). -/
  load_index_idEx : ∀ r, s.idEx = some r → isLoad s.opcodes r.instr = true →
    r.ioOperand = (fieldA r.instr).setWidth 32
  load_index_exMem : ∀ r, s.exMem = some r → isLoad s.opcodes r.instr = true →
    r.ioOperand = (fieldA r.instr).setWidth 32
  load_index_memWb : ∀ r, s.memWb = some r → isLoad s.opcodes r.instr = true →
    r.ioOperand = (fieldA r.instr).setWidth 32
  /-- `branch_taken` is true of every JUMP, and false of everything but jumps and branches (R124). -/
  jump_taken : ∀ r, s.exMem = some r → decodeType s.opcodes r.instr = .jump → r.branchTaken = true
  taken_transfer : ∀ r, s.exMem = some r → r.branchTaken = true →
    decodeType s.opcodes r.instr = .jump ∨ decodeType s.opcodes r.instr = .branch
  /-- The IF-result carries the program counter that Fetch left (R14, R121). -/
  fetched_next : ∀ r, s.ifId = some r → r.nextPc = s.pc
  /-- HALT never enters the pipeline (R134). -/
  no_halt : ∀ w ∈ s.inFlight, isHalt s.opcodes w = false
  /-- An UNKNOWN word never leaves Execute (R136, R233). -/
  known_exMem : ∀ r, s.exMem = some r → decodeType s.opcodes r.instr ≠ .unknown
  known_memWb : ∀ r, s.memWb = some r → decodeType s.opcodes r.instr ≠ .unknown
  /-- `done` says that all four pipeline registers are absent (R23, R129). -/
  done_drained : s.done = true → s.drained = true
  /-- A state with `fatal` set is never the state of a run that goes on (R230). -/
  not_fatal : s.fatal = none
  /-- The model's cursor stands at `fetch` between cycles (log 1). -/
  at_fetch : s.stage = .fetch

end Sys2Proof.Machine
end

