-- ==== Sys2Proof/Certificates/Slice0/Obligations.lean ====
section
/-! DEFINITION. The statements for the provers. The helper structures stand first: what an
instruction's own effect is in each stage of the pipeline, and what it leaves unchanged. `exec i s` is
what instruction `i` does in the stage `s.stage` (log 1); `step` is one cycle. -/

namespace Sys2Proof.Machine

/-! ## What an instruction does, stage by stage

Fetch is the same for all instructions but HALT and has its own statement. -/

/-- BINARY_ARITHMETIC and UNARY_ARITHMETIC after Fetch (R150, R170): `o1` and `o2` are what Decode
resolves in the state it runs in, `f` is the function. -/
structure ArithmeticTemplate (i : Instr) (f : Word → Word → Word) (rd : RegIndex)
    (o1 o2 : State → Word) : Prop where
  decode : ∀ s r, s.stage = .decode → s.ifId = some r →
    exec i s = .next { s with idEx := some ⟨r.nextPc, r.instr, o1 s, o2 s, 0⟩ }
  execute : ∀ s r, s.stage = .execute → s.idEx = some r →
    exec i s = .next { s with
      exMem := some ⟨r.nextPc, r.instr, false, f r.operand1 r.operand2, r.ioOperand⟩ }
  memoryAccess : ∀ s r, s.stage = .memoryAccess → s.exMem = some r →
    exec i s = .next { s with memWb := some ⟨r.nextPc, r.instr, r.result, r.ioOperand⟩ }
  writeBack : ∀ s r, s.stage = .writeBack → s.memWb = some r →
    exec i s = .next (s.setReg rd r.result)

/-- COMPARE after Fetch (R180): the flag is written in Execute and no register in Write-Back. -/
structure CompareTemplate (i : Instr) (p : Word → Word → Bool) (o1 o2 : State → Word) : Prop where
  decode : ∀ s r, s.stage = .decode → s.ifId = some r →
    exec i s = .next { s with idEx := some ⟨r.nextPc, r.instr, o1 s, o2 s, 0⟩ }
  execute : ∀ s r, s.stage = .execute → s.idEx = some r →
    exec i s = .next { s with
      flag := p r.operand1 r.operand2
      exMem := some ⟨r.nextPc, r.instr, false, 0, r.ioOperand⟩ }
  memoryAccess : ∀ s r, s.stage = .memoryAccess → s.exMem = some r →
    exec i s = .next { s with memWb := some ⟨r.nextPc, r.instr, r.result, r.ioOperand⟩ }
  writeBack : ∀ s, s.stage = .writeBack → exec i s = .next s

/-- JUMP and BRANCH after Fetch (R196 to R199): `o1` and `o2` are the addends of the target, `taken`
is `branch_taken` as a function of the flag, and `goes` says of an EX-result whether Memory-Access
redirects the program counter. -/
structure TransferTemplate (i : Instr) (taken : Bool → Bool) (goes : ExMem → Bool)
    (o1 o2 : State → IfId → Word) : Prop where
  decode : ∀ s r, s.stage = .decode → s.ifId = some r →
    exec i s = .next { s with idEx := some ⟨r.nextPc, r.instr, o1 s r, o2 s r, 0⟩ }
  execute : ∀ s r, s.stage = .execute → s.idEx = some r →
    exec i s = .next { s with
      exMem := some ⟨r.nextPc, r.instr, taken s.flag, r.operand1 + r.operand2, r.ioOperand⟩ }
  redirect : ∀ s r, s.stage = .memoryAccess → s.exMem = some r → goes r = true →
    exec i s = .next { s.setReg 31 r.result with
      memWb := some ⟨r.result, r.instr, r.result, r.ioOperand⟩ }
  pass : ∀ s r, s.stage = .memoryAccess → s.exMem = some r → goes r = false →
    exec i s = .next { s with memWb := some ⟨r.nextPc, r.instr, r.result, r.ioOperand⟩ }
  writeBack : ∀ s, s.stage = .writeBack → exec i s = .next s

/-- NOP after Fetch (R220), and HALT in the stages no run reaches with it (log 18). -/
structure MiscTemplate (i : Instr) : Prop where
  decode : ∀ s r, s.stage = .decode → s.ifId = some r →
    exec i s = .next { s with idEx := some ⟨r.nextPc, r.instr, 0, 0, 0⟩ }
  execute : ∀ s r, s.stage = .execute → s.idEx = some r →
    exec i s = .next { s with exMem := some ⟨r.nextPc, r.instr, false, 0, r.ioOperand⟩ }
  memoryAccess : ∀ s r, s.stage = .memoryAccess → s.exMem = some r →
    exec i s = .next { s with memWb := some ⟨r.nextPc, r.instr, r.result, r.ioOperand⟩ }
  writeBack : ∀ s, s.stage = .writeBack → exec i s = .next s

/-! ## What an instruction does as a whole -/

/-- The state once the instruction has been fetched: the program counter is incremented (R121). -/
def State.advanced (s : State) : State := s.setReg 31 (s.reg 31 + 1)

/-- The state once the instruction has left the pipeline. -/
def State.settled (s : State) : State :=
  { s with ifId := none, idEx := none, exMem := none, memWb := none, stage := .fetch }

/-- Alone in the pipeline, `i` is fetched and then changes the state by `effect`: the one-line effect
of its rule (R274). -/
def HasEffect (i : Instr) (effect : State → State) : Prop :=
  ∀ s w, s.code[(s.reg 31).toNat]? = some w → passage i s = .next (effect s.advanced).settled

/-! ## What an instruction leaves unchanged -/

/-- From `s` to `t` in one stage, everything is as it was except the registers that `register` names,
the flag if `flag`, the bytes that `stored` names, the log if `log`, and the stage's own output. -/
structure Frame (s t : State) (register : RegIndex → Prop) (flag : Prop) (stored : Nat → Prop)
    (log : Prop) : Prop where
  reg : ∀ q, ¬ register q → t.reg q = s.reg q
  flag : ¬ flag → t.flag = s.flag
  byte : ∀ a, ¬ stored a → t.data.readByte a = s.data.readByte a
  log : ¬ log → t.log = s.log
  ifId : s.stage ≠ .fetch → t.ifId = s.ifId
  idEx : s.stage ≠ .decode → t.idEx = s.idEx
  exMem : s.stage ≠ .execute → t.exMem = s.exMem
  memWb : s.stage ≠ .memoryAccess → t.memWb = s.memWb
  done : t.done = s.done
  fatal : t.fatal = s.fatal
  code : t.code = s.code
  dataSize : t.dataSize = s.dataSize
  opcodes : t.opcodes = s.opcodes
  stage : t.stage = s.stage

/-- No run has ended in `s`: the precondition of a cycle (R127). -/
def State.running (s : State) : Prop := s.done = false ∧ s.fatal = none

end Sys2Proof.Machine

open Sys2Proof Sys2Proof.Machine

/-! ## Decoder and encoding -/

/-- Words of the spec's examples decode to the instructions they stand for (spec/95_test_vectors.md
V-DEC), and the reference map meets the constraints of R63 and leaves 28 opcodes unmapped (R62). The
opcode numbers are the spec's D1 (log 5). -/
def Obligations.SpecWordsDecode : Prop :=
  decode 0x000208C2 = .ok (.add 3 1 2) ∧
  decode 0xFFFF0843 = .ok (.addi 1 1 (-1)) ∧
  decode 0x00000890 = .ok (.not 2 1) ∧
  decode 0x80000053 = .ok (.movi 1 (-1048576)) ∧
  decode 0x00001060 = .ok (.ceq 1 2) ∧
  decode 0xFFFFF863 = .ok (.cltui 1 (-1)) ∧
  decode 0x00000170 = .ok (.jump 5) ∧
  decode 0xFFFFFEF3 = .ok (.branchi (-5)) ∧
  decode 0xFFFC08F8 = .ok (.load 3 1 (-4)) ∧
  decode 0x000408B9 = .ok (.store 2 1 4) ∧
  decode 0x0000003C = .ok .nop ∧
  decode 0xABCDEF3E = .ok .halt ∧
  decode 0x00000000 = .error (.unknown 0x00) ∧
  decode 0xFFFFFFFF = .error (.unknown 0x3F) ∧
  referenceMap.admissible = true ∧
  ((List.range 64).filter (fun c => (referenceMap.opOf (BitVec.ofNat 6 c)).isNone)).length = 28

/-- R51, R80: bits [5:0] alone select the instruction and its type, whatever the opcode map; an
unmapped opcode has type UNKNOWN. -/
def Obligations.OpcodeAloneSelects : Prop :=
  (∀ w : Word, opcodeField w = (w &&& 0x3F#32).setWidth 6) ∧
  (∀ (m : OpcodeMap) (w v : Word), opcodeField w = opcodeField v →
    (∀ e, decodeWith m w = .error e → decodeWith m v = .error e) ∧
    (∀ i, decodeWith m w = .ok i → ∃ j, decodeWith m v = .ok j ∧ j.op = i.op)) ∧
  (∀ (m : OpcodeMap) (w v : Word), opcodeField w = opcodeField v → decodeType m w = decodeType m v) ∧
  (∀ (m : OpcodeMap) (w : Word), m.opOf (opcodeField w) = none → decodeType m w = .unknown) ∧
  (∀ (m : OpcodeMap) (w : Word) (op : Op), m.opOf (opcodeField w) = some op →
    decodeType m w = op.type)

/-- Every instruction that can be written is read back as it was written, under every opcode map
that meets the constraints of R63. -/
def Obligations.DecodeInvertsEncode : Prop :=
  ∀ m : OpcodeMap, m.admissible = true →
    ∀ i : Instr, i.wellFormed = true → decodeWith m (encodeWith m i) = .ok i

/-- What the decoder reads is well-formed, encoding it gives the word back with the bits that the
format does not read cleared (the spec's D3, log 22), and a word that differs only in those bits is
the same instruction (R61). -/
def Obligations.EncodeInvertsDecode : Prop :=
  ∀ m : OpcodeMap, m.admissible = true →
    ∀ (w : Word) (i : Instr), decodeWith m w = .ok i →
      i.wellFormed = true ∧ encodeWith m i = w &&& i.op.format.readMask ∧
      ∀ v : Word, v &&& i.op.format.readMask = w &&& i.op.format.readMask → decodeWith m v = .ok i

/-- R85: sign extension of a 16, 21 or 26-bit field. -/
def Obligations.SignExtension : Prop :=
  ∀ n, n = 16 ∨ n = 21 ∨ n = 26 → ∀ v : BitVec n,
    (sext n v = if v.getLsbD (n - 1) then v.setWidth 32 ||| (0xFFFFFFFF#32 <<< n) else v.setWidth 32) ∧
    (∀ j, j < n → (sext n v).getLsbD j = v.getLsbD j) ∧
    (∀ j, n ≤ j → j < 32 → (sext n v).getLsbD j = v.getLsbD (n - 1)) ∧
    ((sext n v).toNat = if v.toNat < 2 ^ (n - 1) then v.toNat else v.toNat + 2 ^ 32 - 2 ^ n) ∧
    sext n ((sext n v).extractLsb' 0 n) = sext n v

/-- R60: an immediate is one field at the top of the word, so the value used is the word shifted
right arithmetically; it is the signed immediate of the decoded instruction, in the field's range. -/
def Obligations.ImmediateAssembly : Prop :=
  ∀ w : Word,
    (immediate (imm16Field w).toInt = w.sshiftRight 16 ∧ sext 16 (imm16Field w) = w.sshiftRight 16 ∧
      -32768 ≤ (imm16Field w).toInt ∧ (imm16Field w).toInt ≤ 32767) ∧
    (immediate (imm21Field w).toInt = w.sshiftRight 11 ∧ sext 21 (imm21Field w) = w.sshiftRight 11 ∧
      -1048576 ≤ (imm21Field w).toInt ∧ (imm21Field w).toInt ≤ 1048575) ∧
    (immediate (imm26Field w).toInt = w.sshiftRight 6 ∧ sext 26 (imm26Field w) = w.sshiftRight 6 ∧
      -33554432 ≤ (imm26Field w).toInt ∧ (imm26Field w).toInt ≤ 33554431)

/-- R86 to R91: what `decode_operand` answers for each type, by shifts and masks of the word, under
any opcode map. -/
def Obligations.DecoderOperandFields : Prop :=
  ∀ (m : OpcodeMap) (w : Word),
    (decodeType m w = .binaryArithmetic →
      decodeOperand m 1 w = .ok ((w >>> 11) &&& 0x1F#32) ∧
      decodeOperand m 2 w =
        .ok (if isImmediateVariant m w then w.sshiftRight 16 else (w >>> 16) &&& 0x1F#32)) ∧
    (decodeType m w = .unaryArithmetic →
      decodeOperand m 1 w =
        .ok (if isImmediateVariant m w then w.sshiftRight 11 else (w >>> 11) &&& 0x1F#32) ∧
      decodeOperand m 2 w = .error .decoderContract) ∧
    (decodeType m w = .compare →
      decodeOperand m 1 w = .ok ((w >>> 6) &&& 0x1F#32) ∧
      decodeOperand m 2 w =
        .ok (if isImmediateVariant m w then w.sshiftRight 11 else (w >>> 11) &&& 0x1F#32)) ∧
    (decodeType m w = .jump ∨ decodeType m w = .branch →
      decodeOperand m 1 w =
        .ok (if isImmediateVariant m w then w.sshiftRight 6 else (w >>> 6) &&& 0x1F#32) ∧
      decodeOperand m 2 w = .error .decoderContract) ∧
    (decodeType m w = .io →
      decodeOperand m 1 w = .ok ((w >>> 11) &&& 0x1F#32) ∧
      decodeOperand m 2 w = .ok (w.sshiftRight 16)) ∧
    (decodeType m w = .misc ∨ decodeType m w = .unknown →
      ∀ n, decodeOperand m n w = .error .decoderContract)

/-- R92: the decoder's functions fail exactly on the arguments a type does not support, under any
opcode map, and no cycle of any machine state calls them so. -/
def Obligations.DecoderContract : Prop :=
  (∀ (m : OpcodeMap) (n : Nat) (w : Word), decodeOperand m n w = .error .decoderContract ↔
    ¬ ((n = 1 ∧ decodeType m w ≠ .misc ∧ decodeType m w ≠ .unknown) ∨
       (n = 2 ∧ (decodeType m w = .binaryArithmetic ∨ decodeType m w = .compare ∨ decodeType m w = .io)))) ∧
  (∀ (m : OpcodeMap) (w : Word), decodeDestination m w = .error .decoderContract ↔
    ¬ (decodeType m w = .binaryArithmetic ∨ decodeType m w = .unaryArithmetic ∨ decodeType m w = .io)) ∧
  (∀ s : State, pseudoCycle s ≠ .error .decoderContract ∧ cycle s ≠ .fault .decoderContract)

/-- R100, R101: a table is populated exactly at the opcodes of its type, the two opcodes of an
operation hold the same function, no slot from 64 on is populated, and no cycle meets an empty slot.
That both opcodes are populated, and the stop at an empty slot, are the spec's D4 and D22 (log 24). -/
def Obligations.AluTablesFollowTypes : Prop :=
  (∀ (m : OpcodeMap) (w : Word),
    ((∃ f, binaryTable m (opcodeField w) = .ok f) ↔ decodeType m w = .binaryArithmetic) ∧
    ((∃ f, unaryTable m (opcodeField w) = .ok f) ↔ decodeType m w = .unaryArithmetic) ∧
    ((∃ p, compareTable m (opcodeField w) = .ok p) ↔ decodeType m w = .compare)) ∧
  (∀ p ∈ Op.pairs, binaryFunction p.1 = binaryFunction p.2 ∧ unaryFunction p.1 = unaryFunction p.2 ∧
    comparePredicate p.1 = comparePredicate p.2) ∧
  (∀ (m : OpcodeMap) (k : Fin Config.aluTableSlots), 64 ≤ k.val →
    tableSlot m binaryFunction k = none ∧ tableSlot m unaryFunction k = none ∧
      tableSlot m comparePredicate k = none) ∧
  (∀ s : State, pseudoCycle s ≠ .error .aluSlotEmpty ∧ cycle s ≠ .fault .aluSlotEmpty)

/-! ## The ALU's functions -/

/-- R102, R103: addition and subtraction wrap modulo 2^32 and record nothing: no stage of ADD, ADDI,
SUB or SUBI changes the flag. -/
def Obligations.AddSubWrap : Prop :=
  (∀ a b : Word, (aluAdd a b).toNat = (a.toNat + b.toNat) % 2 ^ 32 ∧ aluAdd a b = aluAdd b a ∧
    (aluAdd a b).toInt = (a.toInt + b.toInt).bmod (2 ^ 32)) ∧
  (∀ a b : Word, (aluSub a b).toInt = (a.toInt - b.toInt).bmod (2 ^ 32) ∧
    ((aluSub a b).toNat : Int) = ((a.toNat : Int) - b.toNat) % 2 ^ 32 ∧
    aluSub (aluAdd a b) b = a) ∧
  aluSub 0 1 = 0xFFFFFFFF ∧ aluSub 0x80000000 1 = 0x7FFFFFFF ∧
  (∀ (i : Instr) (s t : State), i.op = .add ∨ i.op = .addi ∨ i.op = .sub ∨ i.op = .subi →
    exec i s = .next t → t.flag = s.flag)

/-- R104, R105, R110, R111: the bitwise functions and move, bit by bit. -/
def Obligations.BitwiseFunctions : Prop :=
  (∀ (a b : Word) (j : Nat), j < 32 →
    (aluAnd a b).getLsbD j = (a.getLsbD j && b.getLsbD j) ∧
    (aluOr a b).getLsbD j = (a.getLsbD j || b.getLsbD j) ∧
    (aluNot a).getLsbD j = !a.getLsbD j) ∧
  (∀ a : Word, aluNot a = 0xFFFFFFFF - a ∧ aluNot (aluNot a) = a ∧ aluMove a = a) ∧
  aluNot 0 = 0xFFFFFFFF

/-- R106 to R109: the second operand of a shift selects 1 bit or 8 bits; left shift, arithmetic right
shift (rounding towards minus infinity) and logical right shift. -/
def Obligations.ShiftFunctions : Prop :=
  (∀ b : Word, shiftAmount b = if b = 0 then 1 else 8) ∧
  (∀ v : BitVec 16, shiftAmount (sext 16 v) = if v = 0 then 1 else 8) ∧
  (∀ a b : Word,
    (aluShl a b).toNat = (a.toNat * 2 ^ shiftAmount b) % 2 ^ 32 ∧
    (∀ j, j < shiftAmount b → (aluShl a b).getLsbD j = false) ∧
    aluShl a 0 = a <<< 1 ∧ aluShl a 1 = a <<< 8) ∧
  (∀ a b : Word,
    aluShra a b = (a >>> shiftAmount b) |||
      (if a.getLsbD 31 then 0xFFFFFFFF#32 <<< (32 - shiftAmount b) else 0) ∧
    (aluShra a b).toInt = a.toInt / 2 ^ shiftAmount b ∧
    (aluShra a b).getLsbD 31 = a.getLsbD 31) ∧
  (∀ b : Word, aluShra 0xFFFFFFFF b = 0xFFFFFFFF) ∧
  aluShra 0x80000000 0 = 0xC0000000 ∧ aluShra 0x80000000 1 = 0xFF800000 ∧
  (∀ a b : Word,
    (aluShrl a b).toNat = a.toNat / 2 ^ shiftAmount b ∧
    (∀ j, 32 - shiftAmount b ≤ j → j < 32 → (aluShrl a b).getLsbD j = false)) ∧
  aluShrl 0x80000000 0 = 0x40000000 ∧ aluShrl 0x80000000 1 = 0x00800000

/-- R118: the ALU laws the source lists as testable, and that no operation multiplies or divides. -/
def Obligations.AluLaws : Prop :=
  (∀ a b : Word, aluAdd a b = aluAdd b a ∧ aluSub (aluAdd a b) b = a ∧
    aluShl a 0 = a <<< 1 ∧ aluShl a 1 = a <<< 8 ∧
    (aluShra a b).msb = a.msb ∧ (aluShrl a b).toNat < 2 ^ (32 - shiftAmount b)) ∧
  (∀ (op : Op) (f : Word → Word → Word), binaryFunction op = some f →
    f = aluAdd ∨ f = aluSub ∨ f = aluAnd ∨ f = aluOr ∨ f = aluShl ∨ f = aluShra ∨ f = aluShrl) ∧
  (∀ (op : Op) (f : Word → Word), unaryFunction op = some f → f = aluNot ∨ f = aluMove)

/-- R112 to R116: the five predicates. -/
def Obligations.ComparePredicates : Prop :=
  (∀ a b : Word,
    (cmpEq a b = true ↔ ∀ j, j < 32 → a.getLsbD j = b.getLsbD j) ∧
    (cmpLtu a b = true ↔ a.toNat < b.toNat) ∧ (cmpLts a b = true ↔ a.toInt < b.toInt) ∧
    (cmpGtu a b = true ↔ a.toNat > b.toNat) ∧ (cmpGts a b = true ↔ a.toInt > b.toInt) ∧
    cmpGtu a b = cmpLtu b a ∧ cmpGts a b = cmpLts b a ∧
    cmpLtu a a = false ∧ cmpLtu a 0 = false ∧ (cmpGtu a 0 = true ↔ a ≠ 0)) ∧
  (∀ a : Word, a.toInt = if a.toNat < 2 ^ 31 then (a.toNat : Int) else (a.toNat : Int) - 2 ^ 32) ∧
  cmpLtu 0 0xFFFFFFFF = true ∧ cmpLts 0xFFFFFFFF 0 = true ∧
  cmpLts 0x7FFFFFFF 0x80000000 = false ∧ cmpGts 0 0xFFFFFFFF = true

/-! ## What each instruction does: it completes in every stage -/

/-- R121, R221, R32: in Fetch every instruction but HALT is taken from the code array and the program
counter is incremented (modulo 2^32 by the spec's D17, log 19); HALT is not taken and leaves the
program counter; an index outside the array stops (the spec's D9, log 10). -/
def Obligations.FetchCompletes : Prop :=
  (∀ (i : Instr) (s : State) (w : Word), i ≠ .halt → s.stage = .fetch →
    s.code[(s.reg 31).toNat]? = some w →
    exec i s = .next { s.setReg 31 (s.reg 31 + 1) with ifId := some ⟨s.reg 31 + 1, w⟩ }) ∧
  (∀ (s : State) (w : Word), s.stage = .fetch → s.code[(s.reg 31).toNat]? = some w →
    exec .halt s = .next { s with ifId := none }) ∧
  (∀ (i : Instr) (s : State), s.stage = .fetch → s.code.length ≤ (s.reg 31).toNat →
    exec i s = .fault .fetchOutOfRange)

/-- R150 to R164: the fourteen binary instructions, register and immediate forms; a shift's second
operand selects 1 or 8. The 0 of the unused io-operand in Decode is the spec's D15 (log 15). -/
def Obligations.BinaryCompletes : Prop :=
  ∀ (rd rs1 rs2 : RegIndex) (imm : Int),
    let x1 : State → Word := fun s => s.reg rs1
    let x2 : State → Word := fun s => s.reg rs2
    let lit : State → Word := fun _ => BitVec.ofInt 32 imm
    let amount : Word → Nat := fun b => if b = 0 then 1 else 8
    ArithmeticTemplate (.add rd rs1 rs2) (fun a b => a + b) rd x1 x2 ∧
    ArithmeticTemplate (.addi rd rs1 imm) (fun a b => a + b) rd x1 lit ∧
    ArithmeticTemplate (.sub rd rs1 rs2) (fun a b => a - b) rd x1 x2 ∧
    ArithmeticTemplate (.subi rd rs1 imm) (fun a b => a - b) rd x1 lit ∧
    ArithmeticTemplate (.and rd rs1 rs2) (fun a b => a &&& b) rd x1 x2 ∧
    ArithmeticTemplate (.andi rd rs1 imm) (fun a b => a &&& b) rd x1 lit ∧
    ArithmeticTemplate (.or rd rs1 rs2) (fun a b => a ||| b) rd x1 x2 ∧
    ArithmeticTemplate (.ori rd rs1 imm) (fun a b => a ||| b) rd x1 lit ∧
    ArithmeticTemplate (.shl rd rs1 rs2) (fun a b => a <<< amount b) rd x1 x2 ∧
    ArithmeticTemplate (.shli rd rs1 imm) (fun a b => a <<< amount b) rd x1 lit ∧
    ArithmeticTemplate (.shra rd rs1 rs2) (fun a b => a.sshiftRight (amount b)) rd x1 x2 ∧
    ArithmeticTemplate (.shrai rd rs1 imm) (fun a b => a.sshiftRight (amount b)) rd x1 lit ∧
    ArithmeticTemplate (.shrl rd rs1 rs2) (fun a b => a >>> amount b) rd x1 x2 ∧
    ArithmeticTemplate (.shrli rd rs1 imm) (fun a b => a >>> amount b) rd x1 lit

/-- R170 to R174: the four unary instructions. The 0 of the unused operand 2 and of the unused
io-operand is the spec's D15 (log 15). -/
def Obligations.UnaryCompletes : Prop :=
  ∀ (rd rs : RegIndex) (imm : Int),
    let x : State → Word := fun s => s.reg rs
    let lit : State → Word := fun _ => BitVec.ofInt 32 imm
    let zero : State → Word := fun _ => 0
    ArithmeticTemplate (.not rd rs) (fun a _ => ~~~a) rd x zero ∧
    ArithmeticTemplate (.noti rd imm) (fun a _ => ~~~a) rd lit zero ∧
    ArithmeticTemplate (.mov rd rs) (fun a _ => a) rd x zero ∧
    ArithmeticTemplate (.movi rd imm) (fun a _ => a) rd lit zero

/-- R180 to R190: the ten compare instructions. The 0 carried as result and as io-operand is the
spec's D15 (log 15). -/
def Obligations.CompareCompletes : Prop :=
  ∀ (rs1 rs2 : RegIndex) (imm : Int),
    let x1 : State → Word := fun s => s.reg rs1
    let x2 : State → Word := fun s => s.reg rs2
    let lit : State → Word := fun _ => BitVec.ofInt 32 imm
    CompareTemplate (.ceq rs1 rs2) (fun a b => decide (a = b)) x1 x2 ∧
    CompareTemplate (.ceqi rs1 imm) (fun a b => decide (a = b)) x1 lit ∧
    CompareTemplate (.cltu rs1 rs2) (fun a b => decide (a.toNat < b.toNat)) x1 x2 ∧
    CompareTemplate (.cltui rs1 imm) (fun a b => decide (a.toNat < b.toNat)) x1 lit ∧
    CompareTemplate (.clts rs1 rs2) (fun a b => decide (a.toInt < b.toInt)) x1 x2 ∧
    CompareTemplate (.cltsi rs1 imm) (fun a b => decide (a.toInt < b.toInt)) x1 lit ∧
    CompareTemplate (.cgtu rs1 rs2) (fun a b => decide (a.toNat > b.toNat)) x1 x2 ∧
    CompareTemplate (.cgtui rs1 imm) (fun a b => decide (a.toNat > b.toNat)) x1 lit ∧
    CompareTemplate (.cgts rs1 rs2) (fun a b => decide (a.toInt > b.toInt)) x1 x2 ∧
    CompareTemplate (.cgtsi rs1 imm) (fun a b => decide (a.toInt > b.toInt)) x1 lit

/-- R195 to R199: jumps and branches. That a register target is absolute and an offset is relative to
the carried `next_pc` is the spec's D5 (log 6), the 0 of the unused io-operand in Decode D15 (log 15),
and that the sum of the addends wraps modulo 2^32 D17 (log 19). -/
def Obligations.TransferCompletes : Prop :=
  ∀ (rs : RegIndex) (off : Int),
    TransferTemplate (.jump rs) (fun _ => true) (fun _ => true) (fun s _ => s.reg rs) (fun _ _ => 0) ∧
    TransferTemplate (.jumpi off) (fun _ => true) (fun _ => true)
      (fun _ r => r.nextPc) (fun _ _ => BitVec.ofInt 32 off) ∧
    TransferTemplate (.branch rs) (fun flag => flag) ExMem.branchTaken
      (fun s _ => s.reg rs) (fun _ _ => 0) ∧
    TransferTemplate (.branchi off) (fun flag => flag) ExMem.branchTaken
      (fun _ r => r.nextPc) (fun _ _ => BitVec.ofInt 32 off)

/-- R210, R211: LOAD. The exact bound of the range check and any alignment being legal are the spec's
D7 (log 8), the byte order D6 (log 7); that the three bytes above the address do not wrap at 2^32, which
matters in a data memory above 2^32 bytes only, is the model's choice (log 34). -/
def Obligations.LoadCompletes : Prop :=
  ∀ (rd rb : RegIndex) (off : Int) (s : State),
    (∀ r, s.stage = .decode → s.ifId = some r →
      exec (.load rd rb off) s = .next { s with
        idEx := some ⟨r.nextPc, r.instr, s.reg rb, BitVec.ofInt 32 off, rd.setWidth 32⟩ }) ∧
    (∀ r, s.stage = .execute → s.idEx = some r → 4 ≤ s.dataSize →
      (r.operand1 + r.operand2).toNat ≤ s.dataSize - 4 →
      exec (.load rd rb off) s = .next { s with
        exMem := some ⟨r.nextPc, r.instr, false, r.operand1 + r.operand2, r.ioOperand⟩ }) ∧
    (∀ r, s.stage = .memoryAccess → s.exMem = some r → 4 ≤ s.dataSize →
      r.result.toNat ≤ s.dataSize - 4 →
      exec (.load rd rb off) s = .next { s with
        memWb := some ⟨r.nextPc, r.instr,
          s.data.readByte (r.result.toNat + 3) ++ s.data.readByte (r.result.toNat + 2) ++
            s.data.readByte (r.result.toNat + 1) ++ s.data.readByte r.result.toNat,
          r.ioOperand⟩ }) ∧
    (∀ r, s.stage = .writeBack → s.memWb = some r → r.ioOperand = rd.setWidth 32 →
      exec (.load rd rb off) s = .next (s.setReg rd r.result))

/-- R210, R212: STORE writes the four bytes, low byte first (the spec's D6, log 7), and then logs the
address. The exact bound of the range check and any alignment being legal are the spec's D7 (log 8); that
the bytes above the address do not wrap at 2^32, in a data memory above 2^32 bytes, is the model's choice
(log 34). -/
def Obligations.StoreCompletes : Prop :=
  ∀ (rv rb : RegIndex) (off : Int) (s : State),
    (∀ r, s.stage = .decode → s.ifId = some r →
      exec (.store rv rb off) s = .next { s with
        idEx := some ⟨r.nextPc, r.instr, s.reg rb, BitVec.ofInt 32 off, s.reg rv⟩ }) ∧
    (∀ r, s.stage = .execute → s.idEx = some r → 4 ≤ s.dataSize →
      (r.operand1 + r.operand2).toNat ≤ s.dataSize - 4 →
      exec (.store rv rb off) s = .next { s with
        exMem := some ⟨r.nextPc, r.instr, false, r.operand1 + r.operand2, r.ioOperand⟩ }) ∧
    (∀ r, s.stage = .memoryAccess → s.exMem = some r → 4 ≤ s.dataSize →
      r.result.toNat ≤ s.dataSize - 4 →
      exec (.store rv rb off) s = .next { s with
        data := (((s.data.writeByte r.result.toNat (r.ioOperand.extractLsb' 0 8)).writeByte
          (r.result.toNat + 1) (r.ioOperand.extractLsb' 8 8)).writeByte
          (r.result.toNat + 2) (r.ioOperand.extractLsb' 16 8)).writeByte
          (r.result.toNat + 3) (r.ioOperand.extractLsb' 24 8)
        log := s.log ++ [r.result]
        memWb := some ⟨r.nextPc, r.instr, r.result, r.ioOperand⟩ }) ∧
    (s.stage = .writeBack → exec (.store rv rb off) s = .next s)

/-- R220, R134, R123: NOP changes nothing after its fetch; neither does HALT, which no later stage
meets (log 18). Their zero operands and their result 0 are the spec's D15 (log 15). -/
def Obligations.MiscCompletes : Prop := MiscTemplate .nop ∧ MiscTemplate .halt

/-- R120: in Decode, Execute and Memory-Access every instruction's meaning, like the stage itself,
maps an absent input to an absent output; Write-Back of an absent input does nothing. -/
def Obligations.AbsentInputHasNoEffect : Prop :=
  (∀ (i : Instr) (s : State),
    (s.stage = .decode → s.ifId = none → exec i s = .next { s with idEx := none }) ∧
    (s.stage = .execute → s.idEx = none → exec i s = .next { s with exMem := none }) ∧
    (s.stage = .memoryAccess → s.exMem = none → exec i s = .next { s with memWb := none }) ∧
    (s.stage = .writeBack → s.memWb = none → exec i s = .next s)) ∧
  (∀ s : State,
    (s.ifId = none → runStage .decode s = .next { s with idEx := none, stage := .decode }) ∧
    (s.idEx = none → runStage .execute s = .next { s with exMem := none, stage := .execute }) ∧
    (s.exMem = none →
      runStage .memoryAccess s = .next { s with memWb := none, stage := .memoryAccess }) ∧
    (s.memWb = none → runStage .writeBack s = .next { s with stage := .writeBack }))

/-- R233, R235: in Execute an IO instruction with an illegal address and an UNKNOWN word stop, whatever
else the state holds. (Where an UNKNOWN word stops is the spec's D13, log 14; the bound is D7, log 8.) -/
def Obligations.ExecuteStops : Prop :=
  (∀ (i : Instr) (s : State) (r : IdEx), i.op = .load ∨ i.op = .store → s.stage = .execute →
    s.idEx = some r → ¬ (4 ≤ s.dataSize ∧ (r.operand1 + r.operand2).toNat ≤ s.dataSize - 4) →
    exec i s = .fault .dataAddressOutOfRange) ∧
  (∀ (s : State) (r : IdEx), s.idEx = some r → decodeType s.opcodes r.instr = .unknown →
    runStage .execute s = .fault .unknownInstruction) ∧
  (∀ (s : State) (r : IfId), s.ifId = some r → decodeType s.opcodes r.instr = .unknown →
    runStage .decode s =
      .next { s with idEx := some ⟨r.nextPc, r.instr, 0, 0, 0⟩, stage := .decode })

/-- R274: alone in the pipeline each binary and unary instruction has its one-line effect. A source
that is register 31 reads the incremented program counter; a destination that is register 31 replaces
it. -/
def Obligations.ArithmeticEffect : Prop :=
  ∀ (rd r1 r2 : RegIndex) (imm : Int),
    let lit : Word := BitVec.ofInt 32 imm
    let amount : Word → Nat := fun b => if b = 0 then 1 else 8
    HasEffect (.add rd r1 r2) (fun s => s.setReg rd (s.reg r1 + s.reg r2)) ∧
    HasEffect (.addi rd r1 imm) (fun s => s.setReg rd (s.reg r1 + lit)) ∧
    HasEffect (.sub rd r1 r2) (fun s => s.setReg rd (s.reg r1 - s.reg r2)) ∧
    HasEffect (.subi rd r1 imm) (fun s => s.setReg rd (s.reg r1 - lit)) ∧
    HasEffect (.and rd r1 r2) (fun s => s.setReg rd (s.reg r1 &&& s.reg r2)) ∧
    HasEffect (.andi rd r1 imm) (fun s => s.setReg rd (s.reg r1 &&& lit)) ∧
    HasEffect (.or rd r1 r2) (fun s => s.setReg rd (s.reg r1 ||| s.reg r2)) ∧
    HasEffect (.ori rd r1 imm) (fun s => s.setReg rd (s.reg r1 ||| lit)) ∧
    HasEffect (.shl rd r1 r2) (fun s => s.setReg rd (s.reg r1 <<< amount (s.reg r2))) ∧
    HasEffect (.shli rd r1 imm) (fun s => s.setReg rd (s.reg r1 <<< amount lit)) ∧
    HasEffect (.shra rd r1 r2) (fun s => s.setReg rd ((s.reg r1).sshiftRight (amount (s.reg r2)))) ∧
    HasEffect (.shrai rd r1 imm) (fun s => s.setReg rd ((s.reg r1).sshiftRight (amount lit))) ∧
    HasEffect (.shrl rd r1 r2) (fun s => s.setReg rd (s.reg r1 >>> amount (s.reg r2))) ∧
    HasEffect (.shrli rd r1 imm) (fun s => s.setReg rd (s.reg r1 >>> amount lit)) ∧
    HasEffect (.not rd r1) (fun s => s.setReg rd (~~~(s.reg r1))) ∧
    HasEffect (.noti rd imm) (fun s => s.setReg rd (~~~lit)) ∧
    HasEffect (.mov rd r1) (fun s => s.setReg rd (s.reg r1)) ∧
    HasEffect (.movi rd imm) (fun s => s.setReg rd lit)

/-- R274: alone in the pipeline a compare changes the flag only, a jump goes to its target, a branch
goes there if the flag is set, NOP does nothing and HALT does not move the program counter. The base
of an offset is the spec's D5 (log 6). -/
def Obligations.ControlEffect : Prop :=
  ∀ (r1 r2 : RegIndex) (imm : Int),
    let lit : Word := BitVec.ofInt 32 imm
    HasEffect (.ceq r1 r2) (fun s => { s with flag := decide (s.reg r1 = s.reg r2) }) ∧
    HasEffect (.ceqi r1 imm) (fun s => { s with flag := decide (s.reg r1 = lit) }) ∧
    HasEffect (.cltu r1 r2) (fun s => { s with flag := decide ((s.reg r1).toNat < (s.reg r2).toNat) }) ∧
    HasEffect (.cltui r1 imm) (fun s => { s with flag := decide ((s.reg r1).toNat < lit.toNat) }) ∧
    HasEffect (.clts r1 r2) (fun s => { s with flag := decide ((s.reg r1).toInt < (s.reg r2).toInt) }) ∧
    HasEffect (.cltsi r1 imm) (fun s => { s with flag := decide ((s.reg r1).toInt < lit.toInt) }) ∧
    HasEffect (.cgtu r1 r2) (fun s => { s with flag := decide ((s.reg r1).toNat > (s.reg r2).toNat) }) ∧
    HasEffect (.cgtui r1 imm) (fun s => { s with flag := decide ((s.reg r1).toNat > lit.toNat) }) ∧
    HasEffect (.cgts r1 r2) (fun s => { s with flag := decide ((s.reg r1).toInt > (s.reg r2).toInt) }) ∧
    HasEffect (.cgtsi r1 imm) (fun s => { s with flag := decide ((s.reg r1).toInt > lit.toInt) }) ∧
    HasEffect (.jump r1) (fun s => s.setReg 31 (s.reg r1)) ∧
    HasEffect (.jumpi imm) (fun s => s.setReg 31 (s.reg 31 + lit)) ∧
    HasEffect (.branch r1) (fun s => if s.flag then s.setReg 31 (s.reg r1) else s) ∧
    HasEffect (.branchi imm) (fun s => if s.flag then s.setReg 31 (s.reg 31 + lit) else s) ∧
    HasEffect .nop (fun s => s) ∧
    (∀ s w, s.code[(s.reg 31).toNat]? = some w → passage .halt s = .next s.settled)

/-- R274, R210 to R212: alone in the pipeline LOAD reads and STORE writes the word at base plus offset
if that address is legal, and stops otherwise (the bound and the alignment are the spec's D7, log 8; the
word's bytes do not wrap at 2^32, log 34). -/
def Obligations.LoadStoreEffect : Prop :=
  ∀ (r rb : RegIndex) (off : Int) (s : State) (w : Word), s.code[(s.reg 31).toNat]? = some w →
    let ea : Word := s.advanced.reg rb + BitVec.ofInt 32 off
    (4 ≤ s.dataSize ∧ ea.toNat ≤ s.dataSize - 4 →
      passage (.load r rb off) s =
        .next (s.advanced.setReg r (s.data.readWord ea.toNat)).settled ∧
      passage (.store r rb off) s =
        .next { s.advanced with
          data := s.data.writeWord ea.toNat (s.advanced.reg r)
          log := s.log ++ [ea] }.settled) ∧
    (¬ (4 ≤ s.dataSize ∧ ea.toNat ≤ s.dataSize - 4) →
      passage (.load r rb off) s = .fault .dataAddressOutOfRange ∧
      passage (.store r rb off) s = .fault .dataAddressOutOfRange)

/-! ## What each instruction leaves unchanged -/

/-- The fourteen binary and four unary instructions change the program counter in Fetch, their
destination in Write-Back, and otherwise only their stage's output. -/
def Obligations.ArithmeticFrame : Prop :=
  ∀ (i : Instr), i.op.type = .binaryArithmetic ∨ i.op.type = .unaryArithmetic →
    ∀ s t, exec i s = .next t →
      Frame s t
        (fun q => (s.stage = .fetch ∧ q = 31) ∨ (s.stage = .writeBack ∧ instrDestination i = some q))
        False (fun _ => False) False

/-- The ten compares change the flag in Execute; they and NOP and HALT change no register but the
program counter in Fetch, and HALT not even that. -/
def Obligations.CompareMiscFrame : Prop :=
  ∀ (i : Instr), i.op.type = .compare ∨ i.op.type = .misc →
    ∀ s t, exec i s = .next t →
      Frame s t (fun q => s.stage = .fetch ∧ q = 31 ∧ i ≠ .halt)
        (s.stage = .execute ∧ i.op.type = .compare) (fun _ => False) False

/-- R201: jumps and branches change no register but the program counter, and that in Fetch and in
Memory-Access only. -/
def Obligations.TransferFrame : Prop :=
  ∀ (i : Instr), i.op.type = .jump ∨ i.op.type = .branch →
    ∀ s t, exec i s = .next t →
      Frame s t (fun q => (s.stage = .fetch ∨ s.stage = .memoryAccess) ∧ q = 31)
        False (fun _ => False) False

/-- LOAD changes its destination in Write-Back, the program counter in Fetch, and no byte of memory.
Write-Back finds the destination in the record it consumes; the other stages read none of it. -/
def Obligations.LoadFrame : Prop :=
  ∀ (rd rb : RegIndex) (off : Int) (s t : State),
    (s.stage = .writeBack → ∀ r, s.memWb = some r → r.ioOperand = rd.setWidth 32) →
    exec (.load rd rb off) s = .next t →
      Frame s t (fun q => (s.stage = .fetch ∧ q = 31) ∨ (s.stage = .writeBack ∧ q = rd))
        False (fun _ => False) False

/-- STORE changes no register but the program counter in Fetch, and in Memory-Access no byte outside
the four at the address it carries, which it logs; as a whole, no byte outside the four at base plus
offset. The four are counted up from the address without wrapping at 2^32, which is the model's choice for a
data memory above 2^32 bytes (log 34). -/
def Obligations.StoreFrame : Prop :=
  ∀ (rv rb : RegIndex) (off : Int) (s t : State), Memory.wf s.data = true →
    (exec (.store rv rb off) s = .next t →
      Frame s t (fun q => s.stage = .fetch ∧ q = 31) False
        (fun a => s.stage = .memoryAccess ∧
          ∃ r, s.exMem = some r ∧ r.result.toNat ≤ a ∧ a < r.result.toNat + 4)
        (s.stage = .memoryAccess ∧ s.exMem ≠ none)) ∧
    (passage (.store rv rb off) s = .next t →
      ∀ a, ¬ ((s.advanced.reg rb + BitVec.ofInt 32 off).toNat ≤ a ∧
          a < (s.advanced.reg rb + BitVec.ofInt 32 off).toNat + 4) →
        t.data.readByte a = s.data.readByte a)

/-! ## Registers, memory, reset -/

/-- R10 to R13: 32 ordinary slots, none of them hard-wired, the program counter being slot 31. -/
def Obligations.RegisterFileHoldsWrites : Prop :=
  (∀ (s : State) (r q : RegIndex) (v : Word), (s.setReg r v).reg q = if q = r then v else s.reg q) ∧
  (∀ (s : State) (v : Word), s.pc = s.reg 31 ∧ s.setPc v = s.setReg 31 v) ∧
  (∀ s t : State, (∀ q, s.reg q = t.reg q) → s.regs = t.regs)

/-- R33 to R36: a word access moves four bytes, the lowest address holding bits [7:0] (the spec's D6,
log 7), at any address, aligned or not (D7, log 8), the bytes a to a + 3 not wrapping at 2^32 (the model's
choice, log 34); every write keeps the canonical form, under which equal memories are equal data. -/
def Obligations.MemoryLaws : Prop :=
  (∀ (m : Memory) (a k : Nat) (v : Word), m.wf = true →
    (m.writeWord a v).wf = true ∧ (m.writeWord a v).readWord a = v ∧
    (m.writeWord a v).readByte k =
      if a ≤ k ∧ k < a + 4 then v.extractLsb' (8 * (k - a)) 8 else m.readByte k) ∧
  (∀ (m : Memory) (a j : Nat), j < 4 →
    (m.readWord a).extractLsb' (8 * j) 8 = m.readByte (a + j)) ∧
  (∀ (m : Memory) (a k : Nat) (b : Byte), m.wf = true →
    (m.writeByte a b).wf = true ∧
    (m.writeByte a b).readByte k = if k = a then b else m.readByte k) ∧
  (∀ m n : Memory, m.wf = true → n.wf = true → (∀ a, m.readByte a = n.readByte a) → m = n)

/-- R26, R260: the state after reset. The registers' and the flag's values are the spec's D10 (log 4),
the size of data memory D8 (log 9), the opcode map D1 (log 5). -/
def Obligations.ResetState : Prop :=
  (∀ q, State.reset.reg q = 0) ∧ State.reset.flag = false ∧
  (∀ a, State.reset.data.readByte a = 0) ∧
  State.reset.ifId = none ∧ State.reset.idEx = none ∧ State.reset.exMem = none ∧
  State.reset.memWb = none ∧ State.reset.log = [] ∧ State.reset.done = false ∧
  State.reset.fatal = none ∧ State.reset.dataSize = 1048576 ∧
  State.reset.opcodes = referenceMap

/-- The invariant holds after reset, with any admissible opcode map, any program loaded and any size
of data memory (R25, R63, R261). -/
def Obligations.ResetHasInv : Prop :=
  State.reset.Inv ∧
  ∀ (m : OpcodeMap) (code : List Word) (n : Nat), m.admissible = true → (State.boot m code n).Inv

/-! ## The step -/

/-- A step runs the five stages in reverse pipeline order (R127) and then sets `done`; a stage whose
input carries a word runs the instruction it decodes to under the state's opcode map, and with an empty
pipeline a step is Fetch of the instruction at the program counter. A word with an unmapped opcode is run
as UNKNOWN (R64), a word of type IO that is neither LOAD nor STORE as a bad IO opcode (R65). That the
meaning of an instruction is `exec` under the stage cursor is the model's choice (log 1); that a stop
ends the cycle at once is R133 with the spec's D14 (log 11), and the moment of the test of `done` its D11
(log 13). -/
def Obligations.StepRunsDecodedInstruction : Prop :=
  (∀ (s : State) (st : Stage) (w : Word) (i : Instr), s.stageInput st = .ok (some w) →
    decodeWith s.opcodes w = .ok i → runStage st s = exec i { s with stage := st }) ∧
  (∀ (s : State) (st : Stage) (w : Word) (c : Opcode), s.stageInput st = .ok (some w) →
    (decodeWith s.opcodes w = .error (.unknown c) → runStage st s = unknownWord { s with stage := st }) ∧
    (decodeWith s.opcodes w = .error (.badIo c) → runStage st s = badIoWord { s with stage := st })) ∧
  (∀ s : State,
    (∀ r, s.ifId = some r → s.stageInput .decode = .ok (some r.instr)) ∧
    (∀ r, s.idEx = some r → s.stageInput .execute = .ok (some r.instr)) ∧
    (∀ r, s.exMem = some r → s.stageInput .memoryAccess = .ok (some r.instr)) ∧
    (∀ r, s.memWb = some r → s.stageInput .writeBack = .ok (some r.instr)) ∧
    (∀ w, s.code[(s.reg 31).toNat]? = some w → s.stageInput .fetch = .ok (some w))) ∧
  (∀ s : State, s.running → step s =
    andThen (runStage .writeBack s) fun s =>
    andThen (runStage .memoryAccess s) fun s =>
    andThen (runStage .execute s) fun s =>
    andThen (runStage .decode s) fun s =>
    andThen (runStage .fetch s) fun s =>
    .next { s with
      done := s.ifId.isNone && s.idEx.isNone && s.exMem.isNone && s.memWb.isNone }) ∧
  (∀ (s : State) (w : Word) (i : Instr), s.running → s.drained = true →
    s.code[(s.reg 31).toNat]? = some w → decodeWith s.opcodes w = .ok i →
    step s = andThen (exec i { s with stage := .fetch }) fun t => .next t.markDone)

/-- The step through the 36 meanings is the step through the stage functions as the spec prints them
(R121 to R127), in every state whose opcode map meets R63, and also where the map breaks item 4 with further
opcodes of type IO (R234). Where the spec prints no step, both
follow the model's choices: a state with `fatal` set keeps its stop (log 11), one with `done` set stays
as it is (log 12), records no run carries hold an illegal address or an io-operand above 31 (logs 16 and
17), and the cursor stands at Fetch after a cycle (log 1). -/
def Obligations.StepIsTheSpecsPseudocode : Prop :=
  (∀ m : OpcodeMap, m.admissible = true → m.admissibleButIo = true) ∧
  ∀ s : State, s.opcodes.admissibleButIo = true → step s = pseudoStep s

/-- Every step keeps the invariant, from every state that has it. -/
def Obligations.EveryStepKeepsInv : Prop := ∀ s t : State, s.Inv → step s = .next t → t.Inv

/-- The word placed for the next fetch (log 27) is what the next step fetches, in every state; registers,
flag, memory, log and opcode map are as they were, and the invariant is kept. -/
def Obligations.PlacedWordIsFetched : Prop :=
  ∀ (s : State) (nbits w : Nat),
    let word : Word := BitVec.ofNat 32 (w % 2 ^ nbits)
    let p := s.withFetchWord nbits w
    p.running ∧ p.regs = s.regs ∧ p.flag = s.flag ∧ p.data = s.data ∧ p.log = s.log ∧
    p.opcodes = s.opcodes ∧
    (s.Inv → p.Inv) ∧
    (∃ t, runStages olderStages p = .next t ∧ t.stageInput .fetch = .ok (some word)) ∧
    ∃ u, step p = .next u ∧ u.ifId = if isHalt s.opcodes word then none else some ⟨u.reg 31, word⟩

/-! ## Whole-machine rules -/

/-- R126: Write-Back writes the result of a binary or unary instruction to the destination field's
register, the result of a LOAD to the register its io-operand names, and nothing for any other type
or an absent input. Register 31 may be the destination: the program counter is then replaced. In a
state no run reaches a LOAD's io-operand may exceed 31; that its low five bits then name the register is
the model's choice (log 17). -/
def Obligations.WriteBackStage : Prop :=
  (∀ s : State, s.memWb = none → runStage .writeBack s = .next { s with stage := .writeBack }) ∧
  (∀ (s : State) (r : MemWb), s.memWb = some r →
    runStage .writeBack s =
      if decodeType s.opcodes r.instr = .binaryArithmetic ∨
          decodeType s.opcodes r.instr = .unaryArithmetic then
        .next { s.setReg (r.instr.extractLsb' 6 5) r.result with stage := .writeBack }
      else if isLoad s.opcodes r.instr then
        .next { s.setReg (ioRegister r.ioOperand) r.result with stage := .writeBack }
      else .next { s with stage := .writeBack }) ∧
  (∀ (s : State) (r : MemWb), s.Inv → s.memWb = some r → isLoad s.opcodes r.instr = true →
    ioRegister r.ioOperand = r.instr.extractLsb' 6 5 ∧
    r.ioOperand = (r.instr.extractLsb' 6 5).setWidth 32) ∧
  (∀ (s : State) (v : Word), (s.setReg 31 v).pc = v)

/-- R125: Memory-Access reads for a LOAD, writes and logs for a STORE, redirects the program counter
and the carried `next_pc` for a JUMP and for a BRANCH that is taken, and passes every other type
unchanged; its address has passed the check; the carried `next_pc` is read by nothing after it. -/
def Obligations.MemoryAccessStage : Prop :=
  (∀ s : State, s.exMem = none →
    runStage .memoryAccess s = .next { s with memWb := none, stage := .memoryAccess }) ∧
  (∀ (s : State) (r : ExMem), s.Inv → s.exMem = some r →
    (isIo s.opcodes r.instr = true → legalAddress s.dataSize r.result = true) ∧
    runStage .memoryAccess s = .next (
      if isLoad s.opcodes r.instr then { s with
        memWb := some ⟨r.nextPc, r.instr, s.data.readWord r.result.toNat, r.ioOperand⟩
        stage := .memoryAccess }
      else if isStore s.opcodes r.instr then { s with
        data := s.data.writeWord r.result.toNat r.ioOperand
        log := s.log ++ [r.result]
        memWb := some ⟨r.nextPc, r.instr, r.result, r.ioOperand⟩
        stage := .memoryAccess }
      else if decodeType s.opcodes r.instr = .jump ∨
          (decodeType s.opcodes r.instr = .branch ∧ r.branchTaken = true) then
        { s.setReg 31 r.result with
          memWb := some ⟨r.result, r.instr, r.result, r.ioOperand⟩
          stage := .memoryAccess }
      else { s with
        memWb := some ⟨r.nextPc, r.instr, r.result, r.ioOperand⟩
        stage := .memoryAccess })) ∧
  (∀ (s : State) (r : MemWb) (n : Word), s.memWb = some r →
    ∀ t, runStage .writeBack s = .next t →
      runStage .writeBack { s with memWb := some { r with nextPc := n } } =
        .next { t with memWb := some { r with nextPc := n } })

/-- R132: in every cycle that goes on each record moves to the next stage, changed only as that stage
changes it; no stage holds a record and none is skipped. Decode reads each register as it stands after
the cycle's Write-Back and Memory-Access (R122). -/
def Obligations.PipelineAdvances : Prop :=
  ∀ s t : State, s.running → step s = .next t →
    t.memWb.map MemWb.instr = s.exMem.map ExMem.instr ∧
    t.exMem.map ExMem.instr = s.idEx.map IdEx.instr ∧
    t.idEx.map IdEx.instr = s.ifId.map IfId.instr ∧
    t.memWb = s.exMem.map (ExMem.accessed · s.opcodes s.data) ∧
    t.exMem = s.idEx.map (IdEx.executed · s.opcodes s.flag) ∧
    (∀ u : State, (∀ q, u.reg q = s.decodeReg q) → u.opcodes = s.opcodes →
      t.idEx = s.ifId.map (IfId.decoded · u))

/-- R15, R16, R121: the index fetched is the target of a transfer in Memory-Access, else the value a
Write-Back to register 31 writes, else the program counter; HALT leaves it there and any other word
advances it by 1 (modulo 2^32 by the spec's D17, log 19). -/
def Obligations.FetchRule : Prop :=
  ∀ s t : State, s.running → step s = .next t →
    ∃ a w : Word,
      (∀ e, s.exMem.bind (ExMem.redirect · s.opcodes) = some e → a = e) ∧
      (s.exMem.bind (ExMem.redirect · s.opcodes) = none →
        (∀ m, s.memWb = some m → m.target s.opcodes = some 31 → a = m.result) ∧
        ((∀ m, s.memWb = some m → m.target s.opcodes ≠ some 31) → a = s.reg 31)) ∧
      s.code[a.toNat]? = some w ∧
      (isHalt s.opcodes w = true → t.ifId = none ∧ t.reg 31 = a) ∧
      (isHalt s.opcodes w = false → t.ifId = some ⟨a + 1, w⟩ ∧ t.reg 31 = a + 1)

/-- R13, R126: a step changes no register but the program counter and the one Write-Back writes. -/
def Obligations.RegisterRule : Prop :=
  ∀ s t : State, s.running → step s = .next t → ∀ q : RegIndex, q ≠ 31 →
    (∀ m, s.memWb = some m → m.target s.opcodes = some q → t.reg q = m.result) ∧
    ((∀ m, s.memWb = some m → m.target s.opcodes ≠ some q) → t.reg q = s.reg q)

/-- R17, R191: the flag changes only when a COMPARE executes, and becomes its predicate; a BRANCH in
Execute is taken exactly when the flag is set; a BRANCH in Execute one cycle after a COMPARE sees its
result (R267). -/
def Obligations.FlagRule : Prop :=
  (∀ s t : State, s.running → step s = .next t →
    (∀ r p, s.idEx = some r → (opOfWord s.opcodes r.instr).bind comparePredicate = some p →
      t.flag = p r.operand1 r.operand2) ∧
    ((∀ r, s.idEx = some r → decodeType s.opcodes r.instr ≠ .compare) → t.flag = s.flag) ∧
    (∀ r, s.idEx = some r → decodeType s.opcodes r.instr = .branch →
      ∃ e, t.exMem = some e ∧ e.instr = r.instr ∧ e.branchTaken = s.flag ∧
        e.result = r.operand1 + r.operand2)) ∧
  (∀ s t u : State, s.running → step s = .next t → step t = .next u →
    ∀ c b p, s.idEx = some c → (opOfWord s.opcodes c.instr).bind comparePredicate = some p →
      s.ifId = some b → decodeType s.opcodes b.instr = .branch →
      ∃ e, u.exMem = some e ∧ e.instr = b.instr ∧ e.branchTaken = p c.operand1 c.operand2)

/-- R17: nothing but a BRANCH in Execute reads the flag: with any other instruction there, a step from
a state with another flag differs in the flag only, and not even in that when it was a COMPARE. -/
def Obligations.OnlyBranchReadsTheFlag : Prop :=
  ∀ (s t : State) (b : Bool), s.running → step s = .next t →
    (∀ r, s.idEx = some r → decodeType s.opcodes r.instr ≠ .branch) →
    ∃ c, step { s with flag := b } = .next { t with flag := c } ∧
      ((∃ r, s.idEx = some r ∧ decodeType s.opcodes r.instr = .compare) → c = t.flag) ∧
      ((∀ r, s.idEx = some r → decodeType s.opcodes r.instr ≠ .compare) → c = b)

/-- R22, R34, R41, R43: the only bytes a step changes are the four a STORE in Memory-Access writes,
and it logs their address once; the code array, the size of data memory and the opcode map never
change (R25). That the lowest of the four addresses takes bits [7:0] of the value is R35 with the spec's
D6 (log 7); that the four do not wrap at 2^32, in a data memory above 2^32 bytes, is the model's choice
(log 34). -/
def Obligations.MemoryAndLogRule : Prop :=
  ∀ s t : State, s.running → Memory.wf s.data = true → step s = .next t →
    t.code = s.code ∧ t.dataSize = s.dataSize ∧ t.opcodes = s.opcodes ∧
    (∀ r, s.exMem = some r → isStore s.opcodes r.instr = true →
      t.log = s.log ++ [r.result] ∧
      ∀ a, t.data.readByte a =
        if r.result.toNat ≤ a ∧ a < r.result.toNat + 4 then
          r.ioOperand.extractLsb' (8 * (a - r.result.toNat)) 8
        else s.data.readByte a) ∧
    ((∀ r, s.exMem = some r → isStore s.opcodes r.instr = false) → t.log = s.log ∧ t.data = s.data)

/-- R41, R270: a LOAD one cycle behind a STORE to the same address sees the stored value. -/
def Obligations.LoadAfterStoreSeesIt : Prop :=
  ∀ s t u : State, s.running → Memory.wf s.data = true → step s = .next t → step t = .next u →
    ∀ (st : ExMem) (l : IdEx), s.exMem = some st → isStore s.opcodes st.instr = true →
      s.idEx = some l → isLoad s.opcodes l.instr = true → l.operand1 + l.operand2 = st.result →
      ∃ m, u.memWb = some m ∧ m.instr = l.instr ∧ m.result = st.ioOperand

/-- R230 to R239: from a state of the invariant a step stops for one of three causes, each exactly in
its condition and in the order of the stages, and nothing is ever refused. (FetchOutOfRange is the
spec's D9, log 10; the bound of the address check D7, log 8; the stage of UnknownInstruction D13,
log 14.) -/
def Obligations.StopsExactly : Prop :=
  (∀ s : State, s.Inv → s.done = false →
    (step s = .fault .unknownInstruction ↔
      ∃ r, s.idEx = some r ∧ decodeType s.opcodes r.instr = .unknown) ∧
    (step s = .fault .dataAddressOutOfRange ↔
      ∃ r, s.idEx = some r ∧ decodeType s.opcodes r.instr = .io ∧
        ¬ (4 ≤ s.dataSize ∧ (r.operand1 + r.operand2).toNat ≤ s.dataSize - 4)) ∧
    (step s = .fault .fetchOutOfRange ↔
      (∀ r, s.idEx = some r → r.stop s.opcodes s.dataSize = none) ∧
        s.code.length ≤ s.redirectedPc.toNat) ∧
    (∀ c, step s = .fault c →
      c = .unknownInstruction ∨ c = .dataAddressOutOfRange ∨ c = .fetchOutOfRange) ∧
    ((∃ t, step s = .next t) ↔
      (∀ r, s.idEx = some r → r.stop s.opcodes s.dataSize = none) ∧
        s.redirectedPc.toNat < s.code.length)) ∧
  (∀ (s : State) (q : Refusal), step s ≠ .refused q)

/-- R133, R230, R240: what a fatal stop leaves (the spec's D14, log 11). A stop in Execute leaves
Write-Back and Memory-Access done and nothing else; a stop in Fetch leaves all but Fetch done. The
cause is recorded, no further cycle runs, and nothing but these effects is changed. -/
def Obligations.FaultedState : Prop :=
  ∀ (s : State) (c : Fault), s.Inv → s.done = false → step s = .fault c →
    ∃ u, stopState s = some u ∧ u.fatal = some c ∧ step u = .fault c ∧
      (∀ q, u.reg q = s.decodeReg q) ∧
      u.data = s.wroteBack.accessed.data ∧ u.log = s.wroteBack.accessed.log ∧
      u.memWb = s.exMem.map (ExMem.accessed · s.opcodes s.data) ∧ u.ifId = s.ifId ∧
      u.done = false ∧ u.code = s.code ∧ u.dataSize = s.dataSize ∧ u.opcodes = s.opcodes ∧
      u.stage = .fetch ∧
      (c ≠ .fetchOutOfRange → u.flag = s.flag ∧ u.exMem = s.exMem ∧ u.idEx = s.idEx) ∧
      (c = .fetchOutOfRange →
        u.flag = (s.idEx.map (IdEx.flagAfter · s.opcodes s.flag)).getD s.flag ∧
        u.exMem = s.idEx.map (IdEx.executed · s.opcodes s.flag) ∧
        u.idEx = s.ifId.map (IfId.decoded · u))

/-- R129: `done` is set by the cycle after which all four pipeline registers are absent, and then no
step changes anything (D11 and D12, logs 12 and 13). R230: after a fatal stop no cycle runs; that a step
then answers the same stop again is the model's form of it (the spec's D14, log 11). -/
def Obligations.DoneRule : Prop :=
  (∀ s t : State, s.running → step s = .next t →
    (t.done = true ↔ t.ifId = none ∧ t.idEx = none ∧ t.exMem = none ∧ t.memWb = none)) ∧
  (∀ s : State, s.done = true → s.fatal = none → step s = .next s) ∧
  (∀ (s : State) (c : Fault), s.fatal = some c → step s = .fault c)

/-- R129: when Fetch has returned a word and then returns absent in four cycles, the run ends with the
fourth of them and not before. -/
def Obligations.LastFetchEndsRunAfterFourCycles : Prop :=
  ∀ s0 s1 s2 s3 s4 : State, s0.running → s0.ifId ≠ none →
    step s0 = .next s1 → step s1 = .next s2 → step s2 = .next s3 → step s3 = .next s4 →
    s1.ifId = none → s2.ifId = none → s3.ifId = none → s4.ifId = none →
    s1.done = false ∧ s2.done = false ∧ s3.done = false ∧ s4.done = true

/-! ## Hazards and timing -/

/-- R265: the register an instruction writes is seen by the instruction three cycles behind it, and not
by those one and two cycles behind it, for arithmetic results and loaded words alike. Distance three, not
the four the source's prose counts, is read from the order of the stages: conflict C1 (log 21, DEDUCED).
`s0` is the state in which the producer stands before Decode; the three consumers are decoded in the
steps from `s1`, `s2` and `s3`. A destination of 31 is left to FetchRule. The bytes of a loaded word are
those of D6 (log 7) and do not wrap at 2^32 (log 34). -/
def Obligations.RegisterVisibleAtDistanceThree : Prop :=
  ∀ s0 s1 s2 s3 s4 : State, s0.Inv →
    step s0 = .next s1 → step s1 = .next s2 → step s2 = .next s3 → step s3 = .next s4 →
    ∀ (p : IfId) (q : RegIndex), s0.ifId = some p → destinationOf s0.opcodes p.instr = some q →
      q ≠ 31 →
      (∀ r, s0.idEx = some r → destinationOf s0.opcodes r.instr ≠ some q) →
      (∀ r, s0.exMem = some r → destinationOf s0.opcodes r.instr ≠ some q) →
      (∀ r, s0.memWb = some r → destinationOf s0.opcodes r.instr ≠ some q) →
      s1.decodeReg q = s0.reg q ∧ s2.decodeReg q = s0.reg q ∧
      ∃ x, s1.idEx = some x ∧ x.instr = p.instr ∧
        s3.decodeReg q =
          (if isLoad s0.opcodes p.instr then s2.data.readWord (x.operand1 + x.operand2).toNat
            else x.result s0.opcodes) ∧
        s4.reg q = s3.decodeReg q

/-- R14, R271: in a step an instruction in Decode that reads register 31, as an operand or as the value
a STORE stores, reads its own index plus 1, which it carries as `next_pc`, unless in that cycle a transfer
redirects the program counter (then the target) or a Write-Back writes it (then the value written). -/
def Obligations.ReadingTheProgramCounter : Prop :=
  ∀ (s t : State) (r : IfId) (i : Instr), s.Inv → s.running → step s = .next t →
    s.ifId = some r → decodeWith s.opcodes r.instr = .ok i →
    ∃ (x : IdEx) (v : Word), t.idEx = some x ∧ x.instr = r.instr ∧
      (∀ e, s.exMem.bind (ExMem.redirect · s.opcodes) = some e → v = e) ∧
      (s.exMem.bind (ExMem.redirect · s.opcodes) = none →
        (∀ m, s.memWb = some m → m.target s.opcodes = some 31 → v = m.result) ∧
        ((∀ m, s.memWb = some m → m.target s.opcodes ≠ some 31) → v = r.nextPc)) ∧
      (operand1Register i = some 31 → x.operand1 = v) ∧
      (operand2Register i = some 31 → x.operand2 = v) ∧
      (storedRegister i = some 31 → x.ioOperand = v)

/-- R200, R269: two instructions follow a jump or branch whether it is taken or not, and the third fetch
is at the target if it is. `s0` is the state in which the transfer `j` stands before Decode, with no older
instruction in flight that changes the program counter. -/
def Obligations.TransferHasTwoDelaySlots : Prop :=
  ∀ s0 s1 s2 s3 : State, s0.Inv →
    step s0 = .next s1 → step s1 = .next s2 → step s2 = .next s3 →
    ∀ (j : IfId) (w1 w2 : Word), s0.ifId = some j → isTransfer s0.opcodes j.instr = true →
      (∀ r, s0.idEx = some r →
        isTransfer s0.opcodes r.instr = false ∧ destinationOf s0.opcodes r.instr ≠ some 31) →
      (∀ r, s0.exMem = some r →
        isTransfer s0.opcodes r.instr = false ∧ destinationOf s0.opcodes r.instr ≠ some 31) →
      (∀ r, s0.memWb = some r → destinationOf s0.opcodes r.instr ≠ some 31) →
      s0.code[j.nextPc.toNat]? = some w1 → isHalt s0.opcodes w1 = false →
      s0.code[(j.nextPc + 1).toNat]? = some w2 → isHalt s0.opcodes w2 = false →
      s1.ifId = some ⟨j.nextPc + 1, w1⟩ ∧ s2.ifId = some ⟨j.nextPc + 2, w2⟩ ∧
      ∃ x a w3, s1.idEx = some x ∧ x.instr = j.instr ∧
        a = (if decodeType s0.opcodes j.instr = .jump ∨ s1.flag = true then x.operand1 + x.operand2
          else j.nextPc + 2) ∧
        s0.code[a.toNat]? = some w3 ∧
        s3.ifId = if isHalt s0.opcodes w3 then none else some ⟨a + 1, w3⟩

/-- R274, R132: an instruction that enters an empty pipeline, with HALT behind it and wherever it
leaves the program counter, takes five cycles and does what its passage through the stages one after
another does, or stops for the same cause. -/
def Obligations.InstructionAloneRunsItsPassage : Prop :=
  ∀ (i : Instr) (s u : State) (w h1 h2 : Word), s.running → s.stage = .fetch → s.drained = true →
    i ≠ .halt → s.code[(s.reg 31).toNat]? = some w → decodeWith s.opcodes w = .ok i →
    s.code[(s.reg 31 + 1).toNat]? = some h1 → isHalt s.opcodes h1 = true →
    (passage i s = .next u → s.code[(u.reg 31).toNat]? = some h2 → isHalt s.opcodes h2 = true →
      EndsAfter 5 s { u with done := true }) ∧
    (∀ c, passage i s = .fault c → Host.Core.run Sys2Proof.core 5 s = .fault c)

/-- R275: a straight-line program of n instructions that only compute, followed by HALT, runs n + 4
cycles from reset and leaves the program counter at the HALT, under any admissible opcode map. The run
starts at index 0 and so ends at index n because the registers reset to 0, the spec's D10 (log 4). HALT
alone runs one cycle and changes nothing; that this first cycle already ends the run is its D11
(log 13). -/
def Obligations.StraightLineProgramRunsFourMoreCycles : Prop :=
  (∀ (m : OpcodeMap) (ws : List Word) (h : Word) (n : Nat), m.admissible = true → ws ≠ [] →
    ws.length < 2 ^ 32 → isHalt m h = true →
    (∀ w ∈ ws, isHalt m w = false ∧ destinationOf m w ≠ some 31 ∧
      (decodeType m w = .binaryArithmetic ∨ decodeType m w = .unaryArithmetic ∨
        decodeType m w = .compare ∨ decodeType m w = .misc)) →
    ∃ t, EndsAfter (ws.length + 4) (State.boot m (ws ++ [h]) n) t ∧ (t.reg 31).toNat = ws.length ∧
      t.data = [] ∧ t.log = []) ∧
  (∀ (m : OpcodeMap) (h : Word) (rest : List Word) (n : Nat), isHalt m h = true →
    EndsAfter 1 (State.boot m (h :: rest) n) { State.boot m (h :: rest) n with done := true })

/-- R6: what the ports show in a cycle that goes on: the index fetched, and the write and the store
event exactly when the memory and the log change so (the ports are the spec's D16, log 26). -/
def Obligations.PortsDescribeTheCycle : Prop :=
  ∀ s t : State, s.running → step s = .next t →
    (∃ a, s.ports.codeAddr = some a ∧ ∃ w, s.code[a.toNat]? = some w ∧
      t.ifId = if isHalt s.opcodes w then none else some ⟨a + 1, w⟩) ∧
    t.log = s.log ++ s.ports.storeLog.toList ∧
    (∀ a v, s.ports.dataAccess = some (.write a v) →
      t.data = s.data.writeWord a.toNat v ∧ s.ports.storeLog = some a) ∧
    (∀ a, s.ports.dataAccess = some (.read a) → ∃ m, t.memWb = some m ∧
      m.result = s.data.readWord a.toNat ∧ t.data = s.data) ∧
    (s.ports.dataAccess = none → t.data = s.data) ∧
    s.ports.done = false ∧ s.ports.fatal = none

/-- R234: a word of type IO whose opcode is neither `OPC_LOAD` nor `OPC_STORE` is no instruction and is
fatal in Decode; a step stops for it exactly when the older stages go on (Execute is older by R239). That
Memory-Access is among them, stopping on an illegal address in a record, is the model's choice for states
no run reaches (log 16); which addresses are legal is the spec's D7 (log 8). What the stop leaves is the
spec's D14 (log 11): Write-Back, Memory-Access and Execute are done and Decode has written nothing. A map
that meets R63 has no such word (item 4, log 30). -/
def Obligations.BadIoOpcodeStopsInDecode : Prop :=
  (∀ (m : OpcodeMap) (w : Word), decodeType m w = .io →
    opcodeField w ≠ m.opcodeOf .load → opcodeField w ≠ m.opcodeOf .store →
    decodeWith m w = .error (.badIo (opcodeField w)) ∧ m.admissible = false ∧
    ∀ (s : State) (r : IfId), s.opcodes = m → s.ifId = some r → r.instr = w →
      runStage .decode s = .fault .badIoOpcode) ∧
  (∀ s : State, s.running →
    (step s = .fault .badIoOpcode ↔
      (∀ r, s.exMem = some r → isIo s.opcodes r.instr = true →
        legalAddress s.dataSize r.result = true) ∧
      (∀ r, s.idEx = some r → r.stop s.opcodes s.dataSize = none) ∧
      ∃ r, s.ifId = some r ∧ decodeType s.opcodes r.instr = .io ∧
        opcodeField r.instr ≠ s.opcodes.opcodeOf .load ∧
        opcodeField r.instr ≠ s.opcodes.opcodeOf .store)) ∧
  (∀ s : State, s.running → step s = .fault .badIoOpcode →
    ∃ u, stopState s = some u ∧ u.fatal = some .badIoOpcode ∧ u.done = false ∧
      (∀ q, u.reg q = s.decodeReg q) ∧
      u.data = s.wroteBack.accessed.data ∧ u.log = s.wroteBack.accessed.log ∧
      u.memWb = s.exMem.map (ExMem.accessed · s.opcodes s.data) ∧
      u.flag = (s.idEx.map (IdEx.flagAfter · s.opcodes s.flag)).getD s.flag ∧
      u.exMem = s.idEx.map (IdEx.executed · s.opcodes s.flag) ∧
      u.idEx = s.idEx ∧ u.ifId = s.ifId)
end

