-- ==== Sys2Proof/Laws/Decode.lean ====
section
/-! SUPPORT. The encoding: the fields of an encoded word, the opcode map read in both directions, sign
extension as the signed value of a field (spec/30_encoding.md, spec/40_decoder.md). -/

namespace Sys2Proof

/-! ## Fields of the formats (R53) -/

section formats
variable (opc : Opcode) (rd rs1 rs2 : RegIndex) (imm : Int)

@[simp] theorem opcodeField_formatBR : opcodeField (formatBR opc rd rs1 rs2) = opc := by
  unfold opcodeField formatBR
  rw [BitVec.extractLsb'_append_eq_of_add_le (by decide), BitVec.extractLsb'_eq_self]

@[simp] theorem fieldA_formatBR : fieldA (formatBR opc rd rs1 rs2) = rd := by
  unfold fieldA formatBR
  rw [BitVec.extractLsb'_append_eq_of_le (by decide),
    BitVec.extractLsb'_append_eq_of_add_le (by decide), BitVec.extractLsb'_eq_self]

@[simp] theorem fieldB_formatBR : fieldB (formatBR opc rd rs1 rs2) = rs1 := by
  unfold fieldB formatBR
  rw [BitVec.extractLsb'_append_eq_of_le (by decide), BitVec.extractLsb'_append_eq_of_le (by decide),
    BitVec.extractLsb'_append_eq_of_add_le (by decide), BitVec.extractLsb'_eq_self]

@[simp] theorem fieldC_formatBR : fieldC (formatBR opc rd rs1 rs2) = rs2 := by
  unfold fieldC formatBR
  rw [BitVec.extractLsb'_append_eq_of_le (by decide), BitVec.extractLsb'_append_eq_of_le (by decide),
    BitVec.extractLsb'_append_eq_of_le (by decide),
    BitVec.extractLsb'_append_eq_of_add_le (by decide), BitVec.extractLsb'_eq_self]

@[simp] theorem opcodeField_formatBI : opcodeField (formatBI opc rd rs1 imm) = opc := by
  unfold opcodeField formatBI
  rw [BitVec.extractLsb'_append_eq_of_add_le (by decide), BitVec.extractLsb'_eq_self]

@[simp] theorem fieldA_formatBI : fieldA (formatBI opc rd rs1 imm) = rd := by
  unfold fieldA formatBI
  rw [BitVec.extractLsb'_append_eq_of_le (by decide),
    BitVec.extractLsb'_append_eq_of_add_le (by decide), BitVec.extractLsb'_eq_self]

@[simp] theorem fieldB_formatBI : fieldB (formatBI opc rd rs1 imm) = rs1 := by
  unfold fieldB formatBI
  rw [BitVec.extractLsb'_append_eq_of_le (by decide), BitVec.extractLsb'_append_eq_of_le (by decide),
    BitVec.extractLsb'_append_eq_of_add_le (by decide), BitVec.extractLsb'_eq_self]

@[simp] theorem imm16Field_formatBI : imm16Field (formatBI opc rd rs1 imm) = BitVec.ofInt 16 imm := by
  unfold imm16Field formatBI
  rw [BitVec.extractLsb'_append_eq_of_le (by decide), BitVec.extractLsb'_append_eq_of_le (by decide),
    BitVec.extractLsb'_append_eq_of_le (by decide), BitVec.extractLsb'_eq_self]

@[simp] theorem opcodeField_formatUR : opcodeField (formatUR opc rd rs1) = opc := by
  unfold opcodeField formatUR
  rw [BitVec.extractLsb'_append_eq_of_add_le (by decide), BitVec.extractLsb'_eq_self]

@[simp] theorem fieldA_formatUR : fieldA (formatUR opc rd rs1) = rd := by
  unfold fieldA formatUR
  rw [BitVec.extractLsb'_append_eq_of_le (by decide),
    BitVec.extractLsb'_append_eq_of_add_le (by decide), BitVec.extractLsb'_eq_self]

@[simp] theorem fieldB_formatUR : fieldB (formatUR opc rd rs1) = rs1 := by
  unfold fieldB formatUR
  rw [BitVec.extractLsb'_append_eq_of_le (by decide), BitVec.extractLsb'_append_eq_of_le (by decide),
    BitVec.extractLsb'_append_eq_of_add_le (by decide), BitVec.extractLsb'_eq_self]

@[simp] theorem opcodeField_formatUI : opcodeField (formatUI opc rd imm) = opc := by
  unfold opcodeField formatUI
  rw [BitVec.extractLsb'_append_eq_of_add_le (by decide), BitVec.extractLsb'_eq_self]

@[simp] theorem fieldA_formatUI : fieldA (formatUI opc rd imm) = rd := by
  unfold fieldA formatUI
  rw [BitVec.extractLsb'_append_eq_of_le (by decide),
    BitVec.extractLsb'_append_eq_of_add_le (by decide), BitVec.extractLsb'_eq_self]

@[simp] theorem imm21Field_formatUI : imm21Field (formatUI opc rd imm) = BitVec.ofInt 21 imm := by
  unfold imm21Field formatUI
  rw [BitVec.extractLsb'_append_eq_of_le (by decide), BitVec.extractLsb'_append_eq_of_le (by decide),
    BitVec.extractLsb'_eq_self]

@[simp] theorem opcodeField_formatJR : opcodeField (formatJR opc rd) = opc := by
  unfold opcodeField formatJR
  rw [BitVec.extractLsb'_append_eq_of_add_le (by decide), BitVec.extractLsb'_eq_self]

@[simp] theorem fieldA_formatJR : fieldA (formatJR opc rd) = rd := by
  unfold fieldA formatJR
  rw [BitVec.extractLsb'_append_eq_of_le (by decide),
    BitVec.extractLsb'_append_eq_of_add_le (by decide), BitVec.extractLsb'_eq_self]

@[simp] theorem opcodeField_formatJI : opcodeField (formatJI opc imm) = opc := by
  unfold opcodeField formatJI
  rw [BitVec.extractLsb'_append_eq_of_add_le (by decide), BitVec.extractLsb'_eq_self]

@[simp] theorem imm26Field_formatJI : imm26Field (formatJI opc imm) = BitVec.ofInt 26 imm := by
  unfold imm26Field formatJI
  rw [BitVec.extractLsb'_append_eq_of_le (by decide), BitVec.extractLsb'_eq_self]

@[simp] theorem opcodeField_formatM : opcodeField (formatM opc) = opc := by
  unfold opcodeField formatM
  rw [BitVec.extractLsb'_append_eq_of_add_le (by decide), BitVec.extractLsb'_eq_self]

end formats

/-! ## Immediates (R60, R85) -/

/-- A value in the signed range of a field is what the field reads back as. -/
theorem toInt_ofInt_of_fits {n : Nat} {v : Int} (hn : 0 < n) (h : fitsSigned n v = true) :
    (BitVec.ofInt n v).toInt = v := by
  simp only [fitsSigned, Bool.and_eq_true, decide_eq_true_eq] at h
  obtain ⟨m, rfl⟩ : ∃ m, n = m + 1 := ⟨n - 1, by omega⟩
  simp only [Nat.add_sub_cancel] at h
  rw [BitVec.toInt_ofInt]
  apply Int.bmod_eq_of_le
  · rw [Nat.pow_succ, Nat.mul_comm]; push_cast; omega
  · rw [Nat.pow_succ]; push_cast; omega

/-- The signed value of a field is in its range. -/
theorem fitsSigned_toInt {n : Nat} (hn : 0 < n) (v : BitVec n) : fitsSigned n v.toInt = true := by
  obtain ⟨m, rfl⟩ : ∃ m, n = m + 1 := ⟨n - 1, by omega⟩
  have h1 := BitVec.le_two_mul_toInt (x := v)
  have h2 := BitVec.two_mul_toInt_lt (x := v)
  simp only [fitsSigned, Bool.and_eq_true, decide_eq_true_eq, Nat.add_sub_cancel]
  rw [pow_succ] at h1 h2
  constructor <;> omega

/-- `sext_N` is the 32-bit two's complement of the field's signed value (R85). -/
theorem sext_eq_ofInt {n : Nat} (v : BitVec n) : sext n v = BitVec.ofInt 32 v.toInt := by
  have : BitVec.ofInt 32 v.toInt = v.signExtend 32 := rfl
  rw [this]
  unfold sext
  ext i hi
  rw [BitVec.getElem_signExtend]
  split
  · rename_i hm
    simp only [BitVec.getElem_or, BitVec.getElem_setWidth, BitVec.getElem_shiftLeft]
    have ones : ∀ j (hj : j < 32), (0xFFFFFFFF#32)[j] = true := by decide
    by_cases h : i < n
    · simp [h]
    · simp [h, hm, ones]
  · rename_i hm
    simp only [BitVec.getElem_setWidth]
    by_cases h : i < n
    · simp [h]
    · simp [h, hm, BitVec.getLsbD_of_ge v i (by omega)]

/-! ## Opcode maps (R62, R63) -/

/-- A row that the lookup finds is in the map. -/
theorem mem_of_opOf {m : OpcodeMap} {c : Opcode} {op : Op} (h : m.opOf c = some op) : (c, op) ∈ m := by
  induction m with
  | nil => cases h
  | cons row rest ih =>
    obtain ⟨d, o⟩ := row
    simp only [OpcodeMap.opOf] at h
    split at h
    · rename_i hd; cases h; subst hd; simp
    · exact List.mem_cons_of_mem _ (ih h)

/-- With distinct opcodes the lookup finds every row. -/
theorem opOf_of_mem {m : OpcodeMap} (hn : (m.map Prod.fst).Nodup) {c : Opcode} {op : Op}
    (h : (c, op) ∈ m) : m.opOf c = some op := by
  induction m with
  | nil => cases h
  | cons row rest ih =>
    obtain ⟨d, o⟩ := row
    simp only [List.map_cons, List.nodup_cons] at hn
    simp only [OpcodeMap.opOf]
    rcases List.mem_cons.1 h with h | h
    · cases h; simp
    · have : d ≠ c := fun hd => hn.1 (hd ▸ List.mem_map.2 ⟨_, h, rfl⟩)
      rw [if_neg this, ih hn.2 h]

/-- The opcode of an operation that the map has is the opcode of a row. -/
theorem opcodeOf_mem {m : OpcodeMap} {op : Op} (h : ∃ c, (c, op) ∈ m) : (m.opcodeOf op, op) ∈ m := by
  induction m with
  | nil => obtain ⟨c, h⟩ := h; cases h
  | cons row rest ih =>
    obtain ⟨d, o⟩ := row
    simp only [OpcodeMap.opcodeOf]
    split
    · rename_i ho; subst ho; simp
    · rename_i ho
      obtain ⟨c, h⟩ := h
      rcases List.mem_cons.1 h with h | h
      · cases h; exact absurd rfl ho
      · exact List.mem_cons_of_mem _ (ih ⟨c, h⟩)

/-- What R63 asks of a map's rows, item 4 apart: distinct opcodes, one row for each operation, further
rows for LOAD and STORE only, and bit 0 telling the forms of a pair apart. -/
theorem admissibleButIo_iff {m : OpcodeMap} : m.admissibleButIo = true ↔
    (m.map Prod.fst).Nodup ∧
    (∀ op, let rows := (m.filter (fun row => decide (row.2 = op))).length
      rows = 1 ∨ (op.type = .io ∧ 1 ≤ rows)) ∧
    (∀ p ∈ Op.pairs, (m.opcodeOf p.1).getLsbD 0 = false ∧ m.opcodeOf p.2 = m.opcodeOf p.1 ||| 1) := by
  have all (op : Op) : op ∈ Op.all := by cases op <;> decide
  simp only [OpcodeMap.admissibleButIo, Bool.and_eq_true, decide_eq_true_eq, List.all_eq_true,
    Bool.or_eq_true, beq_iff_eq, Bool.not_eq_true']
  exact ⟨fun h => ⟨h.1.1, fun op => h.1.2 op (all op), h.2⟩, fun h => ⟨⟨h.1, fun op _ => h.2.1 op⟩, h.2.2⟩⟩

/-- An admissible map meets every item but 4, and item 4 too. -/
theorem admissibleButIo_of_admissible {m : OpcodeMap} (hm : m.admissible = true) :
    m.admissibleButIo = true := by
  simp only [OpcodeMap.admissible, Bool.and_eq_true, List.all_eq_true] at hm
  simp only [OpcodeMap.admissibleButIo, Bool.and_eq_true, List.all_eq_true, Bool.or_eq_true]
  exact ⟨⟨hm.1.1, fun op h => .inl (hm.1.2 op h)⟩, hm.2⟩

section rows
variable {m : OpcodeMap} (hm : m.admissibleButIo = true)
include hm

/-- The opcode of an operation is mapped to it. -/
theorem opOf_opcodeOf (op : Op) : m.opOf (m.opcodeOf op) = some op := by
  obtain ⟨hn, hr, -⟩ := admissibleButIo_iff.1 hm
  have hpos : 0 < (m.filter (fun row => decide (row.2 = op))).length := by
    rcases hr op with h | ⟨-, h⟩ <;> omega
  obtain ⟨⟨c, o⟩, hrow⟩ := List.exists_mem_of_length_pos hpos
  obtain ⟨hmem, ho⟩ := List.mem_filter.1 hrow
  have ho : o = op := by simpa using ho
  exact opOf_of_mem hn (opcodeOf_mem ⟨c, ho ▸ hmem⟩)

/-- An operation with one row has no other opcode. -/
theorem opcodeOf_unique {c : Opcode} {op : Op}
    (h1 : (m.filter (fun row => decide (row.2 = op))).length = 1) (h : m.opOf c = some op) :
    c = m.opcodeOf op := by
  obtain ⟨row, hrow⟩ := List.length_eq_one_iff.1 h1
  have mem {d : Opcode} (hd : m.opOf d = some op) : (d, op) = row := by
    have : (d, op) ∈ m.filter (fun row => decide (row.2 = op)) :=
      List.mem_filter.2 ⟨mem_of_opOf hd, by simp⟩
    simpa [hrow] using this
  exact congrArg Prod.fst ((mem h).trans (mem (opOf_opcodeOf hm op)).symm)

/-- Bit 0 tells the two forms of a paired operation apart (R63 item 2). -/
theorem opcodeOf_pair {r i : Op} (h : (r, i) ∈ Op.pairs) :
    (m.opcodeOf r).getLsbD 0 = false ∧ (m.opcodeOf i).getLsbD 0 = true := by
  obtain ⟨h0, h1⟩ := (admissibleButIo_iff.1 hm).2.2 _ h
  exact ⟨h0, by rw [h1]; simp⟩

end rows

/-- An admissible map and its inverse agree. -/
theorem opOf_iff {m : OpcodeMap} (hm : m.admissible = true) (c : Opcode) (op : Op) :
    m.opOf c = some op ↔ c = m.opcodeOf op := by
  have hm' := admissibleButIo_of_admissible hm
  refine ⟨opcodeOf_unique hm' ?_, fun h => h ▸ opOf_opcodeOf hm' op⟩
  simp only [OpcodeMap.admissible, Bool.and_eq_true, List.all_eq_true, beq_iff_eq] at hm
  exact hm.1.2 op (by cases op <;> decide)

/-! ## Words under an opcode map -/

section words
variable {m : OpcodeMap} {w : Word}

theorem isBadIo_iff : isBadIo m w = true ↔
    decodeType m w = .io ∧ opcodeField w ≠ opcLoad m ∧ opcodeField w ≠ opcStore m := by
  simp [isBadIo, and_assoc]

theorem opOfWord_iff {op : Op} :
    opOfWord m w = some op ↔ isBadIo m w = false ∧ m.opOf (opcodeField w) = some op := by
  unfold opOfWord
  split <;> simp_all

/-- A word is UNKNOWN, or IO-typed and neither LOAD nor STORE, or has an operation. -/
theorem word_cases (m : OpcodeMap) (w : Word) :
    decodeType m w = .unknown ∨ isBadIo m w = true ∨ ∃ op, opOfWord m w = some op := by
  cases hb : isBadIo m w with
  | true => exact .inr (.inl rfl)
  | false =>
    cases ho : m.opOf (opcodeField w) with
    | some op => exact .inr (.inr ⟨op, opOfWord_iff.2 ⟨hb, ho⟩⟩)
    | none => exact .inl (by simp [decodeType, ho])

theorem decodeType_of_badIo (h : isBadIo m w = true) : decodeType m w = .io := (isBadIo_iff.1 h).1

theorem opOfWord_of_badIo (h : isBadIo m w = true) : opOfWord m w = none := by simp [opOfWord, h]

theorem isBadIo_of_type (h : decodeType m w ≠ .io) : isBadIo m w = false := by
  cases hb : isBadIo m w
  · rfl
  · exact absurd (decodeType_of_badIo hb) h

theorem opOfWord_of_unknown (h : decodeType m w = .unknown) : opOfWord m w = none := by
  cases ho : opOfWord m w with
  | none => rfl
  | some op =>
    have := (opOfWord_iff.1 ho).2
    simp only [decodeType, this] at h
    cases op <;> cases h

/-- A word with an operation decodes to it with its fields. -/
theorem decode_of_op {op : Op} (h : opOfWord m w = some op) : decodeWith m w = .ok (instrOf op w) := by
  simp [decodeWith, h]

/-- A word with an unmapped opcode is rejected by name. -/
theorem decode_of_unknown (h : decodeType m w = .unknown) :
    decodeWith m w = .error (.unknown (opcodeField w)) := by
  simp [decodeWith, opOfWord_of_unknown h, isBadIo_of_type (m := m) (w := w) (by simp [h])]

/-- So is a word of type IO that is neither LOAD nor STORE (R65). -/
theorem decode_of_badIo (h : isBadIo m w = true) :
    decodeWith m w = .error (.badIo (opcodeField w)) := by
  simp [decodeWith, opOfWord_of_badIo h, h]

theorem decodeType_of_op {op : Op} (h : opOfWord m w = some op) : decodeType m w = op.type := by
  simp [decodeType, (opOfWord_iff.1 h).2]

@[simp] theorem instrOf_op (op : Op) (w : Word) : (instrOf op w).op = op := by
  cases op <;> rfl

/-- What a decoded word was. -/
theorem op_of_decode {i : Instr} (h : decodeWith m w = .ok i) :
    opOfWord m w = some i.op ∧ i = instrOf i.op w := by
  rcases word_cases m w with hu | hb | ⟨op, ho⟩
  · rw [decode_of_unknown hu] at h; cases h
  · rw [decode_of_badIo hb] at h; cases h
  · rw [decode_of_op ho] at h
    cases h
    simp [ho]

/-- A word's operation is the one whose opcode it has. -/
theorem opcodeField_iff (hm : m.admissibleButIo = true) (op : Op) :
    opcodeField w = m.opcodeOf op ↔ opOfWord m w = some op := by
  rw [opOfWord_iff]
  constructor
  · intro h
    have ho : m.opOf (opcodeField w) = some op := h ▸ opOf_opcodeOf hm op
    refine ⟨?_, ho⟩
    cases hb : isBadIo m w with
    | false => rfl
    | true =>
      obtain ⟨ht, hl, hs⟩ := isBadIo_iff.1 hb
      simp only [decodeType, ho] at ht
      cases op <;> first | exact absurd h hl | exact absurd h hs | cases ht
  · rintro ⟨hb, ho⟩
    rcases (admissibleButIo_iff.1 hm).2.1 op with h1 | ⟨ht, -⟩
    · exact opcodeOf_unique hm h1 ho
    · have ht' : decodeType m w = .io := by simp [decodeType, ho, ht]
      by_contra hne
      have hlt (o : Op) (ho' : opcodeField w = m.opcodeOf o) : o = op := by
        rw [ho', opOf_opcodeOf hm] at ho; exact Option.some.inj ho
      have := isBadIo_iff.2 ⟨ht', fun h => hne (hlt _ h ▸ h), fun h => hne (hlt _ h ▸ h)⟩
      rw [hb] at this; cases this

/-- Under an admissible map LOAD and STORE are the only words of type IO (R63 item 4). -/
theorem isBadIo_of_admissible (hm : m.admissible = true) (w : Word) : isBadIo m w = false := by
  cases ho : m.opOf (opcodeField w) with
  | none => exact isBadIo_of_type (by simp [decodeType, ho])
  | some op =>
    have := (opcodeField_iff (admissibleButIo_of_admissible hm) op).1 ((opOf_iff hm _ _).1 ho)
    exact (opOfWord_iff.1 this).1

end words

/-- The immediate variants are the operations of the formats BI, UI, CI and JI (R52, R83). -/
def Op.immediate (op : Op) : Bool :=
  match op.format with
  | .bi | .ui | .ci | .ji => true
  | .br | .ur | .cr | .jr | .io | .m => false

/-- `is_immediate_variant` of the two forms of a paired operation; no other user of it exists (R83). -/
theorem isImmediateVariant_of_op {m : OpcodeMap} (hm : m.admissibleButIo = true) {w : Word} {op : Op}
    (h : opOfWord m w = some op) (hio : op.type ≠ .io) (hmisc : op.type ≠ .misc) :
    isImmediateVariant m w = op.immediate := by
  have hb : w.getLsbD 0 = (m.opcodeOf op).getLsbD 0 := by
    rw [← (opcodeField_iff hm op).2 h]; simp [opcodeField]
  have hs : (opcodeField w != opcStore m) = true := by
    simp only [bne_iff_ne, opcStore, ne_eq, opcodeField_iff hm, h]
    rintro ⟨⟩
    exact hio rfl
  rw [isImmediateVariant, hs, hb, Bool.and_true]
  cases op
  case load | store => exact absurd rfl hio
  case nop | halt => exact absurd rfl hmisc
  case addi | subi | andi | ori | shli | shrai | shrli | noti | movi | ceqi | cltui | cltsi | cgtui
      | cgtsi | jumpi | branchi =>
    exact (opcodeOf_pair hm (by repeat (first | exact .head _ | apply List.Mem.tail))).2
  all_goals exact (opcodeOf_pair hm (by repeat (first | exact .head _ | apply List.Mem.tail))).1

end Sys2Proof
end

