-- ==== Sys2Proof/Laws/Memory.lean ====
section
/-! SUPPORT. Data memory: a read after a write, and that every operation keeps the canonical form
(spec/20_memory.md R33 to R37). -/

namespace Sys2Proof.Machine

/-! ## The canonical form -/

theorem Memory.wfFrom_mono {lo hi : Nat} (h : lo ≤ hi) (m : Memory) (hm : m.wfFrom hi = true) :
    m.wfFrom lo = true := by
  cases m with
  | nil => rfl
  | cons c rest =>
    obtain ⟨k, v⟩ := c
    simp only [Memory.wfFrom, Bool.and_eq_true, decide_eq_true_eq] at hm ⊢
    exact ⟨⟨by omega, hm.1.2⟩, hm.2⟩

theorem Memory.consByte_wfFrom {lo a : Nat} (b : Byte) {rest : Memory} (h : lo ≤ a)
    (hr : rest.wfFrom (a + 1) = true) : (Memory.consByte a b rest).wfFrom lo = true := by
  unfold Memory.consByte
  split
  · exact Memory.wfFrom_mono (by omega) rest hr
  · simp_all [Memory.wfFrom]

theorem Memory.writeByte_wfFrom {lo a : Nat} (b : Byte) (h : lo ≤ a) (m : Memory)
    (hm : m.wfFrom lo = true) : (m.writeByte a b).wfFrom lo = true := by
  induction m generalizing lo with
  | nil => exact Memory.consByte_wfFrom b h rfl
  | cons c rest ih =>
    obtain ⟨k, v⟩ := c
    have hm' := hm
    simp only [Memory.wfFrom, Bool.and_eq_true, decide_eq_true_eq] at hm
    unfold Memory.writeByte
    split
    · refine Memory.consByte_wfFrom b h ?_
      simp only [Memory.wfFrom, Bool.and_eq_true, decide_eq_true_eq]
      exact ⟨⟨by omega, hm.1.2⟩, hm.2⟩
    · split
      · exact Memory.consByte_wfFrom b h (by subst_vars; exact hm.2)
      · simp only [Memory.wfFrom, Bool.and_eq_true, decide_eq_true_eq]
        exact ⟨hm.1, ih (by omega) hm.2⟩

/-- Storing a byte keeps the canonical form. -/
theorem Memory.writeByte_wf (m : Memory) (a : Nat) (b : Byte) (hm : m.wf = true) :
    (m.writeByte a b).wf = true :=
  Memory.writeByte_wfFrom b (Nat.zero_le a) m hm

/-- Storing a word keeps the canonical form. -/
theorem Memory.writeWord_wf (m : Memory) (a : Nat) (v : Word) (hm : m.wf = true) :
    (m.writeWord a v).wf = true := by
  exact Memory.writeByte_wf _ _ _ (Memory.writeByte_wf _ _ _
    (Memory.writeByte_wf _ _ _ (Memory.writeByte_wf _ _ _ hm)))

/-- Memory with nothing listed has the canonical form. -/
theorem Memory.nil_wf : Memory.wf [] = true := rfl

/-! ## Reading -/

/-- Below every listed address a byte reads as unlisted. -/
theorem Memory.readByte_below {lo a : Nat} (h : a < lo) (m : Memory) (hm : m.wfFrom lo = true) :
    m.readByte a = unlistedByte := by
  induction m generalizing lo with
  | nil => rfl
  | cons c rest ih =>
    obtain ⟨k, v⟩ := c
    simp only [Memory.wfFrom, Bool.and_eq_true, decide_eq_true_eq] at hm
    simp only [Memory.readByte]
    rw [if_neg (by omega)]
    exact ih (by omega) hm.2

theorem Memory.readByte_consByte (a k : Nat) (b : Byte) {rest : Memory}
    (hr : rest.wfFrom (a + 1) = true) :
    (Memory.consByte a b rest).readByte k = if k = a then b else rest.readByte k := by
  unfold Memory.consByte
  split
  · split
    · subst_vars; exact Memory.readByte_below (Nat.lt_succ_self _) rest hr
    · rfl
  · simp [Memory.readByte, eq_comm]

/-- A byte reads as the last byte written there; every other byte is unchanged. -/
theorem Memory.readByte_writeByte (m : Memory) (hm : m.wf = true) (a k : Nat) (b : Byte) :
    (m.writeByte a b).readByte k = if k = a then b else m.readByte k := by
  have main : ∀ lo, lo ≤ a → m.wfFrom lo = true →
      (m.writeByte a b).readByte k = if k = a then b else m.readByte k := by
    clear hm
    induction m with
    | nil =>
      intro lo _ _
      exact Memory.readByte_consByte a k b rfl
    | cons c rest ih =>
      obtain ⟨j, v⟩ := c
      intro lo hlo hm
      have hm' := hm
      simp only [Memory.wfFrom, Bool.and_eq_true, decide_eq_true_eq] at hm
      unfold Memory.writeByte
      split
      · rw [Memory.readByte_consByte]
        simp only [Memory.wfFrom, Bool.and_eq_true, decide_eq_true_eq]
        exact ⟨⟨by omega, hm.1.2⟩, hm.2⟩
      · split
        · subst_vars
          rw [Memory.readByte_consByte _ _ _ hm.2]
          simp only [Memory.readByte]
          split
          · rfl
          · rw [if_neg (by omega)]
        · simp only [Memory.readByte]
          rw [ih (j + 1) (by omega) hm.2]
          split
          · split
            · omega
            · rfl
          · rfl
  exact main 0 (Nat.zero_le a) hm

/-! ## Words (R35) -/

/-- The byte at `k` after a word is stored at `a`: one of the four, or what it was. -/
theorem Memory.readByte_writeWord (m : Memory) (hm : m.wf = true) (a k : Nat) (v : Word) :
    (m.writeWord a v).readByte k =
      if a ≤ k ∧ k < a + 4 then byteOfWord v (k - a) else m.readByte k := by
  have h0 := Memory.writeByte_wf m a (byteOfWord v 0) hm
  have h1 := Memory.writeByte_wf _ (a + 1) (byteOfWord v 1) h0
  have h2 := Memory.writeByte_wf _ (a + 2) (byteOfWord v 2) h1
  rw [Memory.writeWord, Memory.readByte_writeByte _ h2, Memory.readByte_writeByte _ h1,
    Memory.readByte_writeByte _ h0, Memory.readByte_writeByte _ hm]
  by_cases h : a ≤ k ∧ k < a + 4
  · obtain h | h | h | h : k = a ∨ k = a + 1 ∨ k = a + 2 ∨ k = a + 3 := by omega
    all_goals subst h; simp
  · rw [if_neg h, if_neg (by omega), if_neg (by omega), if_neg (by omega), if_neg (by omega)]

/-- The four bytes of a word, put together again, are the word. -/
theorem wordOfBytes_byteOfWord (v : Word) :
    wordOfBytes (byteOfWord v 0) (byteOfWord v 1) (byteOfWord v 2) (byteOfWord v 3) = v := by
  unfold wordOfBytes byteOfWord
  ext i hi
  rw [← BitVec.getLsbD_eq_getElem, ← BitVec.getLsbD_eq_getElem]
  simp only [BitVec.getLsbD_append, BitVec.getLsbD_extractLsb']
  interval_cases i <;> simp

/-- A word reads as it was stored. -/
theorem Memory.readWord_writeWord (m : Memory) (hm : m.wf = true) (a : Nat) (v : Word) :
    (m.writeWord a v).readWord a = v := by
  simp only [Memory.readWord, Memory.readByte_writeWord m hm]
  rw [if_pos (by omega), if_pos (by omega), if_pos (by omega), if_pos (by omega)]
  simpa using wordOfBytes_byteOfWord v

/-- A word disjoint from a store is unchanged. -/
theorem Memory.readWord_writeWord_disjoint (m : Memory) (hm : m.wf = true) (a b : Nat) (v : Word)
    (h : b + 4 ≤ a ∨ a + 4 ≤ b) : (m.writeWord a v).readWord b = m.readWord b := by
  simp only [Memory.readWord, Memory.readByte_writeWord m hm]
  rw [if_neg (by omega), if_neg (by omega), if_neg (by omega), if_neg (by omega)]

/-! ## Bounds -/

/-- Every address a store lists was listed before or is the one stored to. -/
theorem Memory.mem_writeByte {m : Memory} {a : Nat} {b : Byte} {c : Host.Cell}
    (h : c ∈ m.writeByte a b) : c ∈ m ∨ c.1 = a := by
  have cons : ∀ rest : Memory, c ∈ Memory.consByte a b rest → c ∈ rest ∨ c.1 = a := by
    intro rest h
    unfold Memory.consByte at h
    split at h
    · exact .inl h
    · rcases List.mem_cons.1 h with h | h
      · exact .inr (by rw [h])
      · exact .inl h
  induction m with
  | nil => simpa using cons [] h
  | cons d rest ih =>
    obtain ⟨k, v⟩ := d
    unfold Memory.writeByte at h
    split at h
    · exact cons _ h
    · split at h
      · rcases cons _ h with h | h
        · exact .inl (List.mem_cons_of_mem _ h)
        · exact .inr h
      · rcases List.mem_cons.1 h with h | h
        · exact .inl (by rw [h]; exact List.mem_cons_self)
        · rcases ih h with h | h
          · exact .inl (List.mem_cons_of_mem _ h)
          · exact .inr h

/-- A word stored inside the first `n` bytes keeps every listed address below `n`. -/
theorem Memory.writeWord_bounded {m : Memory} {a n : Nat} {v : Word} (ha : a + 4 ≤ n)
    (hm : ∀ c ∈ m, c.1 < n) : ∀ c ∈ m.writeWord a v, c.1 < n := by
  intro c hc
  unfold Memory.writeWord at hc
  rcases Memory.mem_writeByte hc with hc | hc
  · rcases Memory.mem_writeByte hc with hc | hc
    · rcases Memory.mem_writeByte hc with hc | hc
      · rcases Memory.mem_writeByte hc with hc | hc
        · exact hm c hc
        · omega
      · omega
    · omega
  · omega

/-- A legal address leaves room for its four bytes (R37). -/
theorem legalAddress_iff (n : Nat) (ea : Word) :
    legalAddress n ea = true ↔ ea.toNat + 4 ≤ n := by
  simp only [legalAddress, Bool.and_eq_true, decide_eq_true_eq]
  omega

end Sys2Proof.Machine
end

