-- ==== Sys2Proof/Laws/State.lean ====
section
/-! SUPPORT. What each update of the state does to each field, and how registers are read after it;
every lemma is a simp lemma, so that no proof unfolds a record update. -/

namespace Sys2Proof.Machine

/-! ## Registers (spec/10_state.md R10 to R13) -/

@[simp] theorem State.reg_setReg (s : State) (r q : RegIndex) (v : Word) :
    (s.setReg r v).reg q = if q = r then v else s.reg q := by
  simp [State.reg, State.setReg, Vector.getElem_set, BitVec.toNat_inj, eq_comm]

@[simp] theorem State.reg_setPc (s : State) (q : RegIndex) (t : Word) :
    (s.setPc t).reg q = if q = Config.pcIndex then t else s.reg q := by
  simp [State.setPc]

@[simp] theorem State.pc_setReg (s : State) (r : RegIndex) (v : Word) :
    (s.setReg r v).pc = if r = Config.pcIndex then v else s.pc := by
  simp [State.pc, eq_comm]

@[simp] theorem State.pc_setPc (s : State) (t : Word) : (s.setPc t).pc = t := by
  simp [State.pc]

/-- Reading slot 31 reads the program counter (R12). -/
theorem State.reg_pcIndex (s : State) : s.reg Config.pcIndex = s.pc := rfl

/-- Two states with the same register file read alike. -/
theorem State.reg_of_regs {s t : State} (h : s.regs = t.regs) (r : RegIndex) : s.reg r = t.reg r := by
  simp [State.reg, h]

/-- Register files that read alike are equal. -/
theorem State.regs_ext {s t : State} (h : ∀ r, s.reg r = t.reg r) : s.regs = t.regs := by
  apply Vector.ext
  intro i hi
  have := h (BitVec.ofNat 5 i)
  simpa [State.reg, Nat.mod_eq_of_lt hi] using this

/-- A write of slot `r` that changes nothing. -/
@[simp] theorem State.setReg_setReg (s : State) (r : RegIndex) (v w : Word) :
    (s.setReg r v).setReg r w = s.setReg r w := by
  simp [State.setReg]

/-! ## Reads through an update of other fields -/

@[simp] theorem State.reg_mk (s : State) (f d a b c e l dn ft cd ds om st) (q : RegIndex) :
    (State.mk s.regs f d a b c e l dn ft cd ds om st).reg q = s.reg q := rfl

@[simp] theorem State.pc_mk (s : State) (f d a b c e l dn ft cd ds om st) :
    (State.mk s.regs f d a b c e l dn ft cd ds om st).pc = s.pc := rfl

@[simp] theorem State.codeRead_mk (s : State) (g f d a b c e l dn ft ds om st) (i : Word) :
    (State.mk g f d a b c e l dn ft s.code ds om st).codeRead i = s.codeRead i := rfl

/-! ## One lemma per field per update -/

@[simp] theorem State.flag_setReg (s : State) (r : RegIndex) (v : Word) : (s.setReg r v).flag = s.flag := rfl
@[simp] theorem State.data_setReg (s : State) (r : RegIndex) (v : Word) : (s.setReg r v).data = s.data := rfl
@[simp] theorem State.ifId_setReg (s : State) (r : RegIndex) (v : Word) : (s.setReg r v).ifId = s.ifId := rfl
@[simp] theorem State.idEx_setReg (s : State) (r : RegIndex) (v : Word) : (s.setReg r v).idEx = s.idEx := rfl
@[simp] theorem State.exMem_setReg (s : State) (r : RegIndex) (v : Word) : (s.setReg r v).exMem = s.exMem := rfl
@[simp] theorem State.memWb_setReg (s : State) (r : RegIndex) (v : Word) : (s.setReg r v).memWb = s.memWb := rfl
@[simp] theorem State.log_setReg (s : State) (r : RegIndex) (v : Word) : (s.setReg r v).log = s.log := rfl
@[simp] theorem State.done_setReg (s : State) (r : RegIndex) (v : Word) : (s.setReg r v).done = s.done := rfl
@[simp] theorem State.fatal_setReg (s : State) (r : RegIndex) (v : Word) : (s.setReg r v).fatal = s.fatal := rfl
@[simp] theorem State.code_setReg (s : State) (r : RegIndex) (v : Word) : (s.setReg r v).code = s.code := rfl
@[simp] theorem State.dataSize_setReg (s : State) (r : RegIndex) (v : Word) : (s.setReg r v).dataSize = s.dataSize := rfl
@[simp] theorem State.opcodes_setReg (s : State) (r : RegIndex) (v : Word) : (s.setReg r v).opcodes = s.opcodes := rfl
@[simp] theorem State.stage_setReg (s : State) (r : RegIndex) (v : Word) : (s.setReg r v).stage = s.stage := rfl
@[simp] theorem State.codeRead_setReg (s : State) (r : RegIndex) (v : Word) (i : Word) : (s.setReg r v).codeRead i = s.codeRead i := rfl

@[simp] theorem State.flag_setPc (s : State) (t : Word) : (s.setPc t).flag = s.flag := rfl
@[simp] theorem State.data_setPc (s : State) (t : Word) : (s.setPc t).data = s.data := rfl
@[simp] theorem State.ifId_setPc (s : State) (t : Word) : (s.setPc t).ifId = s.ifId := rfl
@[simp] theorem State.idEx_setPc (s : State) (t : Word) : (s.setPc t).idEx = s.idEx := rfl
@[simp] theorem State.exMem_setPc (s : State) (t : Word) : (s.setPc t).exMem = s.exMem := rfl
@[simp] theorem State.memWb_setPc (s : State) (t : Word) : (s.setPc t).memWb = s.memWb := rfl
@[simp] theorem State.log_setPc (s : State) (t : Word) : (s.setPc t).log = s.log := rfl
@[simp] theorem State.done_setPc (s : State) (t : Word) : (s.setPc t).done = s.done := rfl
@[simp] theorem State.fatal_setPc (s : State) (t : Word) : (s.setPc t).fatal = s.fatal := rfl
@[simp] theorem State.code_setPc (s : State) (t : Word) : (s.setPc t).code = s.code := rfl
@[simp] theorem State.dataSize_setPc (s : State) (t : Word) : (s.setPc t).dataSize = s.dataSize := rfl
@[simp] theorem State.opcodes_setPc (s : State) (t : Word) : (s.setPc t).opcodes = s.opcodes := rfl
@[simp] theorem State.stage_setPc (s : State) (t : Word) : (s.setPc t).stage = s.stage := rfl
@[simp] theorem State.codeRead_setPc (s : State) (t : Word) (i : Word) : (s.setPc t).codeRead i = s.codeRead i := rfl

@[simp] theorem State.regs_logStore (s : State) (a : Word) : (s.logStore a).regs = s.regs := rfl
@[simp] theorem State.flag_logStore (s : State) (a : Word) : (s.logStore a).flag = s.flag := rfl
@[simp] theorem State.data_logStore (s : State) (a : Word) : (s.logStore a).data = s.data := rfl
@[simp] theorem State.ifId_logStore (s : State) (a : Word) : (s.logStore a).ifId = s.ifId := rfl
@[simp] theorem State.idEx_logStore (s : State) (a : Word) : (s.logStore a).idEx = s.idEx := rfl
@[simp] theorem State.exMem_logStore (s : State) (a : Word) : (s.logStore a).exMem = s.exMem := rfl
@[simp] theorem State.memWb_logStore (s : State) (a : Word) : (s.logStore a).memWb = s.memWb := rfl
@[simp] theorem State.log_logStore (s : State) (a : Word) : (s.logStore a).log = s.log ++ [a] := rfl
@[simp] theorem State.done_logStore (s : State) (a : Word) : (s.logStore a).done = s.done := rfl
@[simp] theorem State.fatal_logStore (s : State) (a : Word) : (s.logStore a).fatal = s.fatal := rfl
@[simp] theorem State.code_logStore (s : State) (a : Word) : (s.logStore a).code = s.code := rfl
@[simp] theorem State.dataSize_logStore (s : State) (a : Word) : (s.logStore a).dataSize = s.dataSize := rfl
@[simp] theorem State.opcodes_logStore (s : State) (a : Word) : (s.logStore a).opcodes = s.opcodes := rfl
@[simp] theorem State.stage_logStore (s : State) (a : Word) : (s.logStore a).stage = s.stage := rfl
@[simp] theorem State.reg_logStore (s : State) (a : Word) (q : RegIndex) : (s.logStore a).reg q = s.reg q := rfl
@[simp] theorem State.pc_logStore (s : State) (a : Word) : (s.logStore a).pc = s.pc := rfl
@[simp] theorem State.codeRead_logStore (s : State) (a : Word) (i : Word) : (s.logStore a).codeRead i = s.codeRead i := rfl

@[simp] theorem State.regs_raiseFatal (s : State) (c : Fault) : (s.raiseFatal c).regs = s.regs := rfl
@[simp] theorem State.flag_raiseFatal (s : State) (c : Fault) : (s.raiseFatal c).flag = s.flag := rfl
@[simp] theorem State.data_raiseFatal (s : State) (c : Fault) : (s.raiseFatal c).data = s.data := rfl
@[simp] theorem State.ifId_raiseFatal (s : State) (c : Fault) : (s.raiseFatal c).ifId = s.ifId := rfl
@[simp] theorem State.idEx_raiseFatal (s : State) (c : Fault) : (s.raiseFatal c).idEx = s.idEx := rfl
@[simp] theorem State.exMem_raiseFatal (s : State) (c : Fault) : (s.raiseFatal c).exMem = s.exMem := rfl
@[simp] theorem State.memWb_raiseFatal (s : State) (c : Fault) : (s.raiseFatal c).memWb = s.memWb := rfl
@[simp] theorem State.log_raiseFatal (s : State) (c : Fault) : (s.raiseFatal c).log = s.log := rfl
@[simp] theorem State.done_raiseFatal (s : State) (c : Fault) : (s.raiseFatal c).done = s.done := rfl
@[simp] theorem State.fatal_raiseFatal (s : State) (c : Fault) : (s.raiseFatal c).fatal = some c := rfl
@[simp] theorem State.code_raiseFatal (s : State) (c : Fault) : (s.raiseFatal c).code = s.code := rfl
@[simp] theorem State.dataSize_raiseFatal (s : State) (c : Fault) : (s.raiseFatal c).dataSize = s.dataSize := rfl
@[simp] theorem State.opcodes_raiseFatal (s : State) (c : Fault) : (s.raiseFatal c).opcodes = s.opcodes := rfl
@[simp] theorem State.stage_raiseFatal (s : State) (c : Fault) : (s.raiseFatal c).stage = .fetch := rfl
@[simp] theorem State.reg_raiseFatal (s : State) (c : Fault) (q : RegIndex) : (s.raiseFatal c).reg q = s.reg q := rfl
@[simp] theorem State.pc_raiseFatal (s : State) (c : Fault) : (s.raiseFatal c).pc = s.pc := rfl
@[simp] theorem State.codeRead_raiseFatal (s : State) (c : Fault) (i : Word) : (s.raiseFatal c).codeRead i = s.codeRead i := rfl

@[simp] theorem State.regs_markDone (s : State) : (s.markDone).regs = s.regs := rfl
@[simp] theorem State.flag_markDone (s : State) : (s.markDone).flag = s.flag := rfl
@[simp] theorem State.data_markDone (s : State) : (s.markDone).data = s.data := rfl
@[simp] theorem State.ifId_markDone (s : State) : (s.markDone).ifId = s.ifId := rfl
@[simp] theorem State.idEx_markDone (s : State) : (s.markDone).idEx = s.idEx := rfl
@[simp] theorem State.exMem_markDone (s : State) : (s.markDone).exMem = s.exMem := rfl
@[simp] theorem State.memWb_markDone (s : State) : (s.markDone).memWb = s.memWb := rfl
@[simp] theorem State.log_markDone (s : State) : (s.markDone).log = s.log := rfl
@[simp] theorem State.done_markDone (s : State) : (s.markDone).done = s.drained := rfl
@[simp] theorem State.fatal_markDone (s : State) : (s.markDone).fatal = s.fatal := rfl
@[simp] theorem State.code_markDone (s : State) : (s.markDone).code = s.code := rfl
@[simp] theorem State.dataSize_markDone (s : State) : (s.markDone).dataSize = s.dataSize := rfl
@[simp] theorem State.opcodes_markDone (s : State) : (s.markDone).opcodes = s.opcodes := rfl
@[simp] theorem State.stage_markDone (s : State) : (s.markDone).stage = s.stage := rfl
@[simp] theorem State.reg_markDone (s : State) (q : RegIndex) : (s.markDone).reg q = s.reg q := rfl
@[simp] theorem State.pc_markDone (s : State) : (s.markDone).pc = s.pc := rfl
@[simp] theorem State.codeRead_markDone (s : State) (i : Word) : (s.markDone).codeRead i = s.codeRead i := rfl

@[simp] theorem State.regs_atStage (s : State) (st : Stage) : (s.atStage st).regs = s.regs := rfl
@[simp] theorem State.flag_atStage (s : State) (st : Stage) : (s.atStage st).flag = s.flag := rfl
@[simp] theorem State.data_atStage (s : State) (st : Stage) : (s.atStage st).data = s.data := rfl
@[simp] theorem State.ifId_atStage (s : State) (st : Stage) : (s.atStage st).ifId = s.ifId := rfl
@[simp] theorem State.idEx_atStage (s : State) (st : Stage) : (s.atStage st).idEx = s.idEx := rfl
@[simp] theorem State.exMem_atStage (s : State) (st : Stage) : (s.atStage st).exMem = s.exMem := rfl
@[simp] theorem State.memWb_atStage (s : State) (st : Stage) : (s.atStage st).memWb = s.memWb := rfl
@[simp] theorem State.log_atStage (s : State) (st : Stage) : (s.atStage st).log = s.log := rfl
@[simp] theorem State.done_atStage (s : State) (st : Stage) : (s.atStage st).done = s.done := rfl
@[simp] theorem State.fatal_atStage (s : State) (st : Stage) : (s.atStage st).fatal = s.fatal := rfl
@[simp] theorem State.code_atStage (s : State) (st : Stage) : (s.atStage st).code = s.code := rfl
@[simp] theorem State.dataSize_atStage (s : State) (st : Stage) : (s.atStage st).dataSize = s.dataSize := rfl
@[simp] theorem State.opcodes_atStage (s : State) (st : Stage) : (s.atStage st).opcodes = s.opcodes := rfl
@[simp] theorem State.stage_atStage (s : State) (st : Stage) : (s.atStage st).stage = st := rfl
@[simp] theorem State.reg_atStage (s : State) (st : Stage) (q : RegIndex) : (s.atStage st).reg q = s.reg q := rfl
@[simp] theorem State.pc_atStage (s : State) (st : Stage) : (s.atStage st).pc = s.pc := rfl
@[simp] theorem State.codeRead_atStage (s : State) (st : Stage) (i : Word) : (s.atStage st).codeRead i = s.codeRead i := rfl

@[simp] theorem State.regs_emptyPipeline (s : State) : (s.emptyPipeline).regs = s.regs := rfl
@[simp] theorem State.flag_emptyPipeline (s : State) : (s.emptyPipeline).flag = s.flag := rfl
@[simp] theorem State.data_emptyPipeline (s : State) : (s.emptyPipeline).data = s.data := rfl
@[simp] theorem State.ifId_emptyPipeline (s : State) : (s.emptyPipeline).ifId = none := rfl
@[simp] theorem State.idEx_emptyPipeline (s : State) : (s.emptyPipeline).idEx = none := rfl
@[simp] theorem State.exMem_emptyPipeline (s : State) : (s.emptyPipeline).exMem = none := rfl
@[simp] theorem State.memWb_emptyPipeline (s : State) : (s.emptyPipeline).memWb = none := rfl
@[simp] theorem State.log_emptyPipeline (s : State) : (s.emptyPipeline).log = s.log := rfl
@[simp] theorem State.done_emptyPipeline (s : State) : (s.emptyPipeline).done = s.done := rfl
@[simp] theorem State.fatal_emptyPipeline (s : State) : (s.emptyPipeline).fatal = s.fatal := rfl
@[simp] theorem State.code_emptyPipeline (s : State) : (s.emptyPipeline).code = s.code := rfl
@[simp] theorem State.dataSize_emptyPipeline (s : State) : (s.emptyPipeline).dataSize = s.dataSize := rfl
@[simp] theorem State.opcodes_emptyPipeline (s : State) : (s.emptyPipeline).opcodes = s.opcodes := rfl
@[simp] theorem State.stage_emptyPipeline (s : State) : (s.emptyPipeline).stage = s.stage := rfl
@[simp] theorem State.reg_emptyPipeline (s : State) (q : RegIndex) : (s.emptyPipeline).reg q = s.reg q := rfl
@[simp] theorem State.pc_emptyPipeline (s : State) : (s.emptyPipeline).pc = s.pc := rfl
@[simp] theorem State.codeRead_emptyPipeline (s : State) (i : Word) : (s.emptyPipeline).codeRead i = s.codeRead i := rfl

@[simp] theorem State.atStage_atStage (s : State) (a b : Stage) : (s.atStage a).atStage b = s.atStage b := rfl

/-- Entering the stage a state is in changes nothing. -/
theorem State.atStage_self (s : State) : s.atStage s.stage = s := rfl

/-! ## The reset state (R26, R260) -/

@[simp] theorem State.reg_reset (r : RegIndex) : State.reset.reg r = 0 := by
  simp [State.reg, State.reset, Config.resetX]

@[simp] theorem State.pc_reset : State.reset.pc = 0 := State.reg_reset _

end Sys2Proof.Machine
end

