-- ==== Sys2Proof/Laws/Ops.lean ====
section
/-! SUPPORT. What each shared operation can do: one lemma per operation and input, an equation with
its next state or its stop. Provers cite these instead of unfolding the operations. -/

namespace Sys2Proof.Machine

@[simp] theorem andThen_next (s : State) (f : State → Result) : andThen (.next s) f = f s := rfl
@[simp] theorem andThen_fault (c : Fault) (f : State → Result) : andThen (.fault c) f = .fault c := rfl
@[simp] theorem andThen_refused (r : Refusal) (f : State → Result) :
    andThen (.refused r) f = .refused r := rfl

/-- A sequence that answers a next state went through one. -/
theorem andThen_eq_next {o : Result} {f : State → Result} {t : State} (h : andThen o f = .next t) :
    ∃ s, o = .next s ∧ f s = .next t := by
  cases o with
  | next s => exact ⟨s, rfl, h⟩
  | fault c => cases h
  | refused r => cases h

/-! ## Code and data -/

theorem State.codeRead_ok {s : State} {i w : Word} (h : s.code[i.toNat]? = some w) :
    s.codeRead i = .ok w := by
  simp [State.codeRead, h]

theorem State.codeRead_out {s : State} {i : Word} (h : s.code.length ≤ i.toNat) :
    s.codeRead i = .error .fetchOutOfRange := by
  simp [State.codeRead, h]

/-- A code read answers the word there, or the index is outside the array (R32). -/
theorem State.codeRead_cases (s : State) (i : Word) :
    (∃ w, s.code[i.toNat]? = some w ∧ s.codeRead i = .ok w) ∨
    (s.code.length ≤ i.toNat ∧ s.codeRead i = .error .fetchOutOfRange) := by
  cases h : s.code[i.toNat]? with
  | some w => exact .inl ⟨w, rfl, State.codeRead_ok h⟩
  | none =>
    have : s.code.length ≤ i.toNat := by simpa using h
    exact .inr ⟨this, State.codeRead_out this⟩

theorem State.memRead_legal {s : State} {a : Word} (h : legalAddress s.dataSize a = true) :
    s.memRead a = .ok (s.data.readWord a.toNat) := by
  simp [State.memRead, h]

theorem State.memWrite_legal {s : State} {a : Word} (v : Word)
    (h : legalAddress s.dataSize a = true) :
    s.memWrite a v = .ok { s with data := s.data.writeWord a.toNat v } := by
  simp [State.memWrite, h]

/-! ## Fetch -/

theorem fetchAdvance_eq {s : State} {w : Word} (h : s.code[s.pc.toNat]? = some w) :
    fetchAdvance s = .next { s.setPc (s.pc + 1) with ifId := some ⟨s.pc + 1, w⟩ } := by
  simp [fetchAdvance, State.codeRead_ok h]

theorem fetchAdvance_out {s : State} (h : s.code.length ≤ s.pc.toNat) :
    fetchAdvance s = .fault .fetchOutOfRange := by
  simp [fetchAdvance, State.codeRead_out h]

theorem fetchHold_eq {s : State} {w : Word} (h : s.code[s.pc.toNat]? = some w) :
    fetchHold s = .next { s with ifId := none } := by
  simp [fetchHold, State.codeRead_ok h]

/-! ## Decode -/

theorem decodeTo_some {s : State} {r : IfId} (f : IfId → Operands) (h : s.ifId = some r) :
    decodeTo f s = .next { s with
      idEx := some ⟨r.nextPc, r.instr, (f r).operand1, (f r).operand2, (f r).ioOperand⟩ } := by
  simp [decodeTo, h]

theorem decodeBadIo_some {s : State} {r : IfId} (h : s.ifId = some r) :
    decodeBadIo s = .fault .badIoOpcode := by
  simp [decodeBadIo, h]

theorem decodeTo_none {s : State} (f : IfId → Operands) (h : s.ifId = none) :
    decodeTo f s = .next { s with idEx := none } := by
  simp [decodeTo, h]

/-! ## Execute -/

theorem executeTo_some {s : State} {r : IdEx} (taken : Bool) (f : IdEx → Word) (h : s.idEx = some r) :
    executeTo taken f s =
      .next { s with exMem := some ⟨r.nextPc, r.instr, taken, f r, r.ioOperand⟩ } := by
  simp [executeTo, h]

theorem executeTo_none {s : State} (taken : Bool) (f : IdEx → Word) (h : s.idEx = none) :
    executeTo taken f s = .next { s with exMem := none } := by
  simp [executeTo, h]

theorem executeFlag_some {s : State} {r : IdEx} (p : IdEx → Bool) (h : s.idEx = some r) :
    executeFlag p s = .next { s with
      flag := p r, exMem := some ⟨r.nextPc, r.instr, false, 0, r.ioOperand⟩ } := by
  simp [executeFlag, h]

theorem executeFlag_none {s : State} (p : IdEx → Bool) (h : s.idEx = none) :
    executeFlag p s = .next { s with exMem := none } := by
  simp [executeFlag, h]

theorem executeAddress_legal {s : State} {r : IdEx} (h : s.idEx = some r)
    (hl : legalAddress s.dataSize (effectiveAddress r) = true) :
    executeAddress s = .next { s with
      exMem := some ⟨r.nextPc, r.instr, false, effectiveAddress r, r.ioOperand⟩ } := by
  simp [executeAddress, executeTo, h, hl]

theorem executeAddress_illegal {s : State} {r : IdEx} (h : s.idEx = some r)
    (hl : legalAddress s.dataSize (effectiveAddress r) = false) :
    executeAddress s = .fault .dataAddressOutOfRange := by
  simp [executeAddress, h, hl]

theorem executeAddress_none {s : State} (h : s.idEx = none) :
    executeAddress s = .next { s with exMem := none } := by
  simp [executeAddress, h]

theorem executeUnknown_some {s : State} {r : IdEx} (h : s.idEx = some r) :
    executeUnknown s = .fault .unknownInstruction := by
  simp [executeUnknown, h]

/-! ## Memory-Access -/

theorem memoryPass_some {s : State} {r : ExMem} (h : s.exMem = some r) :
    memoryPass s = .next { s with memWb := some r.passed } := by
  simp [memoryPass, h]

theorem memoryPass_none {s : State} (h : s.exMem = none) :
    memoryPass s = .next { s with memWb := none } := by
  simp [memoryPass, h]

theorem memoryLoad_some {s : State} {r : ExMem} (h : s.exMem = some r)
    (hl : legalAddress s.dataSize r.result = true) :
    memoryLoad s = .next { s with
      memWb := some ⟨r.nextPc, r.instr, s.data.readWord r.result.toNat, r.ioOperand⟩ } := by
  simp [memoryLoad, h, State.memRead_legal hl, ExMem.passed]

theorem memoryStore_some {s : State} {r : ExMem} (h : s.exMem = some r)
    (hl : legalAddress s.dataSize r.result = true) :
    memoryStore s = .next { s with
      data := s.data.writeWord r.result.toNat r.ioOperand
      log := s.log ++ [r.result]
      memWb := some r.passed } := by
  simp [memoryStore, h, State.memWrite_legal _ hl, State.logStore]

theorem memoryRedirect_taken {s : State} {r : ExMem} {taken : ExMem → Bool} (h : s.exMem = some r)
    (ht : taken r = true) :
    memoryRedirect taken s = .next { s.setPc r.result with
      memWb := some ⟨r.result, r.instr, r.result, r.ioOperand⟩ } := by
  simp [memoryRedirect, h, ht, ExMem.passed]

theorem memoryRedirect_not_taken {s : State} {r : ExMem} {taken : ExMem → Bool} (h : s.exMem = some r)
    (ht : taken r = false) : memoryRedirect taken s = .next { s with memWb := some r.passed } := by
  simp [memoryRedirect, h, ht]

/-! ## Write-Back -/

theorem writeBackTo_some {s : State} {r : MemWb} (rd : RegIndex) (h : s.memWb = some r) :
    writeBackTo rd s = .next (s.setReg rd r.result) := by
  simp [writeBackTo, h]

theorem writeBackLoaded_some {s : State} {r : MemWb} (h : s.memWb = some r) :
    writeBackLoaded s = .next (s.setReg (ioRegister r.ioOperand) r.result) := by
  simp [writeBackLoaded, h]

/-- A zero-extended register index is that register (R123, R126). -/
@[simp] theorem ioRegister_setWidth (r : RegIndex) : ioRegister (r.setWidth 32) = r := by
  simp [ioRegister]

end Sys2Proof.Machine
end

