-- ==== Sys2Proof/Laws/Cycle.lean ====
section
/-! SUPPORT. What each stage of a cycle does, in closed form, whichever instruction its input carries:
the case analysis over the 36 meanings is done here once (spec/42_pipeline.md R120 to R127). -/

namespace Sys2Proof.Machine

/-- A stage runs the operation that the state's opcode map gives the word (R93). -/
theorem runWord_of_op {s : State} {w : Word} {op : Op} (h : opOfWord s.opcodes w = some op)
    (st : Stage) : runWord w (s.atStage st) = exec (instrOf op w) (s.atStage st) := by
  simp [runWord, decode_of_op h]

theorem runWord_of_unknown {s : State} {w : Word} (h : decodeType s.opcodes w = .unknown)
    (st : Stage) : runWord w (s.atStage st) = unknownWord (s.atStage st) := by
  simp [runWord, decode_of_unknown h]

theorem runWord_of_badIo {s : State} {w : Word} (h : isBadIo s.opcodes w = true) (st : Stage) :
    runWord w (s.atStage st) = badIoWord (s.atStage st) := by
  simp [runWord, decode_of_badIo h]

/-- A stage whose input carries a word runs that word. -/
theorem runStage_some {s : State} {st : Stage} {w : Word} (h : s.stageInput st = .ok (some w)) :
    runStage st s = runWord w (s.atStage st) := by
  simp [runStage, h]

/-- A stage whose input carries a word that decodes runs that instruction. -/
theorem runStage_decoded {s : State} {st : Stage} {w : Word} {i : Instr}
    (h : s.stageInput st = .ok (some w)) (hd : decodeWith s.opcodes w = .ok i) :
    runStage st s = exec i (s.atStage st) := by
  simp [runStage, h, runWord, hd]

/-! ## The meanings by type

Every meaning is its family's template; these eight lemmas replace the 36 arms of `exec`. -/

/-- The second source of a binary operation's word (R86). -/
def binarySource (op : Op) (w : Word) : Source :=
  if op.immediate then .imm (imm16Field w).toInt else .reg (fieldC w)

/-- The source of a unary operation's word (R87). -/
def unarySource (op : Op) (w : Word) : Source :=
  if op.immediate then .imm (imm21Field w).toInt else .reg (fieldB w)

/-- The second source of a compare operation's word (R88). -/
def compareSource (op : Op) (w : Word) : Source :=
  if op.immediate then .imm (imm21Field w).toInt else .reg (fieldB w)

/-- The target of a jump or branch operation's word (R89). -/
def transferTarget (op : Op) (w : Word) : Target :=
  if op.immediate then .offset (imm26Field w).toInt else .reg (fieldA w)

/-- The operation is one of the eight kinds of meaning. -/
inductive OpKind (op : Op) : Prop
  | binary (f : Word → Word → Word) (h : binaryFunction op = some f) (ht : op.type = .binaryArithmetic)
      (he : ∀ w s, exec (instrOf op w) s = binaryInstr f (fieldA w) (fieldB w) (binarySource op w) s)
  | unary (f : Word → Word) (h : unaryFunction op = some f) (ht : op.type = .unaryArithmetic)
      (he : ∀ w s, exec (instrOf op w) s = unaryInstr f (fieldA w) (unarySource op w) s)
  | compare (p : Word → Word → Bool) (h : comparePredicate op = some p) (ht : op.type = .compare)
      (he : ∀ w s, exec (instrOf op w) s = compareInstr p (fieldA w) (compareSource op w) s)
  | jump (ht : op.type = .jump)
      (he : ∀ w s, exec (instrOf op w) s = jumpInstr (transferTarget op w) s)
  | branch (ht : op.type = .branch)
      (he : ∀ w s, exec (instrOf op w) s = branchInstr (transferTarget op w) s)
  | load (h : op = .load)
  | store (h : op = .store)
  | misc (ht : op.type = .misc)
      (he : ∀ w s, s.stage ≠ .fetch → exec (instrOf op w) s = execNop s)

theorem opKind (op : Op) : OpKind op := by
  cases op
  case load => exact .load rfl
  case store => exact .store rfl
  case nop => exact .misc rfl fun _ _ _ => rfl
  case halt =>
    refine .misc rfl fun _ s hs => ?_
    cases h : s.stage <;> simp_all [exec, instrOf, execHalt, execNop]
  case jump | jumpi => exact .jump rfl fun _ _ => rfl
  case branch | branchi => exact .branch rfl fun _ _ => rfl
  case not | noti | mov | movi => exact .unary _ rfl rfl fun _ _ => rfl
  case ceq | ceqi | cltu | cltui | clts | cltsi | cgtu | cgtui | cgts | cgtsi =>
    exact .compare _ rfl rfl fun _ _ => rfl
  all_goals exact .binary _ rfl rfl fun _ _ => rfl

/-- An operation's function stands in the table of its own type only (R101). -/
theorem binaryFunction_none {op : Op} (h : op.type ≠ .binaryArithmetic) : binaryFunction op = none := by
  cases op <;> first | rfl | exact absurd rfl h

theorem unaryFunction_none {op : Op} (h : op.type ≠ .unaryArithmetic) : unaryFunction op = none := by
  cases op <;> first | rfl | exact absurd rfl h

theorem comparePredicate_none {op : Op} (h : op.type ≠ .compare) : comparePredicate op = none := by
  cases op <;> first | rfl | exact absurd rfl h

/-! ## Words by class -/

section words
variable {m : OpcodeMap} {w : Word}

theorem isStore_of_type (h : decodeType m w ≠ .io) : isStore m w = false := by
  simp only [isStore, decide_eq_false_iff_not]
  intro ho; exact h (decodeType_of_op ho)

theorem isLoad_of_type (h : decodeType m w ≠ .io) : isLoad m w = false := by
  simp only [isLoad, decide_eq_false_iff_not]
  intro ho; exact h (decodeType_of_op ho)

theorem isStore_of_badIo (h : isBadIo m w = true) : isStore m w = false := by
  simp [isStore, opOfWord_of_badIo h]

theorem isLoad_of_badIo (h : isBadIo m w = true) : isLoad m w = false := by
  simp [isLoad, opOfWord_of_badIo h]

/-- A word of type IO is a LOAD, a STORE, or neither (R234). -/
theorem isIo_eq : isIo m w = (decide (decodeType m w = .io) && !isBadIo m w) := by
  rcases word_cases m w with hu | hb | ⟨op, ho⟩
  · simp [isIo, isLoad, isStore, opOfWord_of_unknown hu, hu]
  · simp [isIo, isLoad, isStore, opOfWord_of_badIo hb, hb]
  · simp only [isIo, isLoad, isStore, ho, decodeType_of_op ho, (opOfWord_iff.1 ho).1]
    cases op <;> rfl

end words

/-! ## Write-Back (R126) -/

/-- Write-Back always goes on, and writes at most one register. -/
theorem runStage_writeBack (s : State) :
    runStage .writeBack s = .next (s.wroteBack.atStage .writeBack) := by
  rcases Option.eq_none_or_eq_some s.memWb with hr | ⟨r, hr⟩
  · simp [runStage, State.stageInput, hr, stageIdle, State.wroteBack]
  · have hr' : (s.atStage .writeBack).memWb = some r := hr
    rw [runStage_some (st := .writeBack) (w := r.instr) (by simp [State.stageInput, hr])]
    simp only [State.wroteBack, hr]
    rcases word_cases s.opcodes r.instr with hu | hb | ⟨op, ho⟩
    · simp [runWord_of_unknown hu, unknownWord, writeBackNothing, MemWb.target, hu]
    · simp [runWord_of_badIo hb, badIoWord, writeBackNothing, MemWb.target, decodeType_of_badIo hb,
        isLoad_of_badIo hb]
    · have hd := decodeType_of_op ho
      rw [runWord_of_op ho]
      cases opKind op with
      | binary f h ht he =>
        simp [he, binaryInstr, writeBackTo_some _ hr', MemWb.target, hd, ht]; rfl
      | unary f h ht he =>
        simp [he, unaryInstr, writeBackTo_some _ hr', MemWb.target, hd, ht]; rfl
      | compare p h ht he => simp [he, compareInstr, writeBackNothing, MemWb.target, hd, ht]
      | jump ht he => simp [he, jumpInstr, writeBackNothing, MemWb.target, hd, ht]
      | branch ht he => simp [he, branchInstr, writeBackNothing, MemWb.target, hd, ht]
      | load h =>
        subst h
        simp [exec, instrOf, execLoad, writeBackLoaded_some hr', MemWb.target, hd, Op.type, isLoad, ho]
        rfl
      | store h =>
        subst h
        simp [exec, instrOf, execStore, writeBackNothing, MemWb.target, hd, Op.type, isLoad, ho]
      | misc ht he =>
        rw [he _ _ (by simp)]
        simp [execNop, writeBackNothing, MemWb.target, hd, ht]

/-! ## Memory-Access (R125) -/

theorem ExMem.redirect_io (r : ExMem) {m : OpcodeMap} (h : decodeType m r.instr = .io) :
    r.redirect m = none := by
  simp [ExMem.redirect, h]

section accessed
variable {s : State} {r : ExMem} (hr : s.exMem = some r)
include hr

/-- Memory-Access of a record that neither accesses memory nor transfers. -/
theorem State.accessed_pass (h1 : isStore s.opcodes r.instr = false)
    (h2 : isLoad s.opcodes r.instr = false) (h3 : r.redirect s.opcodes = none) : s.accessed = { s with memWb := some r.passed } := by
  simp [State.accessed, hr, h1, h2, h3, ExMem.accessed, ExMem.passed]

/-- Memory-Access of a transfer that happens. -/
theorem State.accessed_redirect {a : Word} (h1 : isStore s.opcodes r.instr = false)
    (h2 : isLoad s.opcodes r.instr = false) (h3 : r.redirect s.opcodes = some a) :
    s.accessed = { s.setPc a with memWb := some ⟨a, r.instr, r.result, r.ioOperand⟩ } := by
  simp [State.accessed, hr, h1, h2, h3, ExMem.accessed, ExMem.passed]

/-- Memory-Access of LOAD. -/
theorem State.accessed_load (h : opOfWord s.opcodes r.instr = some .load) :
    s.accessed = { s with
      memWb := some ⟨r.nextPc, r.instr, s.data.readWord r.result.toNat, r.ioOperand⟩ } := by
  have h3 := r.redirect_io (decodeType_of_op h)
  simp [State.accessed, hr, isStore, isLoad, h, h3, ExMem.accessed, ExMem.passed]

/-- Memory-Access of STORE. -/
theorem State.accessed_store (h : opOfWord s.opcodes r.instr = some .store) :
    s.accessed = { s with
      data := s.data.writeWord r.result.toNat r.ioOperand
      log := s.log ++ [r.result]
      memWb := some r.passed } := by
  have h3 := r.redirect_io (decodeType_of_op h)
  simp [State.accessed, hr, isStore, isLoad, h, h3, ExMem.accessed, ExMem.passed]

end accessed

theorem ExMem.redirect_of_type {r : ExMem} {m : OpcodeMap}
    (h : decodeType m r.instr ≠ .jump ∧ decodeType m r.instr ≠ .branch) : r.redirect m = none := by
  unfold ExMem.redirect
  split <;> simp_all

/-- Memory-Access goes on whenever the address of a LOAD or STORE is legal. -/
theorem runStage_memoryAccess (s : State)
    (h : ∀ r, s.exMem = some r → isIo s.opcodes r.instr = true →
      legalAddress s.dataSize r.result = true) :
    runStage .memoryAccess s = .next (s.accessed.atStage .memoryAccess) := by
  rcases Option.eq_none_or_eq_some s.exMem with hr | ⟨r, hr⟩
  · simp [runStage, State.stageInput, hr, stageIdle, State.accessed]; rfl
  have hr' : (s.atStage .memoryAccess).exMem = some r := hr
  have hl := h r hr
  rw [runStage_some (st := .memoryAccess) (w := r.instr) (by simp [State.stageInput, hr])]
  have pass (ht : decodeType s.opcodes r.instr ≠ .jump ∧ decodeType s.opcodes r.instr ≠ .branch)
      (hs : isStore s.opcodes r.instr = false) (hl : isLoad s.opcodes r.instr = false) :
      memoryPass (s.atStage .memoryAccess) = .next (s.accessed.atStage .memoryAccess) := by
    rw [memoryPass_some hr', State.accessed_pass hr hs hl (ExMem.redirect_of_type ht)]
    rfl
  have passType (ht : decodeType s.opcodes r.instr ≠ .jump ∧ decodeType s.opcodes r.instr ≠ .branch ∧
      decodeType s.opcodes r.instr ≠ .io) :
      memoryPass (s.atStage .memoryAccess) = .next (s.accessed.atStage .memoryAccess) :=
    pass ⟨ht.1, ht.2.1⟩ (isStore_of_type ht.2.2) (isLoad_of_type ht.2.2)
  have transfer (taken : ExMem → Bool) (ht : decodeType s.opcodes r.instr ≠ .io)
      (hd : r.redirect s.opcodes = if taken r then some r.result else none) :
      memoryRedirect taken (s.atStage .memoryAccess) = .next (s.accessed.atStage .memoryAccess) := by
    cases hb : taken r with
    | true =>
      rw [memoryRedirect_taken hr' hb, State.accessed_redirect hr (isStore_of_type ht)
        (isLoad_of_type ht) (by rw [hd, hb]; rfl)]
      rfl
    | false =>
      rw [memoryRedirect_not_taken hr' hb, State.accessed_pass hr (isStore_of_type ht)
        (isLoad_of_type ht) (by rw [hd, hb]; rfl)]
      rfl
  rcases word_cases s.opcodes r.instr with hu | hb | ⟨op, ho⟩
  · rw [runWord_of_unknown hu]
    exact passType (by simp [hu])
  · rw [runWord_of_badIo hb]
    exact pass (by simp [decodeType_of_badIo hb]) (isStore_of_badIo hb) (isLoad_of_badIo hb)
  · have hd := decodeType_of_op ho
    rw [runWord_of_op ho]
    cases opKind op with
    | binary f h ht he => rw [he]; exact passType (by simp [hd, ht])
    | unary f h ht he => rw [he]; exact passType (by simp [hd, ht])
    | compare p h ht he => rw [he]; exact passType (by simp [hd, ht])
    | misc ht he => rw [he _ _ (by simp)]; exact passType (by simp [hd, ht])
    | jump ht he =>
      rw [he]
      exact transfer (fun _ => true) (by simp [hd, ht]) (by simp [ExMem.redirect, hd, ht])
    | branch ht he =>
      rw [he]
      exact transfer ExMem.branchTaken (by simp [hd, ht]) (by simp [ExMem.redirect, hd, ht])
    | load h =>
      subst h
      have hl' := hl (by simp [isIo, isLoad, isStore, ho])
      simp only [exec, instrOf, execLoad, State.stage_atStage]
      rw [memoryLoad_some hr' hl', State.accessed_load hr ho]
      rfl
    | store h =>
      subst h
      have hl' := hl (by simp [isIo, isLoad, isStore, ho])
      simp only [exec, instrOf, execStore, State.stage_atStage]
      rw [memoryStore_some hr' hl', State.accessed_store hr ho]
      rfl

/-! ## Execute (R124) -/

theorem runStage_execute_none (s : State) (hr : s.idEx = none) :
    runStage .execute s = .next ({ s with exMem := none }.atStage .execute) := by
  simp [runStage, State.stageInput, hr, stageIdle]; rfl

/-- Execute stops exactly as `IdEx.stop` says, and otherwise writes the flag and its result. -/
theorem runStage_execute_some (s : State) (r : IdEx) (hr : s.idEx = some r) :
    runStage .execute s =
      match r.stop s.opcodes s.dataSize with
      | some c => .fault c
      | none => .next
          ({ s with
            flag := r.flagAfter s.opcodes s.flag
            exMem := some (r.executed s.opcodes s.flag) }.atStage .execute) := by
  have hr' : (s.atStage .execute).idEx = some r := hr
  rw [runStage_some (st := .execute) (w := r.instr) (by simp [State.stageInput, hr])]
  rcases word_cases s.opcodes r.instr with hu | hb | ⟨op, ho⟩
  · simp [runWord_of_unknown hu, unknownWord, executeUnknown_some hr', IdEx.stop, hu]
  · have ho := opOfWord_of_badIo hb
    have hd := decodeType_of_badIo hb
    simp only [runWord_of_badIo hb, badIoWord, State.stage_atStage, IdEx.stop, hd]
    cases hl : legalAddress s.dataSize (r.operand1 + r.operand2) with
    | false => rw [executeAddress_illegal hr' hl]; rfl
    | true =>
      rw [executeAddress_legal hr' hl]
      simp [IdEx.flagAfter, ho, IdEx.executed, IdEx.taken, hd, IdEx.result, effectiveAddress]
      rfl
  · have hd := decodeType_of_op ho
    rw [runWord_of_op ho]
    cases opKind op with
    | binary f h ht he =>
      have hc := comparePredicate_none (op := op) (by simp [ht])
      simp [he, binaryInstr, executeTo_some _ _ hr', IdEx.stop, hd, ht, IdEx.flagAfter, ho, hc, h,
        IdEx.executed, IdEx.taken, IdEx.result]
      rfl
    | unary f h ht he =>
      have hc := comparePredicate_none (op := op) (by simp [ht])
      have hb := binaryFunction_none (op := op) (by simp [ht])
      simp [he, unaryInstr, executeTo_some _ _ hr', IdEx.stop, hd, ht, IdEx.flagAfter, ho, hc, hb, h,
        IdEx.executed, IdEx.taken, IdEx.result]
      rfl
    | compare p h ht he =>
      have hb := binaryFunction_none (op := op) (by simp [ht])
      have hu := unaryFunction_none (op := op) (by simp [ht])
      simp [he, compareInstr, executeFlag_some _ hr', IdEx.stop, hd, ht, IdEx.flagAfter, ho, hb, hu, h,
        IdEx.executed, IdEx.taken, IdEx.result]
      rfl
    | jump ht he =>
      have hb := binaryFunction_none (op := op) (by simp [ht])
      have hu := unaryFunction_none (op := op) (by simp [ht])
      have hc := comparePredicate_none (op := op) (by simp [ht])
      simp [he, jumpInstr, executeTo_some _ _ hr', IdEx.stop, hd, ht, IdEx.flagAfter, ho, hb, hu, hc,
        IdEx.executed, IdEx.taken, IdEx.result]
      rfl
    | branch ht he =>
      have hb := binaryFunction_none (op := op) (by simp [ht])
      have hu := unaryFunction_none (op := op) (by simp [ht])
      have hc := comparePredicate_none (op := op) (by simp [ht])
      simp [he, branchInstr, executeTo_some _ _ hr', IdEx.stop, hd, ht, IdEx.flagAfter, ho, hb, hu, hc,
        IdEx.executed, IdEx.taken, IdEx.result]
      rfl
    | misc ht he =>
      have hb := binaryFunction_none (op := op) (by simp [ht])
      have hu := unaryFunction_none (op := op) (by simp [ht])
      have hc := comparePredicate_none (op := op) (by simp [ht])
      rw [he _ _ (by simp)]
      simp [execNop, executeTo_some _ _ hr', IdEx.stop, hd, ht, IdEx.flagAfter, ho, hb, hu, hc,
        IdEx.executed, IdEx.taken, IdEx.result]
      rfl
    | load h | store h =>
      subst h
      simp only [exec, instrOf, execLoad, execStore, State.stage_atStage, IdEx.stop, hd, Op.type]
      cases hl : legalAddress s.dataSize (r.operand1 + r.operand2) with
      | false => rw [executeAddress_illegal hr' hl]; rfl
      | true =>
        rw [executeAddress_legal hr' hl]
        simp [IdEx.flagAfter, ho, comparePredicate, IdEx.executed, IdEx.taken, hd, Op.type, IdEx.result,
          binaryFunction, unaryFunction, effectiveAddress]
        rfl

/-! ## Decode (R122, R123) -/

/-- Decode of an IO-typed word that is neither LOAD nor STORE stops (R234). -/
theorem runStage_decode_badIo (s : State) {r : IfId} (hr : s.ifId = some r)
    (hb : isBadIo s.opcodes r.instr = true) : runStage .decode s = .fault .badIoOpcode := by
  rw [runStage_some (st := .decode) (w := r.instr) (by simp [State.stageInput, hr]),
    runWord_of_badIo hb]
  exact decodeBadIo_some hr

/-- Any other word's operands are resolved. -/
theorem runStage_decode (s : State) (h : ∀ r, s.ifId = some r → r.stop s.opcodes = none) :
    runStage .decode s =
      .next ({ s with idEx := s.ifId.map (IfId.decoded · s) }.atStage .decode) := by
  rcases Option.eq_none_or_eq_some s.ifId with hr | ⟨r, hr⟩
  · simp [runStage, State.stageInput, hr, stageIdle]; rfl
  · have hr' : (s.atStage .decode).ifId = some r := hr
    have hm : (s.ifId.map (IfId.decoded · s)) = some (r.decoded s) := by simp [hr]
    rw [runStage_some (st := .decode) (w := r.instr) (by simp [State.stageInput, hr]), hm]
    rcases word_cases s.opcodes r.instr with hu | hb | ⟨op, ho⟩
    · rw [runWord_of_unknown hu]
      simp [unknownWord, decodeTo_some _ hr', IfId.decoded, IfId.operands, opOfWord_of_unknown hu,
        noOperands]
      rfl
    · have := h r hr
      simp [IfId.stop, hb] at this
    · rw [runWord_of_op ho]
      have go (f : IfId → Operands) (hf : f r = operandsOf (instrOf op r.instr) r s) :
          decodeTo f (s.atStage .decode) =
            .next ({ s with idEx := some (r.decoded s) }.atStage .decode) := by
        rw [decodeTo_some _ hr', hf]
        simp [IfId.decoded, IfId.operands, ho]
        rfl
      cases op <;> refine go _ ?_ <;> rfl

/-! ## Fetch (R121) -/

/-- Fetch of a word that is not HALT. -/
theorem runStage_fetch_advance (s : State) (w : Word) (h : s.code[s.pc.toNat]? = some w)
    (hw : isHalt s.opcodes w = false) :
    runStage .fetch s =
      .next ({ s.setPc (s.pc + 1) with ifId := some ⟨s.pc + 1, w⟩ }.atStage .fetch) := by
  have h' : (s.atStage .fetch).code[(s.atStage .fetch).pc.toNat]? = some w := h
  simp only [isHalt, decide_eq_false_iff_not] at hw
  simp only [runStage, State.stageInput, State.codeRead_ok h]
  have go : fetchAdvance (s.atStage .fetch) =
      .next ({ s.setPc (s.pc + 1) with ifId := some ⟨s.pc + 1, w⟩ }.atStage .fetch) := by
    rw [fetchAdvance_eq h']; rfl
  rcases word_cases s.opcodes w with hu | hb | ⟨op, ho⟩
  · simpa [runWord_of_unknown hu, unknownWord] using go
  · simpa [runWord_of_badIo hb, badIoWord] using go
  · rw [runWord_of_op ho]
    cases op <;> first | exact go | exact absurd ho hw

/-- Fetch of HALT. -/
theorem runStage_fetch_halt (s : State) (w : Word) (h : s.code[s.pc.toNat]? = some w)
    (hw : isHalt s.opcodes w = true) :
    runStage .fetch s = .next ({ s with ifId := none }.atStage .fetch) := by
  have h' : (s.atStage .fetch).code[(s.atStage .fetch).pc.toNat]? = some w := h
  simp only [isHalt, decide_eq_true_eq] at hw
  simp only [runStage, State.stageInput, State.codeRead_ok h, runWord_of_op hw]
  simp only [exec, instrOf, execHalt, State.stage_atStage]
  rw [fetchHold_eq h']; rfl

/-- Fetch outside the code array. -/
theorem runStage_fetch_out (s : State) (h : s.code.length ≤ s.pc.toNat) :
    runStage .fetch s = .fault .fetchOutOfRange := by
  simp [runStage, State.stageInput, State.codeRead_out h]

end Sys2Proof.Machine
end

