-- ==== Sys2Proof/Laws/PerInstr.lean ====
section
/-! SUPPORT. Statements about every instruction, one lemma per constructor. `EncodeOpcode`: the encoder
puts the instruction's own opcode in bits [5:0] (spec/30_encoding.md R51), whatever its operands. -/

namespace Sys2Proof.Laws.EncodeOpcode

def Statement (i : Instr) : Prop := ∀ m : OpcodeMap, opcodeField (encodeWith m i) = m.opcodeOf i.op

theorem add (rd rs1 rs2 : RegIndex) : Statement (.add rd rs1 rs2) := fun _ => opcodeField_formatBR _ _ _ _
theorem addi (rd rs1 : RegIndex) (imm : Int) : Statement (.addi rd rs1 imm) := fun _ => opcodeField_formatBI _ _ _ _
theorem sub (rd rs1 rs2 : RegIndex) : Statement (.sub rd rs1 rs2) := fun _ => opcodeField_formatBR _ _ _ _
theorem subi (rd rs1 : RegIndex) (imm : Int) : Statement (.subi rd rs1 imm) := fun _ => opcodeField_formatBI _ _ _ _
theorem and (rd rs1 rs2 : RegIndex) : Statement (.and rd rs1 rs2) := fun _ => opcodeField_formatBR _ _ _ _
theorem andi (rd rs1 : RegIndex) (imm : Int) : Statement (.andi rd rs1 imm) := fun _ => opcodeField_formatBI _ _ _ _
theorem or (rd rs1 rs2 : RegIndex) : Statement (.or rd rs1 rs2) := fun _ => opcodeField_formatBR _ _ _ _
theorem ori (rd rs1 : RegIndex) (imm : Int) : Statement (.ori rd rs1 imm) := fun _ => opcodeField_formatBI _ _ _ _
theorem shl (rd rs1 rs2 : RegIndex) : Statement (.shl rd rs1 rs2) := fun _ => opcodeField_formatBR _ _ _ _
theorem shli (rd rs1 : RegIndex) (imm : Int) : Statement (.shli rd rs1 imm) := fun _ => opcodeField_formatBI _ _ _ _
theorem shra (rd rs1 rs2 : RegIndex) : Statement (.shra rd rs1 rs2) := fun _ => opcodeField_formatBR _ _ _ _
theorem shrai (rd rs1 : RegIndex) (imm : Int) : Statement (.shrai rd rs1 imm) := fun _ => opcodeField_formatBI _ _ _ _
theorem shrl (rd rs1 rs2 : RegIndex) : Statement (.shrl rd rs1 rs2) := fun _ => opcodeField_formatBR _ _ _ _
theorem shrli (rd rs1 : RegIndex) (imm : Int) : Statement (.shrli rd rs1 imm) := fun _ => opcodeField_formatBI _ _ _ _
theorem not (rd rs : RegIndex) : Statement (.not rd rs) := fun _ => opcodeField_formatUR _ _ _
theorem noti (rd : RegIndex) (imm : Int) : Statement (.noti rd imm) := fun _ => opcodeField_formatUI _ _ _
theorem mov (rd rs : RegIndex) : Statement (.mov rd rs) := fun _ => opcodeField_formatUR _ _ _
theorem movi (rd : RegIndex) (imm : Int) : Statement (.movi rd imm) := fun _ => opcodeField_formatUI _ _ _
theorem ceq (rd rs : RegIndex) : Statement (.ceq rd rs) := fun _ => opcodeField_formatUR _ _ _
theorem ceqi (rd : RegIndex) (imm : Int) : Statement (.ceqi rd imm) := fun _ => opcodeField_formatUI _ _ _
theorem cltu (rd rs : RegIndex) : Statement (.cltu rd rs) := fun _ => opcodeField_formatUR _ _ _
theorem cltui (rd : RegIndex) (imm : Int) : Statement (.cltui rd imm) := fun _ => opcodeField_formatUI _ _ _
theorem clts (rd rs : RegIndex) : Statement (.clts rd rs) := fun _ => opcodeField_formatUR _ _ _
theorem cltsi (rd : RegIndex) (imm : Int) : Statement (.cltsi rd imm) := fun _ => opcodeField_formatUI _ _ _
theorem cgtu (rd rs : RegIndex) : Statement (.cgtu rd rs) := fun _ => opcodeField_formatUR _ _ _
theorem cgtui (rd : RegIndex) (imm : Int) : Statement (.cgtui rd imm) := fun _ => opcodeField_formatUI _ _ _
theorem cgts (rd rs : RegIndex) : Statement (.cgts rd rs) := fun _ => opcodeField_formatUR _ _ _
theorem cgtsi (rd : RegIndex) (imm : Int) : Statement (.cgtsi rd imm) := fun _ => opcodeField_formatUI _ _ _
theorem jump (rs : RegIndex) : Statement (.jump rs) := fun _ => opcodeField_formatJR _ _
theorem jumpi (off : Int) : Statement (.jumpi off) := fun _ => opcodeField_formatJI _ _
theorem branch (rs : RegIndex) : Statement (.branch rs) := fun _ => opcodeField_formatJR _ _
theorem branchi (off : Int) : Statement (.branchi off) := fun _ => opcodeField_formatJI _ _
theorem load (rd rs1 : RegIndex) (imm : Int) : Statement (.load rd rs1 imm) := fun _ => opcodeField_formatBI _ _ _ _
theorem store (rd rs1 : RegIndex) (imm : Int) : Statement (.store rd rs1 imm) := fun _ => opcodeField_formatBI _ _ _ _
theorem nop : Statement .nop := fun _ => opcodeField_formatM _
theorem halt : Statement .halt := fun _ => opcodeField_formatM _

end Sys2Proof.Laws.EncodeOpcode
end

