-- ==== Sys2Proof/Laws/WholeCycle.lean ====
section
/-! SUPPORT. What a whole cycle can do: it stops in Memory-Access, in Execute, in Decode or in Fetch, or it
answers one next state, whose fields are given one by one (spec/42_pipeline.md R127, R128, R133). The
invariants and whole-machine rules follow from these lemmas. -/

namespace Sys2Proof.Machine

/-! ## The stages' results as functions -/

/-- The state after Execute, if it does not stop. -/
def State.executed (s : State) : State :=
  match s.idEx with
  | some r => { s with
      flag := r.flagAfter s.opcodes s.flag
      exMem := some (r.executed s.opcodes s.flag) }
  | none => { s with exMem := none }

/-- The state after Decode. -/
def State.decoded (s : State) : State := { s with idEx := s.ifId.map (IfId.decoded · s) }

/-- The state after Fetch of `w`. -/
def State.fetched (s : State) (w : Word) : State :=
  if isHalt s.opcodes w then { s with ifId := none }
  else { s.setPc (s.pc + 1) with ifId := some ⟨s.pc + 1, w⟩ }

/-- The state after a cycle that fetches `w`. -/
def State.afterCycle (s : State) (w : Word) : State :=
  ((s.wroteBack.accessed.executed.decoded.fetched w).markDone).atStage .fetch

/-! ## The cursor does not matter inside a stage -/

theorem State.wroteBack_atStage (s : State) (st : Stage) :
    (s.atStage st).wroteBack = s.wroteBack.atStage st := by
  simp only [State.wroteBack, State.memWb_atStage, State.opcodes_atStage]
  split
  · split <;> rfl
  · rfl

theorem State.accessed_atStage (s : State) (st : Stage) :
    (s.atStage st).accessed = s.accessed.atStage st := by
  simp only [State.accessed, State.exMem_atStage, State.opcodes_atStage, State.data_atStage]
  rcases s.exMem with _ | r
  · rfl
  · by_cases hs : isStore s.opcodes r.instr = true
    · simp only [hs, if_true]; rfl
    · rcases Option.eq_none_or_eq_some (r.redirect s.opcodes) with hd | ⟨a, hd⟩ <;>
        simp only [hs, hd] <;> rfl

theorem State.executed_atStage (s : State) (st : Stage) :
    (s.atStage st).executed = s.executed.atStage st := by
  simp only [State.executed, State.idEx_atStage, State.opcodes_atStage]
  split <;> rfl

/-- Operands depend on the register file alone. -/
theorem operandsOf_of_regs {s t : State} (h : s.regs = t.regs) (i : Instr) (r : IfId) :
    operandsOf i r s = operandsOf i r t := by
  have hr := State.reg_of_regs h
  cases i <;> simp [operandsOf, binaryOperands, unaryOperands, compareOperands, targetOperands,
    loadOperands, storeOperands, Source.value, hr]

/-- Decode of a record depends on the register file and the opcode map alone. -/
theorem IfId.decoded_of_regs {s t : State} (h : s.regs = t.regs) (hm : s.opcodes = t.opcodes)
    (r : IfId) : r.decoded s = r.decoded t := by
  have : r.operands s = r.operands t := by
    unfold IfId.operands
    rw [hm]
    split
    · exact operandsOf_of_regs h _ r
    · rfl
  simp [IfId.decoded, this]

theorem State.decoded_atStage (s : State) (st : Stage) :
    (s.atStage st).decoded = s.decoded.atStage st := rfl

theorem State.fetched_atStage (s : State) (w : Word) (st : Stage) :
    (s.atStage st).fetched w = (s.fetched w).atStage st := by
  by_cases h : isHalt s.opcodes w = true
  · simp only [State.fetched, State.opcodes_atStage, h, if_true]; rfl
  · simp only [State.fetched, State.opcodes_atStage, h]; rfl

/-! ## Fields after Write-Back -/

theorem State.wroteBack_cases (s : State) :
    s.wroteBack = s ∨ ∃ d v, s.wroteBack = s.setReg d v := by
  unfold State.wroteBack
  split
  · split
    · exact .inr ⟨_, _, rfl⟩
    · exact .inl rfl
  · exact .inl rfl

section
variable (s : State)

/-- Write-Back leaves all but the register file alone. -/
theorem State.wroteBack_keeps :
    s.wroteBack.flag = s.flag ∧ s.wroteBack.data = s.data ∧ s.wroteBack.ifId = s.ifId ∧
    s.wroteBack.idEx = s.idEx ∧ s.wroteBack.exMem = s.exMem ∧ s.wroteBack.memWb = s.memWb ∧
    s.wroteBack.log = s.log ∧ s.wroteBack.done = s.done ∧ s.wroteBack.fatal = s.fatal ∧
    s.wroteBack.code = s.code ∧ s.wroteBack.dataSize = s.dataSize ∧ s.wroteBack.stage = s.stage ∧
    s.wroteBack.opcodes = s.opcodes := by
  rcases s.wroteBack_cases with h | ⟨_, _, h⟩ <;> rw [h] <;>
    exact ⟨rfl, rfl, rfl, rfl, rfl, rfl, rfl, rfl, rfl, rfl, rfl, rfl, rfl⟩

@[simp] theorem State.flag_wroteBack : s.wroteBack.flag = s.flag :=
  s.wroteBack_keeps.1
@[simp] theorem State.data_wroteBack : s.wroteBack.data = s.data :=
  s.wroteBack_keeps.2.1
@[simp] theorem State.ifId_wroteBack : s.wroteBack.ifId = s.ifId :=
  s.wroteBack_keeps.2.2.1
@[simp] theorem State.idEx_wroteBack : s.wroteBack.idEx = s.idEx :=
  s.wroteBack_keeps.2.2.2.1
@[simp] theorem State.exMem_wroteBack : s.wroteBack.exMem = s.exMem :=
  s.wroteBack_keeps.2.2.2.2.1
@[simp] theorem State.memWb_wroteBack : s.wroteBack.memWb = s.memWb :=
  s.wroteBack_keeps.2.2.2.2.2.1
@[simp] theorem State.log_wroteBack : s.wroteBack.log = s.log :=
  s.wroteBack_keeps.2.2.2.2.2.2.1
@[simp] theorem State.done_wroteBack : s.wroteBack.done = s.done :=
  s.wroteBack_keeps.2.2.2.2.2.2.2.1
@[simp] theorem State.fatal_wroteBack : s.wroteBack.fatal = s.fatal :=
  s.wroteBack_keeps.2.2.2.2.2.2.2.2.1
@[simp] theorem State.code_wroteBack : s.wroteBack.code = s.code :=
  s.wroteBack_keeps.2.2.2.2.2.2.2.2.2.1
@[simp] theorem State.dataSize_wroteBack : s.wroteBack.dataSize = s.dataSize :=
  s.wroteBack_keeps.2.2.2.2.2.2.2.2.2.2.1
@[simp] theorem State.stage_wroteBack : s.wroteBack.stage = s.stage :=
  s.wroteBack_keeps.2.2.2.2.2.2.2.2.2.2.2.1
@[simp] theorem State.opcodes_wroteBack : s.wroteBack.opcodes = s.opcodes :=
  s.wroteBack_keeps.2.2.2.2.2.2.2.2.2.2.2.2

/-- A register after Write-Back: the result if it is the target, unchanged otherwise (R126). -/
theorem State.reg_wroteBack (q : RegIndex) :
    s.wroteBack.reg q =
      match s.memWb with
      | some r => if r.target s.opcodes = some q then r.result else s.reg q
      | none => s.reg q := by
  rcases Option.eq_none_or_eq_some s.memWb with h | ⟨r, h⟩
  · simp [State.wroteBack, h]
  · rcases Option.eq_none_or_eq_some (r.target s.opcodes) with hd | ⟨d, hd⟩
    · simp [State.wroteBack, h, hd]
    · simp [State.wroteBack, h, hd, eq_comm]

/-! ## Fields after Memory-Access -/

/-- Memory-Access leaves the flag, the other pipeline registers, the marks and the parameters alone. -/
theorem State.accessed_keeps :
    s.accessed.flag = s.flag ∧ s.accessed.ifId = s.ifId ∧ s.accessed.idEx = s.idEx ∧
    s.accessed.exMem = s.exMem ∧ s.accessed.done = s.done ∧ s.accessed.fatal = s.fatal ∧
    s.accessed.code = s.code ∧ s.accessed.dataSize = s.dataSize ∧ s.accessed.stage = s.stage ∧
    s.accessed.opcodes = s.opcodes := by
  unfold State.accessed
  split
  · split
    · exact ⟨rfl, rfl, rfl, rfl, rfl, rfl, rfl, rfl, rfl, rfl⟩
    · split <;> exact ⟨rfl, rfl, rfl, rfl, rfl, rfl, rfl, rfl, rfl, rfl⟩
  · exact ⟨rfl, rfl, rfl, rfl, rfl, rfl, rfl, rfl, rfl, rfl⟩

@[simp] theorem State.flag_accessed : s.accessed.flag = s.flag :=
  s.accessed_keeps.1
@[simp] theorem State.ifId_accessed : s.accessed.ifId = s.ifId :=
  s.accessed_keeps.2.1
@[simp] theorem State.idEx_accessed : s.accessed.idEx = s.idEx :=
  s.accessed_keeps.2.2.1
@[simp] theorem State.exMem_accessed : s.accessed.exMem = s.exMem :=
  s.accessed_keeps.2.2.2.1
@[simp] theorem State.done_accessed : s.accessed.done = s.done :=
  s.accessed_keeps.2.2.2.2.1
@[simp] theorem State.fatal_accessed : s.accessed.fatal = s.fatal :=
  s.accessed_keeps.2.2.2.2.2.1
@[simp] theorem State.code_accessed : s.accessed.code = s.code :=
  s.accessed_keeps.2.2.2.2.2.2.1
@[simp] theorem State.dataSize_accessed : s.accessed.dataSize = s.dataSize :=
  s.accessed_keeps.2.2.2.2.2.2.2.1
@[simp] theorem State.stage_accessed : s.accessed.stage = s.stage :=
  s.accessed_keeps.2.2.2.2.2.2.2.2.1
@[simp] theorem State.opcodes_accessed : s.accessed.opcodes = s.opcodes :=
  s.accessed_keeps.2.2.2.2.2.2.2.2.2

theorem State.memWb_accessed : s.accessed.memWb = s.exMem.map (ExMem.accessed · s.opcodes s.data) := by
  rcases Option.eq_none_or_eq_some s.exMem with h | ⟨r, h⟩ <;> simp [State.accessed, h]

theorem State.data_accessed :
    s.accessed.data =
      match s.exMem with
      | some r =>
        if isStore s.opcodes r.instr then s.data.writeWord r.result.toNat r.ioOperand else s.data
      | none => s.data := by
  rcases Option.eq_none_or_eq_some s.exMem with h | ⟨r, h⟩
  · simp [State.accessed, h]
  · simp only [State.accessed, h]
    split
    · rfl
    · split <;> rfl

theorem State.log_accessed :
    s.accessed.log =
      match s.exMem with
      | some r => if isStore s.opcodes r.instr then s.log ++ [r.result] else s.log
      | none => s.log := by
  rcases Option.eq_none_or_eq_some s.exMem with h | ⟨r, h⟩
  · simp [State.accessed, h]
  · simp only [State.accessed, h]
    split
    · rfl
    · split <;> rfl

theorem ExMem.redirect_of_store {r : ExMem} {m : OpcodeMap} (h : isStore m r.instr = true) :
    r.redirect m = none := by
  simp only [isStore, decide_eq_true_eq] at h
  exact r.redirect_io (decodeType_of_op h)

/-- A register after Memory-Access: only a transfer changes one, the program counter (R125). -/
theorem State.reg_accessed (q : RegIndex) :
    s.accessed.reg q =
      if q = Config.pcIndex then (s.exMem.bind (ExMem.redirect · s.opcodes)).getD s.pc else s.reg q := by
  rcases Option.eq_none_or_eq_some s.exMem with h | ⟨r, h⟩
  · simp only [State.accessed, h, State.reg_mk, Option.bind_none, Option.getD_none]
    split
    · subst_vars; rfl
    · rfl
  · simp only [State.accessed, h, Option.bind_some]
    cases hs : isStore s.opcodes r.instr with
    | true =>
      simp only [if_true, ExMem.redirect_of_store hs, Option.getD_none]
      split
      · subst_vars; rfl
      · rfl
    | false =>
      cases hd : r.redirect s.opcodes with
      | none =>
        simp only [Bool.false_eq_true, if_false, Option.getD_none]
        split
        · subst_vars; rfl
        · rfl
      | some a =>
        simp only [Bool.false_eq_true, if_false, Option.getD_some]
        exact State.reg_setPc s q a

/-- A register as Decode reads it (R122, R128). -/
theorem State.reg_decode (q : RegIndex) : s.wroteBack.accessed.reg q = s.decodeReg q := by
  rw [State.reg_accessed, State.exMem_wroteBack, State.opcodes_wroteBack, State.decodeReg,
    State.redirectedPc]
  cases s.exMem.bind (ExMem.redirect · s.opcodes) <;> rfl

/-- The program counter as Decode reads it and Fetch uses it. -/
theorem State.pc_decode : s.wroteBack.accessed.pc = s.redirectedPc := by
  have := s.reg_decode Config.pcIndex
  rwa [State.decodeReg, if_pos rfl] at this

/-! ## Fields after Execute and Decode -/

theorem State.executed_eq :
    s.executed = { s with
      flag := (s.idEx.map (IdEx.flagAfter · s.opcodes s.flag)).getD s.flag
      exMem := s.idEx.map (IdEx.executed · s.opcodes s.flag) } := by
  rcases Option.eq_none_or_eq_some s.idEx with h | ⟨r, h⟩ <;> simp [State.executed, h]

/-- Execute leaves the record before Decode, the program counter and the parameters alone. -/
theorem State.executed_keeps :
    s.executed.opcodes = s.opcodes ∧ s.executed.ifId = s.ifId ∧ s.executed.code = s.code ∧
    s.executed.pc = s.pc := by
  rw [State.executed_eq]; exact ⟨rfl, rfl, rfl, rfl⟩

/-! ## Fields after the whole cycle -/

variable (w : Word)

theorem State.afterCycle_eq :
    s.afterCycle w =
      { regs := (if isHalt s.opcodes w then s.wroteBack.accessed
          else s.wroteBack.accessed.setPc (s.redirectedPc + 1)).regs
        flag := (s.idEx.map (IdEx.flagAfter · s.opcodes s.flag)).getD s.flag
        data := s.wroteBack.accessed.data
        ifId := if isHalt s.opcodes w then none else some ⟨s.redirectedPc + 1, w⟩
        idEx := s.ifId.map (IfId.decoded · s.wroteBack.accessed)
        exMem := s.idEx.map (IdEx.executed · s.opcodes s.flag)
        memWb := s.exMem.map (ExMem.accessed · s.opcodes s.data)
        log := s.wroteBack.accessed.log
        done := (s.afterCycle w).drained
        fatal := s.fatal
        code := s.code
        dataSize := s.dataSize
        opcodes := s.opcodes
        stage := .fetch } := by
  have hpc := s.pc_decode
  simp only [State.afterCycle, State.fetched, State.decoded, State.executed_eq]
  cases h : isHalt s.opcodes w <;>
    simp [h, State.markDone, State.atStage, State.memWb_accessed, State.drained, State.setPc,
      State.setReg, hpc]
  · refine congrFun (congrArg Option.map ?_) _
    funext r
    apply IfId.decoded_of_regs
    · rfl
    · simp
  · refine congrFun (congrArg Option.map ?_) _
    funext r
    apply IfId.decoded_of_regs
    · rfl
    · simp

theorem State.flag_afterCycle :
    (s.afterCycle w).flag = (s.idEx.map (IdEx.flagAfter · s.opcodes s.flag)).getD s.flag := by
  rw [State.afterCycle_eq]

theorem State.ifId_afterCycle :
    (s.afterCycle w).ifId = if isHalt s.opcodes w then none else some ⟨s.redirectedPc + 1, w⟩ := by
  rw [State.afterCycle_eq]

theorem State.idEx_afterCycle :
    (s.afterCycle w).idEx = s.ifId.map (IfId.decoded · s.wroteBack.accessed) := by
  rw [State.afterCycle_eq]

theorem State.exMem_afterCycle :
    (s.afterCycle w).exMem = s.idEx.map (IdEx.executed · s.opcodes s.flag) := by
  rw [State.afterCycle_eq]

theorem State.memWb_afterCycle :
    (s.afterCycle w).memWb = s.exMem.map (ExMem.accessed · s.opcodes s.data) := by
  rw [State.afterCycle_eq]

theorem State.data_afterCycle :
    (s.afterCycle w).data =
      match s.exMem with
      | some r =>
        if isStore s.opcodes r.instr then s.data.writeWord r.result.toNat r.ioOperand else s.data
      | none => s.data := by
  rw [State.afterCycle_eq]
  simp [State.data_accessed]

theorem State.log_afterCycle :
    (s.afterCycle w).log =
      match s.exMem with
      | some r => if isStore s.opcodes r.instr then s.log ++ [r.result] else s.log
      | none => s.log := by
  rw [State.afterCycle_eq]
  simp [State.log_accessed]

@[simp] theorem State.fatal_afterCycle : (s.afterCycle w).fatal = s.fatal := by
  rw [State.afterCycle_eq]
@[simp] theorem State.code_afterCycle : (s.afterCycle w).code = s.code := by
  rw [State.afterCycle_eq]
@[simp] theorem State.dataSize_afterCycle : (s.afterCycle w).dataSize = s.dataSize := by
  rw [State.afterCycle_eq]
@[simp] theorem State.opcodes_afterCycle : (s.afterCycle w).opcodes = s.opcodes := by
  rw [State.afterCycle_eq]
@[simp] theorem State.stage_afterCycle : (s.afterCycle w).stage = .fetch := by
  rw [State.afterCycle_eq]

theorem State.done_afterCycle : (s.afterCycle w).done = (s.afterCycle w).drained :=
  congrArg State.done (State.afterCycle_eq s w)

/-- A register after the cycle: Decode's view of it, but for the program counter (R13). -/
theorem State.reg_afterCycle (q : RegIndex) (hq : q ≠ Config.pcIndex) :
    (s.afterCycle w).reg q = s.wroteBack.reg q := by
  have h : (s.afterCycle w).reg q = s.wroteBack.accessed.reg q := by
    rw [State.afterCycle_eq]
    cases isHalt s.opcodes w
    · exact (State.reg_setPc _ q _).trans (by simp [hq])
    · rfl
  rw [h, State.reg_decode, State.decodeReg, if_neg hq]

/-- The program counter after the cycle (R15, R16, R121). -/
theorem State.pc_afterCycle :
    (s.afterCycle w).pc = if isHalt s.opcodes w then s.redirectedPc else s.redirectedPc + 1 := by
  rw [State.afterCycle_eq]
  cases isHalt s.opcodes w
  · exact State.pc_setPc _ _
  · exact State.pc_decode s

end

/-! ## What a cycle can do -/

/-- Memory-Access of a record with an illegal address stops (log 16). -/
theorem runStage_memoryAccess_illegal (s : State) {r : ExMem} (hr : s.exMem = some r)
    (hi : isIo s.opcodes r.instr = true) (hl : legalAddress s.dataSize r.result = false) :
    runStage .memoryAccess s = .fault .dataAddressOutOfRange := by
  have hr' : (s.atStage .memoryAccess).exMem = some r := hr
  rw [runStage_some (st := .memoryAccess) (w := r.instr) (by simp [State.stageInput, hr])]
  simp only [isIo, isLoad, isStore, Bool.or_eq_true, decide_eq_true_eq] at hi
  rcases hi with ho | ho
  · rw [runWord_of_op ho]
    simp [exec, instrOf, execLoad, memoryLoad, hr, State.memRead, hl]
  · rw [runWord_of_op ho]
    simp [exec, instrOf, execStore, memoryStore, hr, State.memWrite, hl]

/-- Every address on its way to Memory-Access is legal. -/
def State.addressLegal (s : State) : Prop :=
  ∀ r, s.exMem = some r → isIo s.opcodes r.instr = true → legalAddress s.dataSize r.result = true

/-- Execute does not stop in the cycle that begins in `s`. -/
def State.executes (s : State) : Prop := ∀ r, s.idEx = some r → r.stop s.opcodes s.dataSize = none

/-- Decode does not stop in the cycle that begins in `s`. -/
def State.decodes (s : State) : Prop := ∀ r, s.ifId = some r → r.stop s.opcodes = none

/-- Under an admissible map Decode never stops (R63 item 4). -/
theorem State.decodes_of_admissible {s : State} (hm : s.opcodes.admissible = true) : s.decodes := by
  intro r _
  simp [IfId.stop, isBadIo_of_admissible hm]

/-- The one stop of Decode (R234). -/
theorem IfId.stop_some {r : IfId} {m : OpcodeMap} {c : Fault} (h : r.stop m = some c) :
    isBadIo m r.instr = true ∧ c = .badIoOpcode := by
  unfold IfId.stop at h
  split at h
  · rename_i hb; cases h; exact ⟨hb, rfl⟩
  · cases h

/-- Execute goes on when its record, if it has one, does not stop. -/
theorem runStage_execute (s : State) (he : s.executes) :
    runStage .execute s = .next (s.executed.atStage .execute) := by
  rcases Option.eq_none_or_eq_some s.idEx with hr | ⟨r, hr⟩
  · rw [runStage_execute_none s hr]; simp [State.executed, hr]
  · rw [runStage_execute_some s r hr, he r hr]; simp [State.executed, hr]

section
variable (s : State)

/-- With legal addresses, a cycle begins with Write-Back and Memory-Access. -/
theorem cycle_of_addressLegal (hl : s.addressLegal) :
    cycle s = andThen (andThen (runStage .execute (s.wroteBack.accessed.atStage .memoryAccess))
      (runStages [.decode, .fetch])) fun t => .next t.markDone := by
  have hma := runStage_memoryAccess (s.wroteBack.atStage .writeBack)
    (by simpa [State.addressLegal] using hl)
  simp only [cycle, cycleOrder, olderStages, List.cons_append, List.nil_append, runStages,
    runStage_writeBack, andThen_next, hma, State.accessed_atStage, State.atStage_atStage]

/-- With legal addresses, a cycle stops in Execute, or in Decode, or in Fetch, or goes on (R133, R239). -/
theorem cycle_cases (hl : s.addressLegal) :
    (∃ r c, s.idEx = some r ∧ r.stop s.opcodes s.dataSize = some c ∧ cycle s = .fault c) ∨
    (s.executes ∧ ∃ r, s.ifId = some r ∧ isBadIo s.opcodes r.instr = true ∧
      cycle s = .fault .badIoOpcode) ∨
    (s.executes ∧ s.decodes ∧ s.code.length ≤ s.redirectedPc.toNat ∧
      cycle s = .fault .fetchOutOfRange) ∨
    (s.executes ∧ s.decodes ∧
      ∃ w, s.code[s.redirectedPc.toNat]? = some w ∧ cycle s = .next (s.afterCycle w)) := by
  have hc := cycle_of_addressLegal s hl
  by_cases he : s.executes
  swap
  · simp only [State.executes, not_forall] at he
    obtain ⟨r, hr, hs⟩ := he
    obtain ⟨c, hs⟩ := Option.ne_none_iff_exists'.1 hs
    refine .inl ⟨r, c, hr, hs, ?_⟩
    rw [hc, runStage_execute_some (s.wroteBack.accessed.atStage .memoryAccess) r (by simpa using hr)]
    simp [hs]
  have hx := runStage_execute (s.wroteBack.accessed.atStage .memoryAccess)
    (by simpa [State.executes] using he)
  rw [hx, State.executed_atStage, State.atStage_atStage, andThen_next] at hc
  obtain ⟨ko, ki, kc, kp⟩ := s.wroteBack.accessed.executed_keeps
  generalize hu : s.wroteBack.accessed.executed = u at *
  have ko : u.opcodes = s.opcodes := by simpa using ko
  have ki : u.ifId = s.ifId := by simpa using ki
  have kc : u.code = s.code := by simpa using kc
  have kp : u.pc = s.redirectedPc := kp.trans s.pc_decode
  refine .inr ?_
  by_cases hd : s.decodes
  swap
  · simp only [State.decodes, not_forall] at hd
    obtain ⟨r, hr, hs⟩ := hd
    obtain ⟨c, hs⟩ := Option.ne_none_iff_exists'.1 hs
    have hb := (IfId.stop_some hs).1
    refine .inl ⟨he, r, hr, hb, ?_⟩
    rw [hc, runStages, runStage_decode_badIo _ (r := r) (by simpa [ki] using hr) (by simpa [ko] using hb)]
    rfl
  refine .inr ?_
  have hdec := runStage_decode (u.atStage .execute) (by simpa [ko, ki, State.decodes] using hd)
  rw [runStages, hdec, andThen_next] at hc
  change cycle s = andThen (andThen (runStage .fetch (u.decoded.atStage .decode)) .next) _ at hc
  have kp' : (u.decoded.atStage .decode).pc = s.redirectedPc := kp
  have kc' : (u.decoded.atStage .decode).code = s.code := kc
  have ko' : u.decoded.opcodes = s.opcodes := ko
  cases hw : s.code[s.redirectedPc.toNat]? with
  | none =>
    have hout : s.code.length ≤ s.redirectedPc.toNat := by simpa using hw
    exact .inl ⟨he, hd, hout, by rw [hc, runStage_fetch_out _ (by rw [kp', kc']; exact hout)]; rfl⟩
  | some w =>
    refine .inr ⟨he, hd, w, rfl, ?_⟩
    have hw' := hw
    rw [← kp', ← kc'] at hw'
    rw [hc, State.afterCycle, hu, State.fetched]
    cases hh : isHalt s.opcodes w with
    | true =>
      rw [runStage_fetch_halt _ w hw' (by simpa [ko'] using hh), if_pos (by rw [ko', hh])]; rfl
    | false =>
      rw [runStage_fetch_advance _ w hw' (by simpa [ko'] using hh), if_neg (by rw [ko', hh]; simp)]; rfl

end

/-- A cycle with an illegal address on its way to Memory-Access stops there. -/
theorem cycle_illegal (s : State) (hl : ¬ s.addressLegal) :
    cycle s = .fault .dataAddressOutOfRange := by
  simp only [State.addressLegal, not_forall] at hl
  obtain ⟨r, hr, hi, hl⟩ := hl
  have h := runStage_memoryAccess_illegal (s.wroteBack.atStage .writeBack) (r := r) (by simpa using hr)
    (by simpa using hi) (by simpa using hl)
  simp only [cycle, cycleOrder, olderStages, List.cons_append, runStages, runStage_writeBack,
    andThen_next, h, andThen_fault]

/-- A cycle that goes on: every address was legal, neither Execute nor Decode stopped, the fetched index
exists, and the next state is `afterCycle` of the fetched word. -/
theorem cycle_next {s t : State} (h : cycle s = .next t) :
    s.addressLegal ∧ s.executes ∧ s.decodes ∧
      ∃ w, s.code[s.redirectedPc.toNat]? = some w ∧ t = s.afterCycle w := by
  by_cases hl : s.addressLegal
  · rcases cycle_cases s hl with ⟨r, c, _, _, hc⟩ | ⟨_, _, _, _, hc⟩ | ⟨_, _, _, hc⟩ | ⟨he, hd, w, hw, hc⟩
    · rw [h] at hc; cases hc
    · rw [h] at hc; cases hc
    · rw [h] at hc; cases hc
    · rw [h] at hc; cases hc; exact ⟨hl, he, hd, w, hw, rfl⟩
  · rw [cycle_illegal s hl] at h; cases h

/-- When a cycle goes on. -/
theorem cycle_of {s : State} {w : Word} (hl : s.addressLegal) (he : s.executes) (hd : s.decodes)
    (hw : s.code[s.redirectedPc.toNat]? = some w) : cycle s = .next (s.afterCycle w) := by
  rcases cycle_cases s hl with ⟨r, c, hr, hs, _⟩ | ⟨_, r, hr, hb, _⟩ | ⟨_, _, hn, _⟩ | ⟨_, _, w', hw', hc⟩
  · rw [he r hr] at hs; cases hs
  · have := hd r hr
    simp [IfId.stop, hb] at this
  · rw [List.getElem?_eq_none hn] at hw; cases hw
  · rw [hw] at hw'; cases hw'; exact hc

/-- A step is a stop that stays, a final state that stays, or a cycle (R127, R129, R230). -/
theorem step_of_running {s : State} (hf : s.fatal = none) (hd : s.done = false) : step s = cycle s := by
  simp [step, advance, hf, hd]

/-- A step that goes on is the final state staying, or a cycle. -/
theorem step_next {s t : State} (h : step s = .next t) :
    s.fatal = none ∧ ((s.done = true ∧ t = s) ∨ (s.done = false ∧ cycle s = .next t)) := by
  unfold step advance at h
  split at h
  · cases h
  · rename_i hf
    refine ⟨hf, ?_⟩
    split at h
    · rename_i hd; cases h; exact .inl ⟨hd, rfl⟩
    · rename_i hd; exact .inr ⟨by simpa using hd, h⟩

end Sys2Proof.Machine
end

