-- ==== Sys2Proof/Machine/Assembly.lean ====
section
/-! DEFINITION. The operand syntax of spec/30_encoding.md R66 and R67: mnemonics, registers as `r`
and the index, immediates in signed decimal. The names are the spec's labels (D2, log 33); nothing in
the CORE depends on them. -/

namespace Sys2Proof.Machine

/-- The mnemonic of an operation (R62). -/
def mnemonic : Op → String
  | .add => "ADD" | .addi => "ADDI" | .sub => "SUB" | .subi => "SUBI"
  | .and => "AND" | .andi => "ANDI" | .or => "OR" | .ori => "ORI"
  | .shl => "SHL" | .shli => "SHLI" | .shra => "SHRA" | .shrai => "SHRAI"
  | .shrl => "SHRL" | .shrli => "SHRLI"
  | .not => "NOT" | .noti => "NOTI" | .mov => "MOV" | .movi => "MOVI"
  | .ceq => "CEQ" | .ceqi => "CEQI" | .cltu => "CLTU" | .cltui => "CLTUI"
  | .clts => "CLTS" | .cltsi => "CLTSI" | .cgtu => "CGTU" | .cgtui => "CGTUI"
  | .cgts => "CGTS" | .cgtsi => "CGTSI"
  | .jump => "JUMP" | .jumpi => "JUMPI" | .branch => "BRANCH" | .branchi => "BRANCHI"
  | .load => "LOAD" | .store => "STORE" | .nop => "NOP" | .halt => "HALT"

/-- The assembler name of a register (R11). -/
def registerName (r : RegIndex) : String := "r" ++ toString r.toNat

/-- The operands of an instruction as text (R67). -/
def operandText : Instr → List String
  | .add a b c | .sub a b c | .and a b c | .or a b c | .shl a b c | .shra a b c | .shrl a b c =>
    [registerName a, registerName b, registerName c]
  | .addi a b v | .subi a b v | .andi a b v | .ori a b v | .shli a b v | .shrai a b v
  | .shrli a b v | .load a b v | .store a b v => [registerName a, registerName b, toString v]
  | .not a b | .mov a b | .ceq a b | .cltu a b | .clts a b | .cgtu a b | .cgts a b =>
    [registerName a, registerName b]
  | .noti a v | .movi a v | .ceqi a v | .cltui a v | .cltsi a v | .cgtui a v | .cgtsi a v =>
    [registerName a, toString v]
  | .jump a | .branch a => [registerName a]
  | .jumpi v | .branchi v => [toString v]
  | .nop | .halt => []

/-- One instruction as a line of assembly (R67). -/
def assemblyText (i : Instr) : String :=
  match operandText i with
  | [] => mnemonic i.op
  | operands => mnemonic i.op ++ " " ++ ", ".intercalate operands

end Sys2Proof.Machine
end

