-- ==== Sys2Proof/Tests/Slice0.lean ====
section
/-! SUPPORT. Tests. Every expected value is the spec's: the example words and results of
spec/43_binary_arithmetic.md to spec/48_misc.md and the vectors of spec/95_test_vectors.md. At the end
stand the witnesses: for each statement with hypotheses, a state and operands that meet them. -/

open Sys2Proof Sys2Proof.Machine

namespace Sys2Proof.Tests

/-! ## Well-formed instructions (R60) -/

theorem test_wellFormed_16 : (Instr.addi 1 2 32767).wellFormed = true ∧
    (Instr.addi 1 2 (-32768)).wellFormed = true ∧ (Instr.addi 1 2 32768).wellFormed = false ∧
    (Instr.subi 1 2 (-32769)).wellFormed = false := by decide

theorem test_wellFormed_io : (Instr.load 1 2 32768).wellFormed = false ∧
    (Instr.store 1 2 (-32769)).wellFormed = false ∧ (Instr.load 1 2 (-4)).wellFormed = true := by decide

theorem test_wellFormed_21 : (Instr.movi 1 1048575).wellFormed = true ∧
    (Instr.movi 1 (-1048576)).wellFormed = true ∧ (Instr.movi 1 1048576).wellFormed = false ∧
    (Instr.ceqi 1 (-1048577)).wellFormed = false := by decide

theorem test_wellFormed_26 : (Instr.jumpi 33554431).wellFormed = true ∧
    (Instr.branchi (-33554432)).wellFormed = true ∧ (Instr.jumpi 33554432).wellFormed = false ∧
    (Instr.branchi (-33554433)).wellFormed = false := by decide

/-! ## Decoding, one word for every instruction -/

theorem test_decode_add : decode 0x000208C2 = .ok (.add 3 1 2) := by decide
theorem test_decode_addi : decode 0xFFFF0843 = .ok (.addi 1 1 (-1)) := by decide
theorem test_decode_sub : decode 0x000208C4 = .ok (.sub 3 1 2) := by decide
theorem test_decode_subi : decode 0x800008C5 = .ok (.subi 3 1 (-32768)) := by decide
theorem test_decode_and : decode 0x000208C6 = .ok (.and 3 1 2) := by decide
theorem test_decode_andi : decode 0xFF0008C7 = .ok (.andi 3 1 (-256)) := by decide
theorem test_decode_or : decode 0x000208C8 = .ok (.or 3 1 2) := by decide
theorem test_decode_ori : decode 0x800008C9 = .ok (.ori 3 1 (-32768)) := by decide
theorem test_decode_shl : decode 0x000208CA = .ok (.shl 3 1 2) := by decide
theorem test_decode_shli : decode 0x000108CB = .ok (.shli 3 1 1) := by decide
theorem test_decode_shra : decode 0x000208CC = .ok (.shra 3 1 2) := by decide
theorem test_decode_shrai : decode 0x000808CD = .ok (.shrai 3 1 8) := by decide
theorem test_decode_shrl : decode 0x000208CE = .ok (.shrl 3 1 2) := by decide
theorem test_decode_shrli : decode 0x000008CF = .ok (.shrli 3 1 0) := by decide
theorem test_decode_not : decode 0x00000890 = .ok (.not 2 1) := by decide
theorem test_decode_noti : decode 0xFFFFF891 = .ok (.noti 2 (-1)) := by decide
theorem test_decode_mov : decode 0x0000F812 = .ok (.mov 0 31) := by decide
theorem test_decode_movi : decode 0x80000053 = .ok (.movi 1 (-1048576)) := by decide
theorem test_decode_ceq : decode 0x00001060 = .ok (.ceq 1 2) := by decide
theorem test_decode_ceqi : decode 0x00002861 = .ok (.ceqi 1 5) := by decide
theorem test_decode_cltu : decode 0x00001062 = .ok (.cltu 1 2) := by decide
theorem test_decode_cltui : decode 0xFFFFF863 = .ok (.cltui 1 (-1)) := by decide
theorem test_decode_clts : decode 0x00001064 = .ok (.clts 1 2) := by decide
theorem test_decode_cltsi : decode 0x00000065 = .ok (.cltsi 1 0) := by decide
theorem test_decode_cgtu : decode 0x00001066 = .ok (.cgtu 1 2) := by decide
theorem test_decode_cgtui : decode 0x00000067 = .ok (.cgtui 1 0) := by decide
theorem test_decode_cgts : decode 0x00001068 = .ok (.cgts 1 2) := by decide
theorem test_decode_cgtsi : decode 0xFFFFF869 = .ok (.cgtsi 1 (-1)) := by decide
theorem test_decode_jump : decode 0x00000170 = .ok (.jump 5) := by decide
theorem test_decode_jumpi : decode 0x000000F1 = .ok (.jumpi 3) := by decide
theorem test_decode_branch : decode 0x00000172 = .ok (.branch 5) := by decide
theorem test_decode_branchi : decode 0xFFFFFEF3 = .ok (.branchi (-5)) := by decide
theorem test_decode_load : decode 0xFFFC08F8 = .ok (.load 3 1 (-4)) := by decide
theorem test_decode_store : decode 0x000408B9 = .ok (.store 2 1 4) := by decide
theorem test_decode_nop : decode 0x0000003C = .ok .nop := by decide
theorem test_decode_halt : decode 0xABCDEF3E = .ok .halt := by decide
theorem test_decode_unread_bits : decode 0xFFE208C2 = .ok (.add 3 1 2) := by decide
theorem test_decode_store_high_registers : decode 0xFFFFFFF9 = .ok (.store 31 31 (-1)) := by decide
theorem test_decode_unknown : decode 0 = .error (.unknown 0) ∧
    decode 0xFFFFFFFF = .error (.unknown 0x3F) ∧ decode 0x14 = .error (.unknown 0x14) := by decide
theorem test_decodeTableWord : decodeTableWord 32 0x000208C2 = some (.add 3 1 2) ∧
    decodeTableWord 32 0x14 = none := by decide

/-! ## What each instruction does, alone in the pipeline -/

/-- A small machine: a program at index 0, 256 bytes of data, and two registers set. -/
def start (code : List Word) (x1 x2 : Word) : State :=
  ((State.boot referenceMap code 256).setReg 1 x1).setReg 2 x2

/-- The passage of the instruction of a word, alone at index 0. -/
def alone (w : Word) (s : State) : Result :=
  match decodeWith s.opcodes w with
  | .ok i => passage i { s with code := [w] }
  | .error _ => .fault .unknownInstruction

/-- A result that is a next state with a property. -/
def nextHas (p : State → Bool) (r : Result) : Bool :=
  match r with
  | .next t => p t
  | .fault _ => false
  | .refused _ => false

/-- A result that stops for a cause. -/
def stopsWith (c : Fault) (r : Result) : Bool :=
  match r with
  | .fault d => d == c
  | .next _ => false
  | .refused _ => false

/-- The word, alone from `x1` and `x2`, leaves `v` in register `q`. -/
def leaves (w x1 x2 : Word) (q : RegIndex) (v : Word) : Bool :=
  nextHas (fun t => t.reg q == v && t.flag == false) (alone w (start [] x1 x2))

/-- The word, alone from `x1` and `x2`, leaves `b` in the flag. -/
def flags (w x1 x2 : Word) (b : Bool) : Bool :=
  nextHas (fun t => t.flag == b && t.reg 1 == x1) (alone w (start [] x1 x2))

theorem test_effect_add : leaves 0x000208C2 0xFFFFFFFF 1 3 0 = true := by decide
theorem test_effect_addi : leaves 0xFFFF08C3 0 0 3 0xFFFFFFFF = true := by decide
theorem test_effect_sub : leaves 0x000208C4 5 7 3 0xFFFFFFFE = true := by decide
theorem test_effect_subi : leaves 0x800008C5 0 0 3 0x00008000 = true := by decide
theorem test_effect_and : leaves 0x000208C6 0xF0F0F0F0 0x0FF00FF0 3 0x00F000F0 = true := by decide
theorem test_effect_andi : leaves 0xFF0008C7 0x12345678 0 3 0x12345600 = true := by decide
theorem test_effect_or : leaves 0x000208C8 0xF0F0F0F0 0x0FF00FF0 3 0xFFF0FFF0 = true := by decide
theorem test_effect_ori : leaves 0x800008C9 0 0 3 0xFFFF8000 = true := by decide
theorem test_effect_shl : leaves 0x000208CA 0x80000001 0 3 2 = true := by decide
theorem test_effect_shli : leaves 0x000108CB 0x12345678 0 3 0x34567800 = true := by decide
theorem test_effect_shra : leaves 0x000208CC 0x80000000 0x80000000 3 0xFF800000 = true := by decide
theorem test_effect_shrai : leaves 0x000008CD 0x80000001 0 3 0xC0000000 = true := by decide
theorem test_effect_shrl : leaves 0x000208CE 0x80000001 0xFFFFFFFF 3 0x00800000 = true := by decide
theorem test_effect_shrli : leaves 0x000008CF 0xFFFFFFFF 0 3 0x7FFFFFFF = true := by decide
theorem test_effect_not : leaves 0x00000890 0x0000FFFF 0 2 0xFFFF0000 = true := by decide
theorem test_effect_noti : leaves 0x00000091 0 0 2 0xFFFFFFFF = true := by decide
theorem test_effect_mov_pc : leaves 0x0000F812 0 0 0 1 = true := by decide
theorem test_effect_movi : leaves 0x80000053 0 0 1 0xFFF00000 = true := by decide
theorem test_effect_ceq : flags 0x00001060 4 4 true = true := by decide
theorem test_effect_ceqi : flags 0x00002861 6 0 false = true := by decide
theorem test_effect_cltu : flags 0x00001062 0 0xFFFFFFFF true = true := by decide
theorem test_effect_cltui : flags 0xFFFFF863 0xFFFFFFFE 0 true = true := by decide
theorem test_effect_clts : flags 0x00001064 0xFFFFFFFF 0 true = true := by decide
theorem test_effect_cltsi : flags 0x00000065 0x80000000 0 true = true := by decide
theorem test_effect_cgtu : flags 0x00001066 0xFFFFFFFF 0 true = true := by decide
theorem test_effect_cgtui : flags 0x00000067 0 0 false = true := by decide
theorem test_effect_cgts : flags 0x00001068 0x80000000 0 false = true := by decide
theorem test_effect_cgtsi : flags 0xFFFFF869 0 0 true = true := by decide

/-- `JUMP r5` with x[5] = 40 (V-CT-4). -/
theorem test_effect_jump :
    nextHas (fun t => t.pc == 40) (alone 0x00000170 ((start [] 0 0).setReg 5 40)) = true := by decide
/-- `JUMPI -1` jumps to itself (V-CT-3). -/
theorem test_effect_jumpi : nextHas (fun t => t.pc == 0) (alone 0xFFFFFFF1 (start [] 0 0)) = true := by decide
theorem test_effect_branch :
    nextHas (fun t => t.pc == 40)
      (alone 0x00000172 { (start [] 0 0).setReg 5 40 with flag := true }) = true ∧
    nextHas (fun t => t.pc == 1) (alone 0x00000172 ((start [] 0 0).setReg 5 40)) = true := by decide
theorem test_effect_branchi :
    nextHas (fun t => t.pc == 4) (alone 0x000000F3 { start [] 0 0 with flag := true }) = true ∧
    nextHas (fun t => t.pc == 1) (alone 0x000000F3 (start [] 0 0)) = true := by decide
/-- `LOAD r3, r1, -4` (V-IO-2). -/
theorem test_effect_load :
    nextHas (fun t => t.reg 3 == 0xDEADBEEF && t.log == [])
      (alone 0xFFFC08F8 { start [] 100 0 with
        data := [(96, 0xEF), (97, 0xBE), (98, 0xAD), (99, 0xDE)] }) = true := by decide
/-- `STORE r2, r1, 0` (V-IO-1): the two zero bytes are not listed. -/
theorem test_effect_store :
    nextHas (fun t => t.data == [(100, 0x34), (101, 0x12)] && t.log == [100])
      (alone 0x000008B9 (start [] 100 0x1234)) = true := by decide
/-- `STORE r1, r1, 0` at the last legal address and one beyond (V-IO-8). -/
theorem test_store_bounds :
    nextHas (fun t => t.data == [(252, 252)]) (alone 0x00000879 (start [] 252 0)) = true ∧
    stopsWith .dataAddressOutOfRange (alone 0x00000879 (start [] 253 0)) = true := by decide
theorem test_effect_nop :
    nextHas (fun t => decide (t = (start [0x3C] 7 5).advanced)) (alone 0x3C (start [] 7 5)) = true := by decide
theorem test_effect_halt :
    nextHas (fun t => decide (t = start [0x3E] 7 5)) (alone 0x3E (start [] 7 5)) = true := by decide

/-! ## One step -/

/-- The first step of the source's program P1: ADDI is in IF_ID and x[31] is 1. -/
theorem test_step_fetch :
    nextHas (fun t => decide (t.ifId = some ⟨1, 0x0000F803⟩) && t.pc == 1 && !t.done)
      (step (State.boot referenceMap [0x0000F803, 0x00050043, 0x0000003E] 256)) = true := by decide

/-- HALT alone ends the run in one cycle, the reset state unchanged (V-M-2). -/
theorem test_step_halt_alone :
    nextHas (fun t => t.done && t.pc == 0) (step (State.boot referenceMap [0x0000003E] 256)) = true := by decide

/-- Nothing is loaded at reset, so the first step stops (R236; log 3). -/
theorem test_step_reset : stopsWith .fetchOutOfRange (step State.reset) = true := by decide

/-- The host's question: the placed word is run by the next step. -/
theorem test_withFetchWord :
    nextHas (fun t => decide (t.ifId = some ⟨1, 0x000208C2⟩))
      (step (State.reset.withFetchWord 32 0x000208C2)) = true := by decide

/-- Another admissible map: ADD and ADDI at 0x00 and 0x01, HALT at 0x3F (R63). -/
def alternativeMap : OpcodeMap :=
  [(0x00, .add), (0x01, .addi)] ++ (referenceMap.drop 2).dropLast ++ [(0x3F, .halt)]

theorem test_alternativeMap : alternativeMap.admissible = true ∧
    decodeWith alternativeMap 0x000208C0 = .ok (.add 3 1 2) ∧
    decodeWith alternativeMap 0x000208C2 = .error (.unknown 0x02) := by decide

/-- The step reads words under the map the state carries (R25): 0x3F is HALT, and 0x3E is not. -/
theorem test_step_alternativeMap :
    nextHas (fun t => t.done && t.pc == 0) (step (State.boot alternativeMap [0x0000003F] 256)) = true ∧
    nextHas (fun t => !t.done && t.pc == 1)
      (step (State.boot alternativeMap [0x0000003E] 256)) = true := by decide

/-- A map that breaks R63 item 4 alone: a further STORE row at 0x3A and a further LOAD row at 0x3B. -/
def ioMap : OpcodeMap := referenceMap ++ [(0x3A, .store), (0x3B, .load)]

/-- Those opcodes are of type IO and neither LOAD nor STORE (R65). -/
theorem test_ioMap : ioMap.admissibleButIo = true ∧ ioMap.admissible = false ∧
    decodeType ioMap 0x000408BA = .io ∧ decodeType ioMap 0x000408BB = .io ∧
    decodeWith ioMap 0x000408BA = .error (.badIo 0x3A) ∧
    decodeWith ioMap 0x000408BB = .error (.badIo 0x3B) ∧
    decodeWith ioMap 0x000408B9 = .ok (.store 2 1 4) ∧
    decodeWith ioMap 0x00000014 = .error (.unknown 0x14) := by decide

/-- Such a word is fetched in one cycle and fatal in Decode of the next (R232, R234). -/
theorem test_step_badIo :
    nextHas (fun t => t.ifId == some ⟨1, 0x000408BA⟩ &&
        stopsWith .badIoOpcode (step t))
      (step (State.boot ioMap [0x000408BA, 0x3C] 256)) = true := by decide

/-- A line of more than 32 digits keeps the last 32: the model's choice (log 35). -/
theorem test_wordOfDigits_long :
    wordOfDigits (true :: List.replicate 31 false ++ [true]) = 1 := by decide

/-- A binary image is little-endian and a whole number of words (R45). -/
theorem test_loadBinary : loadBinary [0xC2, 0x08, 0x02, 0x00] = some [0x000208C2] ∧
    loadBinary [0xC2, 0x08] = none := by decide

/-! ## States for the witnesses -/

/-- A machine with records in flight: x1 = 7, x2 = 5, the program counter at `pc`. -/
def flight (code : List Word) (pc : Word) (f : Option IfId) (d : Option IdEx) (e : Option ExMem)
    (m : Option MemWb) : State :=
  { (start code 7 5).setReg 31 pc with ifId := f, idEx := d, exMem := e, memWb := m }

/-- `n` NOPs. -/
def nops (n : Nat) : List Word := List.replicate n 0x3C

/-- The invariant as a check, but for the opcode map. -/
def invOk (s : State) : Bool :=
  (Memory.wf s.data && s.data.all (fun c => decide (c.1 < s.dataSize)) &&
    s.log.all (legalAddress s.dataSize)) &&
  (s.exMem.all (fun r => decide (
      (isIo s.opcodes r.instr = true → legalAddress s.dataSize r.result = true) ∧
      (isLoad s.opcodes r.instr = true → r.ioOperand = (fieldA r.instr).setWidth 32) ∧
      (decodeType s.opcodes r.instr = .jump → r.branchTaken = true) ∧
      (r.branchTaken = true →
        decodeType s.opcodes r.instr = .jump ∨ decodeType s.opcodes r.instr = .branch) ∧
      decodeType s.opcodes r.instr ≠ .unknown)) &&
    s.idEx.all (fun r => decide (isLoad s.opcodes r.instr = true →
      r.ioOperand = (fieldA r.instr).setWidth 32)) &&
    s.memWb.all (fun r => decide (
      (isLoad s.opcodes r.instr = true → r.ioOperand = (fieldA r.instr).setWidth 32) ∧
      decodeType s.opcodes r.instr ≠ .unknown)) &&
    s.ifId.all (fun r => decide (r.nextPc = s.pc))) &&
  (s.inFlight.all (fun w => !isHalt s.opcodes w) && (!s.done || s.drained) && decide (s.fatal = none) &&
    decide (s.stage = .fetch))

theorem referenceMap_admissible : referenceMap.admissible = true := by decide

theorem inv_of_ok {s : State} (h : invOk s = true) (hm : s.opcodes = referenceMap := by rfl) :
    s.Inv := by
  simp only [invOk, Bool.and_eq_true, List.all_eq_true, Option.all_eq_true, decide_eq_true_eq,
    Bool.or_eq_true, Bool.not_eq_true'] at h
  obtain ⟨⟨⟨⟨h1, h2⟩, h3⟩, ⟨⟨h4, h5⟩, h6⟩, h7⟩, ⟨⟨h8, h9⟩, h10⟩, h11⟩ := h
  exact {
    map_admissible := by rw [hm]; exact referenceMap_admissible
    data_wf := h1
    data_bounded := h2
    log_legal := h3
    address_legal := fun r hr => (h4 r hr).1
    load_index_idEx := h5
    load_index_exMem := fun r hr => (h4 r hr).2.1
    load_index_memWb := fun r hr => (h6 r hr).1
    jump_taken := fun r hr => (h4 r hr).2.2.1
    taken_transfer := fun r hr => (h4 r hr).2.2.2.1
    fetched_next := h7
    no_halt := h8
    known_exMem := fun r hr => (h4 r hr).2.2.2.2
    known_memWb := fun r hr => (h6 r hr).2
    done_drained := fun hd => h9.resolve_left (by simp [hd])
    not_fatal := h10
    at_fetch := h11 }

/-- The next state of a step that goes on. -/
def nextOf (s : State) : State :=
  match step s with
  | .next t => t
  | .fault _ => s
  | .refused _ => s

theorem step_goes {s : State} (h : nextHas (fun _ => true) (step s) = true) :
    step s = .next (nextOf s) := by
  unfold nextOf
  cases hs : step s with
  | next t => rfl
  | fault c => rw [hs] at h; cases h
  | refused q => rw [hs] at h; cases h

theorem result_stops {r : Result} {c : Fault} (h : stopsWith c r = true) : r = .fault c := by
  cases r with
  | next t => cases h
  | fault d => simp only [stopsWith, beq_iff_eq] at h; rw [h]
  | refused q => cases h

theorem step_stops {s : State} {c : Fault} (h : stopsWith c (step s) = true) : step s = .fault c :=
  result_stops h

theorem result_goes {r : Result} (h : nextHas (fun _ => true) r = true) : ∃ t, r = .next t := by
  cases r with
  | next t => exact ⟨t, rfl⟩
  | fault c => cases h
  | refused q => cases h

/-- STORE in Memory-Access, LOAD behind it in Execute with the same address, ADD before Decode, NOP in
Write-Back. -/
def full : State :=
  flight (nops 8) 4 (some ⟨4, 0x000208C2⟩) (some ⟨3, 0x000008F8, 7, 0, 3⟩)
    (some ⟨2, 0x000008B9, false, 7, 0x12345678⟩) (some ⟨1, 0x3C, 0, 0⟩)

/-- A taken jump in Memory-Access, a BRANCH behind a COMPARE, a LOAD in Write-Back. -/
def turning : State :=
  flight (nops 8) 4 (some ⟨4, 0xFFFFFEF3⟩) (some ⟨3, 0x00001060, 5, 5, 0⟩)
    (some ⟨2, 0x000000F1, true, 5, 0⟩) (some ⟨1, 0x000008F8, 0xAB, 3⟩)

/-- A BRANCH in Execute with the flag set, a LOAD in Memory-Access, `ADDI r31` in Write-Back. -/
def branching : State :=
  { flight (nops 8) 4 (some ⟨4, 0x3C⟩) (some ⟨3, 0xFFFFFEF3, 3, 0xFFFFFFFB, 0⟩)
      (some ⟨2, 0x000008F8, false, 252, 3⟩) (some ⟨1, 0x0004FFC3, 6, 0⟩) with flag := true }

/-! ## Witnesses -/

theorem witness_OpcodeAloneSelects :
    opcodeField 0x000208C2 = opcodeField 0xFFE208C2 ∧
    decodeWith referenceMap 0x000208C2 = .ok (.add 3 1 2) ∧
    opcodeField 0x14 = opcodeField 0xFFFFFFD4 ∧
    decodeWith referenceMap 0x14 = .error (.unknown 0x14) ∧
    referenceMap.opOf (opcodeField 0x14) = none ∧
    referenceMap.opOf (opcodeField 0x3C) = some .nop := by decide

/-- The reference map meets the constraints of R63; immediates at both ends of each field's range. -/
theorem witness_DecodeInvertsEncode :
    referenceMap.admissible = true ∧
    (Instr.addi 31 0 (-32768)).wellFormed = true ∧ (Instr.store 31 0 32767).wellFormed = true ∧
    (Instr.movi 31 1048575).wellFormed = true ∧ (Instr.cgtsi 31 (-1048576)).wellFormed = true ∧
    (Instr.jumpi 33554431).wellFormed = true ∧ (Instr.branchi (-33554432)).wellFormed = true ∧
    (Instr.add 31 0 31).wellFormed = true := by decide

theorem witness_EncodeInvertsDecode :
    referenceMap.admissible = true ∧ decodeWith referenceMap 0xFFE208C2 = .ok (.add 3 1 2) ∧
    (0x000208C2 : Word) &&& Op.add.format.readMask = 0xFFE208C2 &&& Op.add.format.readMask := by decide

theorem witness_SignExtension : sext 16 0x8000#16 = 0xFFFF8000 ∧ sext 21 0x100000#21 = 0xFFF00000 ∧
    sext 26 0x1FFFFFF#26 = 0x01FFFFFF := by decide

/-- A word of every type. -/
theorem witness_DecoderOperandFields :
    decodeType referenceMap 0x000208C2 = .binaryArithmetic ∧
    decodeType referenceMap 0x00000890 = .unaryArithmetic ∧
    decodeType referenceMap 0x00001060 = .compare ∧ decodeType referenceMap 0x00000170 = .jump ∧
    decodeType referenceMap 0xFFFFFEF3 = .branch ∧
    decodeType referenceMap 0x000008F8 = .io ∧ decodeType referenceMap 0x3C = .misc ∧
    decodeType referenceMap 0x14 = .unknown := by decide

/-- Slot 64 is the first that no opcode indexes. -/
theorem witness_AluTablesFollowTypes :
    (64 : Nat) ≤ (⟨64, by decide⟩ : Fin Config.aluTableSlots).val ∧ (Op.add, Op.addi) ∈ Op.pairs := by decide

theorem witness_AddSubWrap : ∃ t, exec (.add 3 1 2) (full.atStage .execute) = .next t :=
  result_goes (by decide)

theorem witness_AluLaws : binaryFunction .shrai = some aluShra ∧ unaryFunction .movi = some aluMove :=
  ⟨rfl, rfl⟩

theorem witness_ShiftFunctions : (0 : Nat) < shiftAmount 0 ∧ (7 : Nat) < shiftAmount 0x80000000 := by
  decide

/-- Fetch at the last index of the code array, and one beyond. -/
theorem witness_FetchCompletes :
    (∃ s : State, s.stage = .fetch ∧ s.code[(s.reg 31).toNat]? = some 0x000208C2) ∧
    (∃ s : State, s.stage = .fetch ∧ s.code[(s.reg 31).toNat]? = some 0xABCDEF3E) ∧
    (∃ s : State, s.stage = .fetch ∧ s.code.length ≤ (s.reg 31).toNat) :=
  ⟨⟨flight [0x3C, 0x000208C2] 1 none none none none, by decide⟩,
    ⟨flight [0x3C, 0xABCDEF3E] 1 none none none none, by decide⟩,
    ⟨flight [0x3C, 0x3C] 2 none none none none, by decide⟩⟩

/-- The stages' inputs, for BinaryCompletes, UnaryCompletes, CompareCompletes and MiscCompletes. -/
theorem witness_BinaryCompletes :
    ((full.atStage .decode).stage = .decode ∧ ∃ r, (full.atStage .decode).ifId = some r) ∧
    ((full.atStage .execute).stage = .execute ∧ ∃ r, (full.atStage .execute).idEx = some r) ∧
    ((full.atStage .memoryAccess).stage = .memoryAccess ∧
      ∃ r, (full.atStage .memoryAccess).exMem = some r) ∧
    ((full.atStage .writeBack).stage = .writeBack ∧ ∃ r, (full.atStage .writeBack).memWb = some r) :=
  ⟨⟨rfl, _, rfl⟩, ⟨rfl, _, rfl⟩, ⟨rfl, _, rfl⟩, ⟨rfl, _, rfl⟩⟩

theorem witness_UnaryCompletes : ∃ s r, State.stage s = .writeBack ∧ s.memWb = some r :=
  ⟨full.atStage .writeBack, _, rfl, rfl⟩

theorem witness_CompareCompletes : ∃ s r, State.stage s = .execute ∧ s.idEx = some r :=
  ⟨turning.atStage .execute, _, rfl, rfl⟩

/-- A record that redirects and one that does not. -/
theorem witness_TransferCompletes :
    (∃ r, (turning.atStage .memoryAccess).exMem = some r ∧ r.branchTaken = true) ∧
    (∃ r, (full.atStage .memoryAccess).exMem = some r ∧ r.branchTaken = false) :=
  ⟨⟨_, rfl, rfl⟩, ⟨_, rfl, rfl⟩⟩

/-- The last legal address of 256 bytes, and the destination carried. -/
theorem witness_LoadCompletes :
    (∃ s r, State.stage s = .execute ∧ s.idEx = some r ∧ 4 ≤ s.dataSize ∧
      (r.operand1 + r.operand2).toNat ≤ s.dataSize - 4) ∧
    (∃ s r, State.stage s = .memoryAccess ∧ s.exMem = some r ∧ 4 ≤ s.dataSize ∧
      r.result.toNat ≤ s.dataSize - 4) ∧
    (∃ s r, State.stage s = .writeBack ∧ s.memWb = some r ∧ r.ioOperand = (3 : RegIndex).setWidth 32) :=
  ⟨⟨(flight [] 0 none (some ⟨0, 0x000008F8, 251, 1, 3⟩) none none).atStage .execute, _, rfl, rfl,
      by decide, by decide⟩,
    ⟨branching.atStage .memoryAccess, _, rfl, rfl, by decide, by decide⟩,
    ⟨turning.atStage .writeBack, _, rfl, rfl, by decide⟩⟩

theorem witness_StoreCompletes :
    (∃ s r, State.stage s = .execute ∧ s.idEx = some r ∧ 4 ≤ s.dataSize ∧
      (r.operand1 + r.operand2).toNat ≤ s.dataSize - 4) ∧
    (∃ s r, State.stage s = .memoryAccess ∧ s.exMem = some r ∧ 4 ≤ s.dataSize ∧
      r.result.toNat ≤ s.dataSize - 4) :=
  ⟨⟨(flight [] 0 none (some ⟨0, 0x000408B9, 248, 4, 5⟩) none none).atStage .execute, _, rfl, rfl,
      by decide, by decide⟩,
    ⟨(flight [] 0 none none (some ⟨0, 0x000408B9, false, 252, 5⟩) none).atStage .memoryAccess, _, rfl,
      rfl, by decide, by decide⟩⟩

theorem witness_MiscCompletes : ∃ s r, State.stage s = .decode ∧ s.ifId = some r :=
  ⟨full.atStage .decode, _, rfl, rfl⟩

theorem witness_AbsentInputHasNoEffect :
    State.reset.ifId = none ∧ State.reset.idEx = none ∧ State.reset.exMem = none ∧
    State.reset.memWb = none ∧ (State.reset.atStage .writeBack).stage = .writeBack := by decide

/-- The first illegal address of 256 bytes; an UNKNOWN word in Execute and before Decode. -/
theorem witness_ExecuteStops :
    (∃ s r, State.stage s = .execute ∧ s.idEx = some r ∧
      ¬ (4 ≤ s.dataSize ∧ (r.operand1 + r.operand2).toNat ≤ s.dataSize - 4)) ∧
    (∃ s r, State.idEx s = some r ∧ decodeType s.opcodes r.instr = .unknown) ∧
    (∃ s r, State.ifId s = some r ∧ decodeType s.opcodes r.instr = .unknown) :=
  ⟨⟨(flight [] 0 none (some ⟨0, 0x000008F8, 252, 1, 3⟩) none none).atStage .execute, _, rfl, rfl,
      by decide⟩,
    ⟨flight [] 0 none (some ⟨0, 0x14, 0, 0, 0⟩) none none, _, rfl, by decide⟩,
    ⟨flight [] 0 (some ⟨0, 0x14⟩) none none none, _, rfl, by decide⟩⟩

/-- A word at the program counter: for ArithmeticEffect and ControlEffect. -/
theorem witness_ArithmeticEffect : ∃ s w, (State.code s)[(s.reg 31).toNat]? = some w :=
  ⟨start [0x000208C2] 7 5, 0x000208C2, by decide⟩

theorem witness_ControlEffect : ∃ s w, (State.code s)[(s.reg 31).toNat]? = some w :=
  ⟨flight (nops 8) 7 none none none none, 0x3C, by decide⟩

/-- `LOAD r3, r1, 0`: the last legal address, the first illegal one, and a memory of three bytes. -/
theorem witness_LoadStoreEffect :
    (∃ s : State, s.code[(s.reg 31).toNat]? = some 0x000008F8 ∧ 4 ≤ s.dataSize ∧
      (s.advanced.reg 1 + BitVec.ofInt 32 0).toNat ≤ s.dataSize - 4) ∧
    (∃ s : State, s.code[(s.reg 31).toNat]? = some 0x000008F8 ∧
      ¬ (4 ≤ s.dataSize ∧ (s.advanced.reg 1 + BitVec.ofInt 32 0).toNat ≤ s.dataSize - 4)) ∧
    (∃ s : State, s.code[(s.reg 31).toNat]? = some 0x000008F8 ∧
      ¬ (4 ≤ s.dataSize ∧ (s.advanced.reg 1 + BitVec.ofInt 32 0).toNat ≤ s.dataSize - 4)) :=
  ⟨⟨start [0x000008F8] 252 0, by decide⟩, ⟨start [0x000008F8] 253 0, by decide⟩,
    ⟨{ start [0x000008F8] 0 0 with dataSize := 3 }, by decide⟩⟩

theorem witness_ArithmeticFrame :
    (∃ t, exec (.add 3 1 2) full = .next t) ∧
    (∃ t, exec (.movi 3 1) (full.atStage .writeBack) = .next t) ∧
    (Instr.add 3 1 2).op.type = .binaryArithmetic ∧ (Instr.movi 3 1).op.type = .unaryArithmetic :=
  ⟨result_goes (by decide), result_goes (by decide), rfl, rfl⟩

theorem witness_CompareMiscFrame :
    (∃ t, exec (.ceq 1 2) (full.atStage .execute) = .next t) ∧ (∃ t, exec .halt full = .next t) ∧
    (Instr.ceq 1 2).op.type = .compare ∧ Instr.halt.op.type = .misc :=
  ⟨result_goes (by decide), result_goes (by decide), rfl, rfl⟩

theorem witness_TransferFrame :
    (∃ t, exec (.jumpi 3) (turning.atStage .memoryAccess) = .next t) ∧
    (∃ t, exec (.branch 5) (turning.atStage .execute) = .next t) ∧
    (Instr.jumpi 3).op.type = .jump ∧ (Instr.branch 5).op.type = .branch :=
  ⟨result_goes (by decide), result_goes (by decide), rfl, rfl⟩

/-- In Write-Back a record that carries the destination; in Memory-Access another one's record stands
behind it. -/
theorem witness_LoadFrame :
    (((turning.atStage .writeBack).stage = .writeBack →
        ∀ r, (turning.atStage .writeBack).memWb = some r → r.ioOperand = (3 : RegIndex).setWidth 32) ∧
      ∃ t, exec (.load 3 1 0) (turning.atStage .writeBack) = .next t) ∧
    (((full.atStage .memoryAccess).stage = .writeBack →
        ∀ r, (full.atStage .memoryAccess).memWb = some r → r.ioOperand = (3 : RegIndex).setWidth 32) ∧
      (∃ r, (full.atStage .memoryAccess).memWb = some r ∧ r.ioOperand = 0) ∧
      ∃ t, exec (.load 3 1 0) (full.atStage .memoryAccess) = .next t) :=
  ⟨⟨fun _ r h => by cases h; rfl, result_goes (by decide)⟩,
    (fun h => by cases h), ⟨_, rfl, rfl⟩, result_goes (by decide)⟩

theorem witness_StoreFrame :
    Memory.wf full.data = true ∧ (∃ t, exec (.store 2 1 0) (full.atStage .memoryAccess) = .next t) ∧
    ∃ t, passage (.store 2 1 0) (start [0x000008B9] 252 5) = .next t :=
  ⟨by decide, result_goes (by decide), result_goes (by decide)⟩

/-- Two equal register files reached by different writes. -/
theorem witness_RegisterFileHoldsWrites :
    ∀ q, ((State.reset.setReg 1 0).reg q) = (State.reset.reg q) := by decide

theorem witness_MemoryLaws : Memory.wf [(100, 0x34), (101, 0x12)] = true ∧
    Memory.wf ([] : Memory) = true := by decide

/-- Admissible maps, and one that is not: for StepIsTheSpecsPseudocode, in states of each, and for
ResetHasInv. -/
theorem witness_StepIsTheSpecsPseudocode :
    full.opcodes.admissible = true ∧ alternativeMap.admissible = true ∧
    full.opcodes.admissibleButIo = true ∧
    (State.boot alternativeMap [0x000208C0, 0x3F] 256).opcodes.admissibleButIo = true ∧
    (State.boot ioMap [0x000408BA, 0x3C] 256).opcodes.admissibleButIo = true := by decide

theorem witness_StepRunsDecodedInstruction :
    full.stageInput .decode = .ok (some 0x000208C2) ∧
    decodeWith full.opcodes 0x000208C2 = .ok (.add 3 1 2) ∧
    (flight [] 0 none (some ⟨0, 0x14, 0, 0, 0⟩) none none).stageInput .execute = .ok (some 0x14) ∧
    decodeWith (flight [] 0 none (some ⟨0, 0x14, 0, 0, 0⟩) none none).opcodes 0x14 =
      .error (.unknown 0x14) ∧
    (State.boot ioMap [0x000408BA] 256).stageInput .fetch = .ok (some 0x000408BA) ∧
    decodeWith (State.boot ioMap [0x000408BA] 256).opcodes 0x000408BA = .error (.badIo 0x3A) ∧
    decodeWith (start [0x000208C2] 7 5).opcodes 0x000208C2 = .ok (.add 3 1 2) ∧
    (start [0x000208C2] 7 5).drained = true ∧ (start [0x000208C2] 7 5).done = false ∧
    (start [0x000208C2] 7 5).fatal = none ∧
    (start [0x000208C2] 7 5).code[((start [0x000208C2] 7 5).reg 31).toNat]? = some 0x000208C2 := by
  decide

theorem witness_EveryStepKeepsInv :
    (full.Inv ∧ step full = .next (nextOf full)) ∧ (turning.Inv ∧ step turning = .next (nextOf turning)) ∧
    (branching.Inv ∧ step branching = .next (nextOf branching)) :=
  ⟨⟨inv_of_ok (by decide), step_goes (by decide)⟩, ⟨inv_of_ok (by decide), step_goes (by decide)⟩,
    ⟨inv_of_ok (by decide), step_goes (by decide)⟩⟩

theorem witness_PlacedWordIsFetched : full.Inv ∧ isHalt referenceMap (BitVec.ofNat 32 0x3E) = true :=
  ⟨inv_of_ok (by decide), by decide⟩

theorem witness_WriteBackStage :
    State.reset.memWb = none ∧ turning.Inv ∧
    (∃ r, turning.memWb = some r ∧ isLoad turning.opcodes r.instr = true) ∧
    (∃ r, branching.memWb = some r ∧ decodeType branching.opcodes r.instr = .binaryArithmetic) ∧
    (∃ r, full.memWb = some r ∧ decodeType full.opcodes r.instr = .misc) :=
  ⟨rfl, inv_of_ok (by decide), ⟨_, rfl, by decide⟩, ⟨_, rfl, by decide⟩, ⟨_, rfl, by decide⟩⟩

/-- A STORE, a JUMP, a LOAD at the last legal address, and a record that passes. -/
theorem witness_MemoryAccessStage :
    (full.Inv ∧ ∃ r, full.exMem = some r ∧ isStore full.opcodes r.instr = true) ∧
    (turning.Inv ∧ ∃ r, turning.exMem = some r ∧ decodeType turning.opcodes r.instr = .jump) ∧
    (branching.Inv ∧ ∃ r, branching.exMem = some r ∧ isLoad branching.opcodes r.instr = true) ∧
    (∃ s r, State.Inv s ∧ s.exMem = some r ∧ decodeType s.opcodes r.instr = .branch ∧ r.branchTaken = false) ∧
    (∃ t, runStage .writeBack turning = .next t) :=
  ⟨⟨inv_of_ok (by decide), _, rfl, by decide⟩, ⟨inv_of_ok (by decide), _, rfl, by decide⟩,
    ⟨inv_of_ok (by decide), _, rfl, by decide⟩,
    ⟨flight (nops 8) 4 none none (some ⟨2, 0xFFFFFEF3, false, 0, 0⟩) none, _, inv_of_ok (by decide), rfl,
      by decide, rfl⟩,
    result_goes (by decide)⟩

/-- Steps that go on with all four pipeline registers full: for PipelineAdvances, FetchRule,
RegisterRule, FlagRule's first part, MemoryAndLogRule and PortsDescribeTheCycle. -/
theorem witness_PipelineAdvances :
    (full.running ∧ step full = .next (nextOf full)) ∧
    (turning.running ∧ step turning = .next (nextOf turning)) ∧
    (branching.running ∧ step branching = .next (nextOf branching)) :=
  ⟨⟨⟨rfl, rfl⟩, step_goes (by decide)⟩, ⟨⟨rfl, rfl⟩, step_goes (by decide)⟩,
    ⟨⟨rfl, rfl⟩, step_goes (by decide)⟩⟩

/-- A redirect, a Write-Back to register 31 without one, and neither; the word fetched is a HALT or
not. -/
theorem witness_FetchRule :
    (turning.running ∧ step turning = .next (nextOf turning) ∧
      turning.exMem.bind (ExMem.redirect · turning.opcodes) = some 5) ∧
    (branching.running ∧ step branching = .next (nextOf branching) ∧
      branching.exMem.bind (ExMem.redirect · branching.opcodes) = none ∧
      ∃ m, branching.memWb = some m ∧ m.target branching.opcodes = some 31) ∧
    (∃ s, State.running s ∧ step s = .next (nextOf s) ∧
      s.exMem.bind (ExMem.redirect · s.opcodes) = none ∧
      s.memWb = none ∧ s.code[(s.reg 31).toNat]? = some 0x3E ∧ isHalt s.opcodes 0x3E = true) :=
  ⟨⟨⟨rfl, rfl⟩, step_goes (by decide), by decide⟩,
    ⟨⟨rfl, rfl⟩, step_goes (by decide), by decide, _, rfl, by decide⟩,
    ⟨State.boot referenceMap [0x3E] 256, ⟨rfl, rfl⟩, step_goes (by decide), by decide, rfl,
      by decide, by decide⟩⟩

theorem witness_RegisterRule :
    (turning.running ∧ step turning = .next (nextOf turning) ∧
      ∃ m, turning.memWb = some m ∧ m.target turning.opcodes = some 3) ∧
    (full.running ∧ step full = .next (nextOf full) ∧
      ∀ m, full.memWb = some m → m.target full.opcodes ≠ some 3) :=
  ⟨⟨⟨rfl, rfl⟩, step_goes (by decide), _, rfl, by decide⟩,
    ⟨⟨rfl, rfl⟩, step_goes (by decide), fun m h => by cases h; decide⟩⟩

/-- A COMPARE in Execute with a BRANCH behind it, over two steps; a BRANCH in Execute. -/
theorem witness_FlagRule :
    (turning.running ∧ step turning = .next (nextOf turning) ∧
      step (nextOf turning) = .next (nextOf (nextOf turning)) ∧
      (∃ c, turning.idEx = some c ∧
        ((opOfWord turning.opcodes c.instr).bind comparePredicate).isSome = true) ∧
      ∃ b, turning.ifId = some b ∧ decodeType turning.opcodes b.instr = .branch) ∧
    (branching.running ∧ step branching = .next (nextOf branching) ∧
      ∃ r, branching.idEx = some r ∧ decodeType branching.opcodes r.instr = .branch) :=
  ⟨⟨⟨rfl, rfl⟩, step_goes (by decide), step_goes (by decide), ⟨_, rfl, by decide⟩, _, rfl, by decide⟩,
    ⟨⟨rfl, rfl⟩, step_goes (by decide), _, rfl, by decide⟩⟩

theorem witness_OnlyBranchReadsTheFlag :
    (turning.running ∧ step turning = .next (nextOf turning) ∧
      ∃ r, turning.idEx = some r ∧ decodeType turning.opcodes r.instr = .compare) ∧
    (full.running ∧ step full = .next (nextOf full) ∧
      ∀ r, full.idEx = some r →
        decodeType full.opcodes r.instr ≠ .branch ∧ decodeType full.opcodes r.instr ≠ .compare) :=
  ⟨⟨⟨rfl, rfl⟩, step_goes (by decide), _, rfl, by decide⟩,
    ⟨⟨rfl, rfl⟩, step_goes (by decide), fun r h => by cases h; decide⟩⟩

theorem witness_MemoryAndLogRule :
    (full.running ∧ Memory.wf full.data = true ∧ step full = .next (nextOf full) ∧
      ∃ r, full.exMem = some r ∧ isStore full.opcodes r.instr = true) ∧
    (branching.running ∧ Memory.wf branching.data = true ∧ step branching = .next (nextOf branching) ∧
      ∀ r, branching.exMem = some r → isStore branching.opcodes r.instr = false) :=
  ⟨⟨⟨rfl, rfl⟩, by decide, step_goes (by decide), _, rfl, by decide⟩,
    ⟨⟨rfl, rfl⟩, by decide, step_goes (by decide), fun r h => by cases h; decide⟩⟩

theorem witness_LoadAfterStoreSeesIt :
    full.running ∧ Memory.wf full.data = true ∧ step full = .next (nextOf full) ∧
    step (nextOf full) = .next (nextOf (nextOf full)) ∧
    ∃ st l, full.exMem = some st ∧ isStore full.opcodes st.instr = true ∧ full.idEx = some l ∧
      isLoad full.opcodes l.instr = true ∧ l.operand1 + l.operand2 = st.result :=
  ⟨⟨rfl, rfl⟩, by decide, step_goes (by decide), step_goes (by decide), _, _, rfl, by decide, rfl,
    by decide, by decide⟩

/-- UNKNOWN and the first illegal address in Execute (the former with the fetch index out of range as
well); the first fetch index out of range with Execute going on; the last legal address and index. -/
theorem witness_StopsExactly :
    (∃ s, State.Inv s ∧ s.done = false ∧ step s = .fault .unknownInstruction ∧
      s.code.length ≤ s.redirectedPc.toNat) ∧
    (∃ s, State.Inv s ∧ s.done = false ∧ step s = .fault .dataAddressOutOfRange) ∧
    (∃ s, State.Inv s ∧ s.done = false ∧ step s = .fault .fetchOutOfRange) ∧
    (∃ s, State.Inv s ∧ s.done = false ∧ step s = .next (nextOf s)) :=
  ⟨⟨flight (nops 2) 2 none (some ⟨0, 0x14, 0, 0, 0⟩) none none, inv_of_ok (by decide), rfl,
      step_stops (by decide), by decide⟩,
    ⟨flight (nops 2) 1 none (some ⟨0, 0x000008F8, 252, 1, 3⟩) none none, inv_of_ok (by decide), rfl,
      step_stops (by decide)⟩,
    ⟨flight (nops 2) 2 none (some ⟨0, 0x000008F8, 251, 1, 3⟩) none none, inv_of_ok (by decide), rfl,
      step_stops (by decide)⟩,
    ⟨flight (nops 2) 1 none (some ⟨0, 0x000008F8, 251, 1, 3⟩) none none, inv_of_ok (by decide), rfl,
      step_goes (by decide)⟩⟩

theorem witness_FaultedState :
    (∃ s, State.Inv s ∧ s.done = false ∧ step s = .fault .unknownInstruction) ∧
    (∃ s, State.Inv s ∧ s.done = false ∧ step s = .fault .fetchOutOfRange) :=
  ⟨⟨{ full with idEx := some ⟨3, 0x14, 0, 0, 0⟩ }, inv_of_ok (by decide), rfl, step_stops (by decide)⟩,
    ⟨{ full with code := nops 4 }, inv_of_ok (by decide), rfl, step_stops (by decide)⟩⟩

theorem witness_DoneRule :
    (∃ s, State.running s ∧ step s = .next (nextOf s) ∧ (nextOf s).done = true) ∧
    (∃ s, State.done s = true ∧ s.fatal = none) ∧
    (∃ s, State.fatal s = some .unknownInstruction) :=
  ⟨⟨State.boot referenceMap [0x3E] 256, ⟨rfl, rfl⟩, step_goes (by decide), by decide⟩,
    ⟨{ State.reset with done := true }, rfl, rfl⟩,
    ⟨State.reset.raiseFatal .unknownInstruction, rfl⟩⟩

/-- A word in IF_ID and HALT at the program counter. -/
def draining : State := flight [0x000208C2, 0x3E] 1 (some ⟨1, 0x000208C2⟩) none none none

theorem witness_LastFetchEndsRunAfterFourCycles :
    ∃ s0 s1 s2 s3 s4 : State, s0.running ∧ s0.ifId ≠ none ∧
      step s0 = .next s1 ∧ step s1 = .next s2 ∧ step s2 = .next s3 ∧ step s3 = .next s4 ∧
      s1.ifId = none ∧ s2.ifId = none ∧ s3.ifId = none ∧ s4.ifId = none :=
  ⟨draining, nextOf draining, nextOf (nextOf draining), nextOf (nextOf (nextOf draining)),
    nextOf (nextOf (nextOf (nextOf draining))), ⟨rfl, rfl⟩, by decide, step_goes (by decide),
    step_goes (by decide), step_goes (by decide), step_goes (by decide), by decide, by decide, by decide,
    by decide⟩

/-- A producer before Decode with NOPs behind it: an ADD and a LOAD of register 3. -/
def producing (w : Word) : State := flight (nops 8) 1 (some ⟨1, w⟩) none none none

theorem witness_RegisterVisibleAtDistanceThree :
    ∀ w, w = 0x000208C2 ∨ w = 0x000008F8 →
    ∃ s0 s1 s2 s3 s4 : State, s0.Inv ∧
      step s0 = .next s1 ∧ step s1 = .next s2 ∧ step s2 = .next s3 ∧ step s3 = .next s4 ∧
      ∃ p, s0.ifId = some p ∧ destinationOf s0.opcodes p.instr = some 3 ∧ (3 : RegIndex) ≠ 31 ∧
        s0.idEx = none ∧ s0.exMem = none ∧ s0.memWb = none := by
  rintro w (rfl | rfl)
  · exact ⟨producing 0x000208C2, nextOf (producing 0x000208C2), nextOf (nextOf (producing 0x000208C2)),
      nextOf (nextOf (nextOf (producing 0x000208C2))),
      nextOf (nextOf (nextOf (nextOf (producing 0x000208C2)))), inv_of_ok (by decide),
      step_goes (by decide), step_goes (by decide), step_goes (by decide), step_goes (by decide),
      _, rfl, by decide, by decide, rfl, rfl, rfl⟩
  · exact ⟨producing 0x000008F8, nextOf (producing 0x000008F8), nextOf (nextOf (producing 0x000008F8)),
      nextOf (nextOf (nextOf (producing 0x000008F8))),
      nextOf (nextOf (nextOf (nextOf (producing 0x000008F8)))), inv_of_ok (by decide),
      step_goes (by decide), step_goes (by decide), step_goes (by decide), step_goes (by decide),
      _, rfl, by decide, by decide, rfl, rfl, rfl⟩

/-- The machine with `w` before Decode. -/
def reading (s : State) (w : Word) : State := { s with ifId := some ⟨4, w⟩ }

/-- `ADD r3, r31, r31` and `STORE r31, r31, 0` before Decode, with a redirect, a Write-Back to register
31, and neither. -/
theorem witness_ReadingTheProgramCounter :
    ∀ w i, (w = 0x001FF8C2 ∧ i = .add 3 31 31) ∨ (w = 0x0000FFF9 ∧ i = .store 31 31 0) →
    operand1Register i = some 31 ∧
    (operand2Register i = some 31 ∨ storedRegister i = some 31) ∧
    (∃ s t, State.Inv s ∧ s.running ∧ step s = .next t ∧ s.ifId = some ⟨4, w⟩ ∧
      decodeWith s.opcodes w = .ok i ∧ s.exMem.bind (ExMem.redirect · s.opcodes) = some 5) ∧
    (∃ s t, State.Inv s ∧ s.running ∧ step s = .next t ∧ s.ifId = some ⟨4, w⟩ ∧
      decodeWith s.opcodes w = .ok i ∧ s.exMem.bind (ExMem.redirect · s.opcodes) = none ∧
      ∃ m, s.memWb = some m ∧ m.target s.opcodes = some 31) ∧
    (∃ s t, State.Inv s ∧ s.running ∧ step s = .next t ∧ s.ifId = some ⟨4, w⟩ ∧
      decodeWith s.opcodes w = .ok i ∧ s.exMem.bind (ExMem.redirect · s.opcodes) = none ∧
      ∀ m, s.memWb = some m → m.target s.opcodes ≠ some 31) := by
  rintro w i (⟨rfl, rfl⟩ | ⟨rfl, rfl⟩)
  · exact ⟨rfl, .inl rfl,
      ⟨reading turning _, _, inv_of_ok (by decide), ⟨rfl, rfl⟩, step_goes (by decide), rfl, by decide,
        by decide⟩,
      ⟨reading branching _, _, inv_of_ok (by decide), ⟨rfl, rfl⟩, step_goes (by decide), rfl, by decide,
        by decide, _, rfl, by decide⟩,
      ⟨reading full _, _, inv_of_ok (by decide), ⟨rfl, rfl⟩, step_goes (by decide), rfl, by decide,
        by decide, fun m h => by cases h; decide⟩⟩
  · exact ⟨rfl, .inr rfl,
      ⟨reading turning _, _, inv_of_ok (by decide), ⟨rfl, rfl⟩, step_goes (by decide), rfl, by decide,
        by decide⟩,
      ⟨reading branching _, _, inv_of_ok (by decide), ⟨rfl, rfl⟩, step_goes (by decide), rfl, by decide,
        by decide, _, rfl, by decide⟩,
      ⟨reading full _, _, inv_of_ok (by decide), ⟨rfl, rfl⟩, step_goes (by decide), rfl, by decide,
        by decide, fun m h => by cases h; decide⟩⟩

/-- `JUMPI 3`, and `BRANCHI 3` with the flag set and clear, before Decode with an ADD, a NOP and a
STORE older in flight. -/
def transferring (w : Word) (flag : Bool) : State :=
  { flight (nops 8) 4 (some ⟨4, w⟩) (some ⟨3, 0x000208C2, 1, 2, 0⟩)
      (some ⟨2, 0x3C, false, 0, 0⟩) (some ⟨1, 0x000008B9, 7, 5⟩) with flag := flag }

/-- What TransferHasTwoDelaySlots assumes of its first state, as a check over three steps. -/
theorem witness_TransferHasTwoDelaySlots :
    ∀ w b, (w = 0x000000F1 ∧ b = false) ∨ (w = 0x000000F3 ∧ b = false) ∨ (w = 0x000000F3 ∧ b = true) →
    ∃ s0 s1 s2 s3 : State, s0.Inv ∧
      step s0 = .next s1 ∧ step s1 = .next s2 ∧ step s2 = .next s3 ∧
      s1.flag = b ∧
      ∃ j, s0.ifId = some j ∧ isTransfer s0.opcodes j.instr = true ∧
        (∀ r, s0.idEx = some r →
          isTransfer s0.opcodes r.instr = false ∧ destinationOf s0.opcodes r.instr ≠ some 31) ∧
        (∀ r, s0.exMem = some r →
          isTransfer s0.opcodes r.instr = false ∧ destinationOf s0.opcodes r.instr ≠ some 31) ∧
        (∀ r, s0.memWb = some r → destinationOf s0.opcodes r.instr ≠ some 31) ∧
        s0.code[j.nextPc.toNat]? = some 0x3C ∧ s0.code[(j.nextPc + 1).toNat]? = some 0x3C ∧
        isHalt s0.opcodes 0x3C = false := by
  have go (w : Word) (b : Bool) (hi : invOk (transferring w b) = true)
      (h1 : nextHas (fun _ => true) (step (transferring w b)) = true)
      (h2 : nextHas (fun _ => true) (step (nextOf (transferring w b))) = true)
      (h3 : nextHas (fun _ => true) (step (nextOf (nextOf (transferring w b)))) = true)
      (hf : (nextOf (transferring w b)).flag = b) (hw : isTransfer referenceMap w = true) :
      ∃ s0 s1 s2 s3 : State, s0.Inv ∧
        step s0 = .next s1 ∧ step s1 = .next s2 ∧ step s2 = .next s3 ∧
        s1.flag = b ∧
        ∃ j, s0.ifId = some j ∧ isTransfer s0.opcodes j.instr = true ∧
          (∀ r, s0.idEx = some r →
          isTransfer s0.opcodes r.instr = false ∧ destinationOf s0.opcodes r.instr ≠ some 31) ∧
          (∀ r, s0.exMem = some r →
          isTransfer s0.opcodes r.instr = false ∧ destinationOf s0.opcodes r.instr ≠ some 31) ∧
          (∀ r, s0.memWb = some r → destinationOf s0.opcodes r.instr ≠ some 31) ∧
          s0.code[j.nextPc.toNat]? = some 0x3C ∧ s0.code[(j.nextPc + 1).toNat]? = some 0x3C ∧
          isHalt s0.opcodes 0x3C = false :=
    ⟨transferring w b, nextOf (transferring w b), nextOf (nextOf (transferring w b)),
      nextOf (nextOf (nextOf (transferring w b))), inv_of_ok hi, step_goes h1, step_goes h2, step_goes h3,
      hf, ⟨4, w⟩, rfl, hw,
      fun r h => by
        cases h
        change isTransfer referenceMap _ = false ∧ destinationOf referenceMap _ ≠ some 31
        decide,
      fun r h => by
        cases h
        change isTransfer referenceMap _ = false ∧ destinationOf referenceMap _ ≠ some 31
        decide,
      fun r h => by cases h; change destinationOf referenceMap _ ≠ some 31; decide,
      rfl, rfl, (by decide : isHalt referenceMap 0x3C = false)⟩
  rintro w b (⟨rfl, rfl⟩ | ⟨rfl, rfl⟩ | ⟨rfl, rfl⟩)
  · exact go 0x000000F1 false (by decide) (by decide) (by decide) (by decide) (by decide) (by decide)
  · exact go 0x000000F3 false (by decide) (by decide) (by decide) (by decide) (by decide) (by decide)
  · exact go 0x000000F3 true (by decide) (by decide) (by decide) (by decide) (by decide) (by decide)

/-- `ADD`, whose passage goes on to index 1, and `JUMPI 1`, whose passage goes on to index 2, with HALT
there; a LOAD whose passage stops. -/
theorem witness_InstructionAloneRunsItsPassage :
    (∀ w, w = 0x000208C2 ∨ w = 0x00000071 →
      ∃ i s u, State.running s ∧ s.stage = .fetch ∧ s.drained = true ∧ i ≠ .halt ∧
        s.code[(s.reg 31).toNat]? = some w ∧ decodeWith s.opcodes w = .ok i ∧
        s.code[(s.reg 31 + 1).toNat]? = some 0x3E ∧ isHalt s.opcodes 0x3E = true ∧
        passage i s = .next u ∧ s.code[(u.reg 31).toNat]? = some 0x3E) ∧
    (∃ s, State.running s ∧ s.stage = .fetch ∧ s.drained = true ∧
      s.code[(s.reg 31).toNat]? = some 0x000008F8 ∧ decodeWith s.opcodes 0x000008F8 = .ok (.load 3 1 0) ∧
      s.code[(s.reg 31 + 1).toNat]? = some 0x3E ∧
      passage (.load 3 1 0) s = .fault .dataAddressOutOfRange) := by
  refine ⟨?_, start [0x000008F8, 0x3E] 253 0, ⟨rfl, rfl⟩, rfl, by decide, by decide, by decide,
    by decide, result_stops (by decide)⟩
  have go (w : Word) (i : Instr) (hi : i ≠ .halt) (hd : decodeWith referenceMap w = .ok i)
      (h : nextHas (fun u => decide ([w, 0x3E, 0x3E][(u.reg 31).toNat]? = some 0x3E))
        (passage i (start [w, 0x3E, 0x3E] 7 5)) = true) :
      ∃ i s u, State.running s ∧ s.stage = .fetch ∧ s.drained = true ∧ i ≠ .halt ∧
        s.code[(s.reg 31).toNat]? = some w ∧ decodeWith s.opcodes w = .ok i ∧
        s.code[(s.reg 31 + 1).toNat]? = some 0x3E ∧ isHalt s.opcodes 0x3E = true ∧
        passage i s = .next u ∧ s.code[(u.reg 31).toNat]? = some 0x3E := by
    cases hp : passage i (start [w, 0x3E, 0x3E] 7 5) with
    | next u =>
      rw [hp] at h
      exact ⟨i, _, u, ⟨rfl, rfl⟩, rfl, rfl, hi, rfl, hd, rfl,
        (by decide : isHalt referenceMap 0x3E = true), hp, of_decide_eq_true h⟩
    | fault c => rw [hp] at h; cases h
    | refused q => rw [hp] at h; cases h
  rintro w (rfl | rfl)
  · exact go 0x000208C2 (.add 3 1 2) (by decide) (by decide) (by decide)
  · exact go 0x00000071 (.jumpi 1) (by decide) (by decide) (by decide)

/-- Four words, one of each type that only computes, of a program with HALT behind them. -/
def computing : List Word := [0x000208C2, 0x00000890, 0x00001060, 0x3C]

theorem witness_StraightLineProgramRunsFourMoreCycles :
    referenceMap.admissible = true ∧ computing ≠ [] ∧ computing.length < 2 ^ 32 ∧ isHalt referenceMap 0x3E = true ∧
    ∀ w ∈ computing, isHalt referenceMap w = false ∧ destinationOf referenceMap w ≠ some 31 ∧
      (decodeType referenceMap w = .binaryArithmetic ∨ decodeType referenceMap w = .unaryArithmetic ∨
        decodeType referenceMap w = .compare ∨ decodeType referenceMap w = .misc) := by
  refine ⟨referenceMap_admissible, by decide, by simp [computing], by decide, fun w hw => ?_⟩
  simp only [computing, List.mem_cons, List.not_mem_nil, or_false] at hw
  rcases hw with rfl | rfl | rfl | rfl <;> decide

/-- A write, a read and no access. -/
theorem witness_PortsDescribeTheCycle :
    (full.running ∧ step full = .next (nextOf full) ∧
      full.ports.dataAccess = some (.write 7 0x12345678)) ∧
    (branching.running ∧ step branching = .next (nextOf branching) ∧
      branching.ports.dataAccess = some (.read 252)) ∧
    (turning.running ∧ step turning = .next (nextOf turning) ∧ turning.ports.dataAccess = none) :=
  ⟨⟨⟨rfl, rfl⟩, step_goes (by decide), by decide⟩, ⟨⟨rfl, rfl⟩, step_goes (by decide), by decide⟩,
    ⟨⟨rfl, rfl⟩, step_goes (by decide), by decide⟩⟩

/-- `full` with a further IO opcode before Decode. -/
def badIo : State := { full with opcodes := ioMap, ifId := some ⟨3, 0x000408BA⟩ }

/-- Such a word stops the step where the older stages go on (a STORE in Memory-Access and a LOAD in
Execute do); with an illegal address in Execute the older stop comes first (R239), and so does that of an
illegal address before Memory-Access, in a state no run reaches (log 16); a STORE at OPC_STORE itself goes
on. -/
theorem witness_BadIoOpcodeStopsInDecode :
    (decodeType ioMap 0x000408BA = .io ∧ opcodeField 0x000408BA ≠ ioMap.opcodeOf .load ∧
      opcodeField 0x000408BA ≠ ioMap.opcodeOf .store) ∧
    (badIo.running ∧ step badIo = .fault .badIoOpcode ∧
      (stopState badIo).map (fun u => (u.fatal, u.idEx, u.log)) =
        some (some .badIoOpcode, badIo.idEx, badIo.log ++ [7])) ∧
    step { badIo with idEx := some ⟨0, 0x000008F8, 252, 1, 3⟩ } = .fault .dataAddressOutOfRange ∧
    (badIo.exMem.map (fun r => isIo ioMap r.instr && legalAddress badIo.dataSize r.result) = some true ∧
      step { badIo with exMem := badIo.exMem.map (fun r => { r with result := 253 }) } =
        .fault .dataAddressOutOfRange) ∧
    step { badIo with ifId := some ⟨3, 0x000408B9⟩ } =
      .next (nextOf { badIo with ifId := some ⟨3, 0x000408B9⟩ }) :=
  ⟨by decide, ⟨⟨rfl, rfl⟩, step_stops (by decide), by decide⟩, step_stops (by decide),
    ⟨by decide, step_stops (by decide)⟩, step_goes (by decide)⟩

end Sys2Proof.Tests
end

section
/-! PROOF of O59. What the ports show (spec/00_scope.md R6) against what a cycle that goes on does: the
index of the fetch is what the older stages leave in the program counter (R16, R128), and the one data
access decides what becomes of memory and the log (R22, R34). -/

namespace Sys2Proof.Machine

/-! ## The code address -/

/-- The stages before Fetch, when none of them stops. -/
theorem runStages_olderStages {s : State} (hl : s.addressLegal) (he : s.executes) (hd : s.decodes) :
    runStages olderStages s =
      .next (s.wroteBack.accessed.executed.decoded.atStage .decode) := by
  obtain ⟨ko, ki, -, -⟩ := s.wroteBack.accessed.executed_keeps
  have hma := runStage_memoryAccess (s.wroteBack.atStage .writeBack)
    (by simpa [State.addressLegal] using hl)
  have hx := runStage_execute (s.wroteBack.accessed.atStage .memoryAccess)
    (by simpa [State.executes] using he)
  have hdec := runStage_decode (s.wroteBack.accessed.executed.atStage .execute)
    (by simpa [ko, ki, State.decodes] using hd)
  simp only [olderStages, runStages, runStage_writeBack, andThen_next, hma, State.accessed_atStage,
    State.atStage_atStage, hx, State.executed_atStage, hdec]
  rfl

/-- The index Fetch presents is the program counter as the older stages leave it (R16, R128). -/
theorem fetchIndex_eq_redirectedPc {s : State} (hl : s.addressLegal) (he : s.executes)
    (hd : s.decodes) : fetchIndex s = some s.redirectedPc := by
  obtain ⟨-, -, -, kp⟩ := s.wroteBack.accessed.executed_keeps
  rw [fetchIndex, runStages_olderStages hl he hd]
  exact congrArg some (kp.trans s.pc_decode)

/-! ## The data access -/

/-- The record before Memory-Access is a LOAD, which reads, a STORE, which writes, or drives no access. -/
theorem ExMem.dataAccess_cases (r : ExMem) (m : OpcodeMap) :
    (r.dataAccess m = some (.read r.result) ∧ isLoad m r.instr = true ∧ isStore m r.instr = false) ∨
    (r.dataAccess m = some (.write r.result r.ioOperand) ∧ isStore m r.instr = true) ∨
    (r.dataAccess m = none ∧ isStore m r.instr = false) := by
  unfold ExMem.dataAccess isLoad isStore
  split
  case h_1 ho => exact .inl ⟨rfl, by simp [ho], by simp [ho]⟩
  case h_2 ho => exact .inr (.inl ⟨rfl, by simp [ho]⟩)
  case h_3 _ hs => exact .inr (.inr ⟨rfl, decide_eq_false hs⟩)

/-- The data access of the cycle that begins in `s`, before the stop marks are looked at. -/
def State.pendingAccess (s : State) : Option DataAccess :=
  s.exMem.bind (ExMem.dataAccess · s.opcodes)

/-- What a cycle does to memory and the log follows from its one data access (R22, R34). -/
theorem State.pendingAccess_cases (s : State) (w : Word) :
    (s.pendingAccess = none ∧ (s.afterCycle w).data = s.data ∧ (s.afterCycle w).log = s.log) ∨
    (∃ a, s.pendingAccess = some (.read a) ∧ (s.afterCycle w).data = s.data ∧
      (s.afterCycle w).log = s.log ∧
      ∃ m, (s.afterCycle w).memWb = some m ∧ m.result = s.data.readWord a.toNat) ∨
    (∃ a v, s.pendingAccess = some (.write a v) ∧
      (s.afterCycle w).data = s.data.writeWord a.toNat v ∧ (s.afterCycle w).log = s.log ++ [a]) := by
  rw [s.data_afterCycle, s.log_afterCycle, s.memWb_afterCycle, State.pendingAccess]
  rcases Option.eq_none_or_eq_some s.exMem with hr | ⟨r, hr⟩
  · exact .inl (by simp [hr])
  · rcases r.dataAccess_cases s.opcodes with ⟨ha, hload, hstore⟩ | ⟨ha, hstore⟩ | ⟨ha, hstore⟩
    · exact .inr (.inl ⟨r.result, by simp [hr, ha, hstore, ExMem.accessed, hload]⟩)
    · exact .inr (.inr ⟨r.result, r.ioOperand, by simp [hr, ha, hstore]⟩)
    · exact .inl (by simp [hr, ha, hstore])

/-! ## The ports of a running state -/

section running
variable {s : State} (h : s.running)
include h

theorem State.codeAddr_ports : s.ports.codeAddr = fetchIndex s := by
  simp [State.ports, h.1, h.2]

theorem State.dataAccess_ports : s.ports.dataAccess = s.pendingAccess := by
  simp [State.ports, State.pendingAccess, h.1, h.2]

end running

theorem State.done_ports (s : State) : s.ports.done = s.done := rfl

theorem State.fatal_ports (s : State) : s.ports.fatal = s.fatal := rfl

/-- The address a data access stores to. -/
def DataAccess.storeAddr : DataAccess → Option Word
  | .read _ => none
  | .write a _ => some a

@[simp] theorem DataAccess.storeAddr_read (a : Word) : (DataAccess.read a).storeAddr = none := rfl

@[simp] theorem DataAccess.storeAddr_write (a v : Word) :
    (DataAccess.write a v).storeAddr = some a := rfl

/-- The store event is the address of the write access, if there is one (R6, R22). -/
theorem State.storeLog_ports (s : State) :
    s.ports.storeLog = s.ports.dataAccess.bind DataAccess.storeAddr := by
  simp only [State.ports]
  split
  case h_1 ha => rw [ha]; rfl
  case h_2 hno =>
    symm
    rw [Option.bind_eq_none_iff]
    rintro (_ | ⟨a, v⟩) ha
    · rfl
    · exact absurd ha (hno a v)

/-- Settles O59: the cycle's next state is `afterCycle` of the word at the code address, and each kind of
data access says what that state holds. -/
theorem portsDescribeTheCycle : Obligations.PortsDescribeTheCycle := by
  unfold Obligations.PortsDescribeTheCycle
  intro s t hrun hstep
  rw [step_of_running hrun.2 hrun.1] at hstep
  obtain ⟨hl, he, hd, w, hw, rfl⟩ := cycle_next hstep
  have hcode : s.ports.codeAddr = some s.redirectedPc :=
    (State.codeAddr_ports hrun).trans (fetchIndex_eq_redirectedPc hl he hd)
  refine ⟨⟨s.redirectedPc, hcode, w, hw, s.ifId_afterCycle w⟩, ?_⟩
  rw [s.storeLog_ports, State.dataAccess_ports hrun, s.done_ports, s.fatal_ports, hrun.1, hrun.2]
  rcases s.pendingAccess_cases w with ⟨ha, hdata, hlog⟩ | ⟨a, ha, hdata, hlog, hmem⟩ |
    ⟨a, v, ha, hdata, hlog⟩
  · simp [ha, hdata, hlog]
  · simp [ha, hdata, hlog, hmem]
  · simp [ha, hdata, hlog]

end Sys2Proof.Machine
end

section
/-! PROOF of O39. Every step keeps the invariant (`State.Inv`): a cycle that goes on leads to
`afterCycle`, and each clause of the invariant follows from what one stage does to one record. The lemmas
about words, records and the state after a cycle serve the whole-machine rules below as well. -/

namespace Sys2Proof.Machine

/-! ## Words -/

theorem isLoad_iff {m : OpcodeMap} {w : Word} : isLoad m w = true ↔ opOfWord m w = some .load := by
  simp [isLoad]

theorem decodeType_of_isIo {m : OpcodeMap} {w : Word} (h : isIo m w = true) :
    decodeType m w = .io := by
  rw [isIo_eq, Bool.and_eq_true, decide_eq_true_eq] at h
  exact h.1

/-- A word that has a function of the ALU is of the type of that function's table (R101). -/
theorem bind_none_of_type {α : Type} {m : OpcodeMap} {w : Word} {f : Op → Option α} {ty : InstrType}
    (hf : ∀ op : Op, op.type ≠ ty → f op = none) (h : decodeType m w ≠ ty) :
    (opOfWord m w).bind f = none := by
  rw [Option.bind_eq_none_iff]
  intro op ho
  exact hf op (decodeType_of_op ho ▸ h)

/-! ## Records -/

/-- The words in flight are the words of the four records. -/
theorem State.mem_inFlight {s : State} {w : Word} :
    w ∈ s.inFlight ↔ s.ifId.map IfId.instr = some w ∨ s.idEx.map IdEx.instr = some w ∨
      s.exMem.map ExMem.instr = some w ∨ s.memWb.map MemWb.instr = some w := by
  simp only [State.inFlight, List.mem_append, Option.mem_toList, or_assoc]

@[simp] theorem IfId.instr_decoded (r : IfId) (s : State) : (r.decoded s).instr = r.instr := rfl

@[simp] theorem IdEx.instr_executed (r : IdEx) (m : OpcodeMap) (b : Bool) :
    (r.executed m b).instr = r.instr := rfl

@[simp] theorem IdEx.result_executed (r : IdEx) (m : OpcodeMap) (b : Bool) :
    (r.executed m b).result = r.result m := rfl

@[simp] theorem IdEx.ioOperand_executed (r : IdEx) (m : OpcodeMap) (b : Bool) :
    (r.executed m b).ioOperand = r.ioOperand := rfl

@[simp] theorem ExMem.instr_accessed (r : ExMem) (m : OpcodeMap) (d : Memory) :
    (r.accessed m d).instr = r.instr := by
  unfold ExMem.accessed
  split <;> rfl

@[simp] theorem ExMem.ioOperand_accessed (r : ExMem) (m : OpcodeMap) (d : Memory) :
    (r.accessed m d).ioOperand = r.ioOperand := by
  unfold ExMem.accessed
  split <;> rfl

/-- Decode of a word with an operation resolves that instruction's operands (R123). -/
theorem IfId.operands_of_op {r : IfId} {s : State} {op : Op}
    (h : opOfWord s.opcodes r.instr = some op) :
    r.operands s = operandsOf (instrOf op r.instr) r s := by
  simp [IfId.operands, h]

/-- Decode of a LOAD resolves its destination's index (R123). -/
theorem IfId.ioOperand_decoded_of_load {r : IfId} {s : State}
    (h : isLoad s.opcodes r.instr = true) :
    (r.decoded s).ioOperand = (fieldA r.instr).setWidth 32 := by
  rw [IfId.decoded, IfId.operands_of_op (isLoad_iff.1 h)]
  rfl

/-- Execute of a jump, a branch or an IO word computes the sum of the operands (R124). -/
theorem IdEx.result_of_sum {r : IdEx} {m : OpcodeMap}
    (h : decodeType m r.instr = .jump ∨ decodeType m r.instr = .branch ∨
      decodeType m r.instr = .io) : r.result m = r.operand1 + r.operand2 := by
  have hb : (opOfWord m r.instr).bind binaryFunction = none :=
    bind_none_of_type (fun _ => binaryFunction_none) (by rcases h with h | h | h <;> simp [h])
  have hu : (opOfWord m r.instr).bind unaryFunction = none :=
    bind_none_of_type (fun _ => unaryFunction_none) (by rcases h with h | h | h <;> simp [h])
  rw [IdEx.result, hb, hu]
  rcases h with h | h | h <;> simp [h]

/-- `branch_taken` is set for a JUMP, and for a BRANCH when the flag is (R124). -/
theorem IdEx.taken_iff {r : IdEx} {m : OpcodeMap} {b : Bool} :
    r.taken m b = true ↔
      decodeType m r.instr = .jump ∨ (decodeType m r.instr = .branch ∧ b = true) := by
  unfold IdEx.taken
  split <;> simp_all

/-- A record that does not stop Execute is not UNKNOWN (R233). -/
theorem IdEx.known_of_stop_none {r : IdEx} {m : OpcodeMap} {n : Nat} (h : r.stop m n = none) :
    decodeType m r.instr ≠ .unknown := by
  intro hu
  simp [IdEx.stop, hu] at h

/-- An IO record that does not stop Execute has a legal address (R235). -/
theorem IdEx.legal_of_stop_none {r : IdEx} {m : OpcodeMap} {n : Nat} (h : r.stop m n = none)
    (hio : decodeType m r.instr = .io) : legalAddress n (r.operand1 + r.operand2) = true := by
  simpa [IdEx.stop, hio] using h

/-! ## The state after a cycle -/

/-- A step of a running state that goes on is a cycle in which no stage stops. -/
theorem step_next_running {s t : State} (hrun : s.running) (h : step s = .next t) :
    s.addressLegal ∧ s.executes ∧ s.decodes ∧
      ∃ w, s.code[s.redirectedPc.toNat]? = some w ∧ t = s.afterCycle w :=
  cycle_next (step_of_running hrun.2 hrun.1 ▸ h)

section afterCycle
variable (s : State) (w : Word)

theorem State.idEx_instr_afterCycle :
    (s.afterCycle w).idEx.map IdEx.instr = s.ifId.map IfId.instr := by
  rw [State.idEx_afterCycle, Option.map_map]
  rfl

theorem State.exMem_instr_afterCycle :
    (s.afterCycle w).exMem.map ExMem.instr = s.idEx.map IdEx.instr := by
  rw [State.exMem_afterCycle, Option.map_map]
  rfl

theorem State.memWb_instr_afterCycle :
    (s.afterCycle w).memWb.map MemWb.instr = s.exMem.map ExMem.instr := by
  rw [State.memWb_afterCycle, Option.map_map]
  exact congrArg (Option.map · s.exMem) (funext fun r => r.instr_accessed s.opcodes s.data)

/-- The IF-result after a cycle carries the fetched word and the new program counter (R121). -/
theorem State.ifId_afterCycle_pc :
    (s.afterCycle w).ifId =
      if isHalt s.opcodes w then none else some ⟨(s.afterCycle w).pc, w⟩ := by
  rw [State.ifId_afterCycle, State.pc_afterCycle]
  cases isHalt s.opcodes w <;> rfl

/-- A word in flight after a cycle was in flight before, or was fetched and is no HALT (R134). -/
theorem State.inFlight_afterCycle {v : Word} (h : v ∈ (s.afterCycle w).inFlight) :
    v ∈ s.inFlight ∨ isHalt s.opcodes v = false := by
  rw [State.mem_inFlight, State.idEx_instr_afterCycle, State.exMem_instr_afterCycle,
    State.memWb_instr_afterCycle, State.ifId_afterCycle] at h
  rcases h with h | h | h | h
  · cases hw : isHalt s.opcodes w with
    | true => simp [hw] at h
    | false =>
      have hv : w = v := by simpa [hw] using h
      exact .inr (hv ▸ hw)
  · exact .inl (State.mem_inFlight.2 (.inl h))
  · exact .inl (State.mem_inFlight.2 (.inr (.inl h)))
  · exact .inl (State.mem_inFlight.2 (.inr (.inr (.inl h))))

/-- A cycle writes memory and the log for a STORE in Memory-Access, and leaves both alone otherwise
(R22, R34). -/
theorem State.store_afterCycle_cases :
    (∃ r, s.exMem = some r ∧ isStore s.opcodes r.instr = true ∧
      (s.afterCycle w).data = s.data.writeWord r.result.toNat r.ioOperand ∧
      (s.afterCycle w).log = s.log ++ [r.result]) ∨
    ((∀ r, s.exMem = some r → isStore s.opcodes r.instr = false) ∧
      (s.afterCycle w).data = s.data ∧ (s.afterCycle w).log = s.log) := by
  rw [State.data_afterCycle, State.log_afterCycle]
  rcases Option.eq_none_or_eq_some s.exMem with hr | ⟨r, hr⟩
  · exact .inr (by simp [hr])
  · cases hs : isStore s.opcodes r.instr with
    | true => exact .inl ⟨r, by simp [hr, hs]⟩
    | false => exact .inr (by simp [hr, hs])

end afterCycle

/-! ## The clauses of the invariant that a cycle has to re-establish -/

section clauses
variable {s : State} (w : Word)

/-- Memory and the log after a cycle whose addresses are legal (R33, R37). -/
theorem State.Inv.memory_afterCycle (h : s.Inv) :
    Memory.wf (s.afterCycle w).data = true ∧ (∀ c ∈ (s.afterCycle w).data, c.1 < s.dataSize) ∧
      ∀ a ∈ (s.afterCycle w).log, legalAddress s.dataSize a = true := by
  rcases s.store_afterCycle_cases w with ⟨r, hr, hs, hdata, hlog⟩ | ⟨-, hdata, hlog⟩
  · have hlegal := h.address_legal r hr (by simp [isIo, hs])
    rw [hdata, hlog]
    refine ⟨Memory.writeWord_wf _ _ _ h.data_wf,
      Memory.writeWord_bounded ((legalAddress_iff _ _).1 hlegal) h.data_bounded, fun a ha => ?_⟩
    rcases List.mem_append.1 ha with ha | ha
    · exact h.log_legal a ha
    · exact List.mem_singleton.1 ha ▸ hlegal
  · rw [hdata, hlog]
    exact ⟨h.data_wf, h.data_bounded, h.log_legal⟩

theorem State.of_idEx_afterCycle {x : IdEx} (hx : (s.afterCycle w).idEx = some x) :
    ∃ r, s.ifId = some r ∧ x = r.decoded s.wroteBack.accessed := by
  rw [State.idEx_afterCycle, Option.map_eq_some_iff] at hx
  obtain ⟨r, hr, rfl⟩ := hx
  exact ⟨r, hr, rfl⟩

theorem State.of_exMem_afterCycle {x : ExMem} (hx : (s.afterCycle w).exMem = some x) :
    ∃ r, s.idEx = some r ∧ x = r.executed s.opcodes s.flag := by
  rw [State.exMem_afterCycle, Option.map_eq_some_iff] at hx
  obtain ⟨r, hr, rfl⟩ := hx
  exact ⟨r, hr, rfl⟩

theorem State.of_memWb_afterCycle {x : MemWb} (hx : (s.afterCycle w).memWb = some x) :
    ∃ r, s.exMem = some r ∧ x = r.accessed s.opcodes s.data := by
  rw [State.memWb_afterCycle, Option.map_eq_some_iff] at hx
  obtain ⟨r, hr, rfl⟩ := hx
  exact ⟨r, hr, rfl⟩

/-- A cycle in which Execute does not stop keeps the invariant. -/
theorem State.Inv.afterCycle (h : s.Inv) (he : s.executes) : (s.afterCycle w).Inv := by
  obtain ⟨hwf, hbounded, hlog⟩ := h.memory_afterCycle w
  constructor
  case map_admissible => simpa using h.map_admissible
  case data_wf => exact hwf
  case data_bounded => simpa using hbounded
  case log_legal => simpa using hlog
  case address_legal =>
    intro x hx hio
    obtain ⟨r, hr, rfl⟩ := State.of_exMem_afterCycle w hx
    have ht : decodeType s.opcodes r.instr = .io := decodeType_of_isIo (by simpa using hio)
    have hl := IdEx.legal_of_stop_none (he r hr) ht
    rw [← IdEx.result_of_sum (.inr (.inr ht))] at hl
    simpa using hl
  case load_index_idEx =>
    intro x hx hload
    obtain ⟨r, -, rfl⟩ := State.of_idEx_afterCycle w hx
    exact IfId.ioOperand_decoded_of_load (by simpa using hload)
  case load_index_exMem =>
    intro x hx hload
    obtain ⟨r, hr, rfl⟩ := State.of_exMem_afterCycle w hx
    exact h.load_index_idEx r hr (by simpa using hload)
  case load_index_memWb =>
    intro x hx hload
    obtain ⟨r, hr, rfl⟩ := State.of_memWb_afterCycle w hx
    simpa using h.load_index_exMem r hr (by simpa using hload)
  case jump_taken =>
    intro x hx ht
    obtain ⟨r, -, rfl⟩ := State.of_exMem_afterCycle w hx
    exact IdEx.taken_iff.2 (.inl (by simpa using ht))
  case taken_transfer =>
    intro x hx ht
    obtain ⟨r, -, rfl⟩ := State.of_exMem_afterCycle w hx
    simpa using (IdEx.taken_iff.1 ht).imp_right And.left
  case fetched_next =>
    intro x hx
    rw [State.ifId_afterCycle_pc] at hx
    split at hx
    · cases hx
    · cases hx; rfl
  case no_halt =>
    intro v hv
    rw [State.opcodes_afterCycle]
    exact (s.inFlight_afterCycle w hv).elim (h.no_halt v) id
  case known_exMem =>
    intro x hx
    obtain ⟨r, hr, rfl⟩ := State.of_exMem_afterCycle w hx
    simpa using IdEx.known_of_stop_none (he r hr)
  case known_memWb =>
    intro x hx
    obtain ⟨r, hr, rfl⟩ := State.of_memWb_afterCycle w hx
    simpa using h.known_exMem r hr
  case done_drained => exact fun hd => (State.done_afterCycle s w).symm.trans hd
  case not_fatal => simpa using h.not_fatal
  case at_fetch => exact State.stage_afterCycle s w

end clauses

/-- Settles O39: a step is the final state staying, or a cycle in which Execute did not stop. -/
theorem everyStepKeepsInv : Obligations.EveryStepKeepsInv := by
  unfold Obligations.EveryStepKeepsInv
  intro s t hinv hstep
  obtain ⟨-, ⟨-, rfl⟩ | ⟨-, hcycle⟩⟩ := step_next hstep
  · exact hinv
  · obtain ⟨-, he, -, w, -, rfl⟩ := cycle_next hcycle
    exact hinv.afterCycle w he

end Sys2Proof.Machine
end

section
/-! PROOF of O28, O29, O31 and O32. What an instruction leaves unchanged (`Frame`): one frame lemma for
each shared operation of a stage, and for each family of meanings the five stages put together. -/

namespace Sys2Proof.Machine

/-! ## Frames -/

/-- Nothing but the output of the current stage is changed. -/
abbrev OutputOnly (s t : State) : Prop := Frame s t (fun _ => False) False (fun _ => False) False

/-- A frame that names more is a frame. -/
theorem Frame.mono {s t : State} {reg reg' : RegIndex → Prop} {flag flag' log log' : Prop}
    {stored stored' : Nat → Prop} (h : Frame s t reg flag stored log) (hreg : ∀ q, reg q → reg' q)
    (hflag : flag → flag') (hstored : ∀ a, stored a → stored' a) (hlog : log → log') :
    Frame s t reg' flag' stored' log' :=
  { h with
    reg := fun q hq => h.reg q (mt (hreg q) hq)
    flag := fun hf => h.flag (mt hflag hf)
    byte := fun a ha => h.byte a (mt (hstored a) ha)
    log := fun hl => h.log (mt hlog hl) }

theorem OutputOnly.mono {s t : State} (h : OutputOnly s t) {reg : RegIndex → Prop} {flag : Prop}
    {stored : Nat → Prop} {log : Prop} : Frame s t reg flag stored log :=
  Frame.mono h (fun _ => False.elim) False.elim (fun _ => False.elim) False.elim

/-- Only the registers that `reg` names, and the output of the current stage, are changed. -/
theorem Frame.of_registers {s t : State} {reg reg' : RegIndex → Prop}
    (h : Frame s t reg False (fun _ => False) False) (hreg : ∀ q, reg q → reg' q) :
    Frame s t reg' False (fun _ => False) False :=
  h.mono hreg id (fun _ => id) id

/-! ## The shared operations -/

section operations
variable {s t : State}

theorem outputOnly_ifId (hs : s.stage = .fetch) (x : Option IfId) :
    OutputOnly s { s with ifId := x } := by
  constructor <;> simp [hs]

theorem outputOnly_idEx (hs : s.stage = .decode) (x : Option IdEx) :
    OutputOnly s { s with idEx := x } := by
  constructor <;> simp [hs]

theorem outputOnly_exMem (hs : s.stage = .execute) (x : Option ExMem) :
    OutputOnly s { s with exMem := x } := by
  constructor <;> simp [hs]

theorem outputOnly_memWb (hs : s.stage = .memoryAccess) (x : Option MemWb) :
    OutputOnly s { s with memWb := x } := by
  constructor <;> simp [hs]

theorem outputOnly_refl (s : State) : OutputOnly s s := by
  constructor <;> simp

/-- A register write is framed by that register. -/
theorem setReg_frame (s : State) (r : RegIndex) (v : Word) :
    Frame s (s.setReg r v) (· = r) False (fun _ => False) False := by
  constructor <;> simp +contextual

theorem fetchAdvance_frame (hs : s.stage = .fetch) (h : fetchAdvance s = .next t) :
    Frame s t (· = 31) False (fun _ => False) False := by
  rcases s.codeRead_cases s.pc with ⟨w, hw, -⟩ | ⟨hout, -⟩
  · rw [fetchAdvance_eq hw] at h
    cases h
    constructor <;> simp [hs]
    exact fun q hq hpc => absurd hpc hq
  · rw [fetchAdvance_out hout] at h
    cases h

theorem fetchHold_frame (hs : s.stage = .fetch) (h : fetchHold s = .next t) : OutputOnly s t := by
  rcases s.codeRead_cases s.pc with ⟨w, hw, -⟩ | ⟨-, hout⟩
  · rw [fetchHold_eq hw] at h
    cases h
    exact outputOnly_ifId hs _
  · simp [fetchHold, hout] at h

theorem decodeTo_frame {f : IfId → Operands} (hs : s.stage = .decode) (h : decodeTo f s = .next t) :
    OutputOnly s t := by
  unfold decodeTo at h
  split at h <;> cases h <;> exact outputOnly_idEx hs _

theorem executeTo_frame {taken : Bool} {f : IdEx → Word} (hs : s.stage = .execute)
    (h : executeTo taken f s = .next t) : OutputOnly s t := by
  unfold executeTo at h
  split at h <;> cases h <;> exact outputOnly_exMem hs _

theorem executeFlag_frame {p : IdEx → Bool} (hs : s.stage = .execute)
    (h : executeFlag p s = .next t) : Frame s t (fun _ => False) True (fun _ => False) False := by
  unfold executeFlag at h
  split at h
  · cases h
    constructor <;> simp [hs]
  · cases h
    exact (outputOnly_exMem hs none).mono

theorem executeAddress_frame (hs : s.stage = .execute) (h : executeAddress s = .next t) :
    OutputOnly s t := by
  unfold executeAddress at h
  split at h
  · split at h
    · exact executeTo_frame hs h
    · cases h
  · cases h
    exact outputOnly_exMem hs _

theorem memoryPass_frame (hs : s.stage = .memoryAccess) (h : memoryPass s = .next t) :
    OutputOnly s t := by
  unfold memoryPass at h
  split at h <;> cases h <;> exact outputOnly_memWb hs _

theorem memoryLoad_frame (hs : s.stage = .memoryAccess) (h : memoryLoad s = .next t) :
    OutputOnly s t := by
  unfold memoryLoad at h
  split at h
  · split at h
    · cases h
      exact outputOnly_memWb hs _
    · cases h
  · cases h
    exact outputOnly_memWb hs _

theorem memoryStore_none (h : s.exMem = none) : memoryStore s = .next { s with memWb := none } := by
  simp [memoryStore, h]

/-- Memory-Access of STORE writes the four bytes from the carried address on, and logs it (R212). -/
theorem memoryStore_frame (hs : s.stage = .memoryAccess) (hwf : Memory.wf s.data = true)
    (h : memoryStore s = .next t) :
    Frame s t (fun _ => False) False
      (fun a => ∃ r, s.exMem = some r ∧ r.result.toNat ≤ a ∧ a < r.result.toNat + 4)
      (s.exMem ≠ none) := by
  rcases Option.eq_none_or_eq_some s.exMem with hr | ⟨r, hr⟩
  · rw [memoryStore_none hr] at h
    cases h
    exact (outputOnly_memWb hs none).mono
  · cases hl : legalAddress s.dataSize r.result with
    | true =>
      rw [memoryStore_some hr hl] at h
      cases h
      constructor <;> simp [hs, hr]
      case byte =>
        intro a ha
        rw [Memory.readByte_writeWord _ hwf, if_neg fun hin => absurd hin.2 (Nat.not_lt.2 (ha hin.1))]
    | false => simp [memoryStore, hr, State.memWrite, hl] at h

theorem writeBackNothing_frame (h : writeBackNothing s = .next t) : OutputOnly s t := by
  cases h
  exact outputOnly_refl s

theorem writeBackTo_frame {rd : RegIndex} (h : writeBackTo rd s = .next t) :
    Frame s t (· = rd) False (fun _ => False) False := by
  unfold writeBackTo at h
  split at h
  · cases h
    exact setReg_frame s rd _
  · cases h
    exact (outputOnly_refl s).mono

/-- Write-Back of LOAD writes the register whose index its record carries (R126). -/
theorem writeBackLoaded_frame {rd : RegIndex}
    (hrd : ∀ r, s.memWb = some r → r.ioOperand = rd.setWidth 32) (h : writeBackLoaded s = .next t) :
    Frame s t (· = rd) False (fun _ => False) False := by
  rcases Option.eq_none_or_eq_some s.memWb with hr | ⟨r, hr⟩
  · rw [writeBackLoaded, hr] at h
    cases h
    exact (outputOnly_refl s).mono
  · rw [writeBackLoaded_some hr, hrd r hr, ioRegister_setWidth] at h
    cases h
    exact setReg_frame s rd _

end operations

/-! ## The families of meanings -/

theorem exec_of_binary {i : Instr} (h : i.op.type = .binaryArithmetic) :
    ∃ f rd rs1 src, instrDestination i = some rd ∧ ∀ s, exec i s = binaryInstr f rd rs1 src s := by
  cases i
  case add | addi | sub | subi | and | andi | or | ori | shl | shli | shra | shrai | shrl | shrli =>
    exact ⟨_, _, _, _, rfl, fun _ => rfl⟩
  all_goals cases h

theorem exec_of_unary {i : Instr} (h : i.op.type = .unaryArithmetic) :
    ∃ f rd src, instrDestination i = some rd ∧ ∀ s, exec i s = unaryInstr f rd src s := by
  cases i
  case not | noti | mov | movi => exact ⟨_, _, _, rfl, fun _ => rfl⟩
  all_goals cases h

theorem exec_of_compare {i : Instr} (h : i.op.type = .compare) :
    ∃ p rs1 src, ∀ s, exec i s = compareInstr p rs1 src s := by
  cases i
  case ceq | ceqi | cltu | cltui | clts | cltsi | cgtu | cgtui | cgts | cgtsi =>
    exact ⟨_, _, _, fun _ => rfl⟩
  all_goals cases h

theorem eq_nop_or_halt_of_misc {i : Instr} (h : i.op.type = .misc) : i = .nop ∨ i = .halt := by
  cases i
  case nop => exact .inl rfl
  case halt => exact .inr rfl
  all_goals cases h

/-- The registers that the five stages of an instruction with destination `rd` write. -/
abbrev WrittenWith (s : State) (rd q : RegIndex) : Prop :=
  (s.stage = .fetch ∧ q = 31) ∨ (s.stage = .writeBack ∧ q = rd)

section families
variable {s t : State}

theorem binaryInstr_frame {f : Word → Word → Word} {rd rs1 : RegIndex} {src : Source}
    (h : binaryInstr f rd rs1 src s = .next t) :
    Frame s t (WrittenWith s rd) False (fun _ => False) False := by
  unfold binaryInstr at h
  split at h <;> rename_i hs
  · exact (fetchAdvance_frame hs h).of_registers fun _ hq => .inl ⟨hs, hq⟩
  · exact (decodeTo_frame hs h).mono
  · exact (executeTo_frame hs h).mono
  · exact (memoryPass_frame hs h).mono
  · exact (writeBackTo_frame h).of_registers fun _ hq => .inr ⟨hs, hq⟩

theorem unaryInstr_frame {f : Word → Word} {rd : RegIndex} {src : Source}
    (h : unaryInstr f rd src s = .next t) :
    Frame s t (WrittenWith s rd) False (fun _ => False) False := by
  unfold unaryInstr at h
  split at h <;> rename_i hs
  · exact (fetchAdvance_frame hs h).of_registers fun _ hq => .inl ⟨hs, hq⟩
  · exact (decodeTo_frame hs h).mono
  · exact (executeTo_frame hs h).mono
  · exact (memoryPass_frame hs h).mono
  · exact (writeBackTo_frame h).of_registers fun _ hq => .inr ⟨hs, hq⟩

theorem compareInstr_frame {p : Word → Word → Bool} {rs1 : RegIndex} {src : Source}
    (h : compareInstr p rs1 src s = .next t) :
    Frame s t (fun q => s.stage = .fetch ∧ q = 31) (s.stage = .execute) (fun _ => False) False := by
  unfold compareInstr at h
  split at h <;> rename_i hs
  · exact (fetchAdvance_frame hs h).mono (fun _ hq => ⟨hs, hq⟩) False.elim (fun _ => id) id
  · exact (decodeTo_frame hs h).mono
  · exact (executeFlag_frame hs h).mono (fun _ => False.elim) (fun _ => hs) (fun _ => id) id
  · exact (memoryPass_frame hs h).mono
  · exact (writeBackNothing_frame h).mono

theorem execNop_frame (h : execNop s = .next t) :
    Frame s t (fun q => s.stage = .fetch ∧ q = 31) False (fun _ => False) False := by
  unfold execNop at h
  split at h <;> rename_i hs
  · exact (fetchAdvance_frame hs h).of_registers fun _ hq => ⟨hs, hq⟩
  · exact (decodeTo_frame hs h).mono
  · exact (executeTo_frame hs h).mono
  · exact (memoryPass_frame hs h).mono
  · exact (writeBackNothing_frame h).mono

/-- HALT holds the program counter in Fetch (R15, R121). -/
theorem execHalt_frame (h : execHalt s = .next t) : OutputOnly s t := by
  unfold execHalt at h
  split at h <;> rename_i hs
  · exact fetchHold_frame hs h
  · exact decodeTo_frame hs h
  · exact executeTo_frame hs h
  · exact memoryPass_frame hs h
  · exact writeBackNothing_frame h

theorem execLoad_frame {rd rb : RegIndex} {off : Int}
    (hrd : s.stage = .writeBack → ∀ r, s.memWb = some r → r.ioOperand = rd.setWidth 32)
    (h : execLoad rd rb off s = .next t) :
    Frame s t (WrittenWith s rd) False (fun _ => False) False := by
  unfold execLoad at h
  split at h <;> rename_i hs
  · exact (fetchAdvance_frame hs h).of_registers fun _ hq => .inl ⟨hs, hq⟩
  · exact (decodeTo_frame hs h).mono
  · exact (executeAddress_frame hs h).mono
  · exact (memoryLoad_frame hs h).mono
  · exact (writeBackLoaded_frame (hrd hs) h).of_registers fun _ hq => .inr ⟨hs, hq⟩

theorem execStore_frame {rv rb : RegIndex} {off : Int} (hwf : Memory.wf s.data = true)
    (h : execStore rv rb off s = .next t) :
    Frame s t (fun q => s.stage = .fetch ∧ q = 31) False
      (fun a => s.stage = .memoryAccess ∧
        ∃ r, s.exMem = some r ∧ r.result.toNat ≤ a ∧ a < r.result.toNat + 4)
      (s.stage = .memoryAccess ∧ s.exMem ≠ none) := by
  unfold execStore at h
  split at h <;> rename_i hs
  · exact (fetchAdvance_frame hs h).mono (fun _ hq => ⟨hs, hq⟩) id (fun _ => False.elim) False.elim
  · exact (decodeTo_frame hs h).mono
  · exact (executeAddress_frame hs h).mono
  · exact (memoryStore_frame hs hwf h).mono (fun _ => False.elim) id (fun _ ha => ⟨hs, ha⟩)
      (fun hl => ⟨hs, hl⟩)
  · exact (writeBackNothing_frame h).mono

end families

/-- Settles O28: both families of meanings write the destination in Write-Back. -/
theorem arithmeticFrame : Obligations.ArithmeticFrame := by
  unfold Obligations.ArithmeticFrame
  rintro i (hi | hi) s t h
  · obtain ⟨f, rd, rs1, src, hrd, he⟩ := exec_of_binary hi
    rw [he] at h
    exact (binaryInstr_frame h).of_registers fun _ hq =>
      hq.imp_right fun ⟨hs, hq⟩ => ⟨hs, hq ▸ hrd⟩
  · obtain ⟨f, rd, src, hrd, he⟩ := exec_of_unary hi
    rw [he] at h
    exact (unaryInstr_frame h).of_registers fun _ hq =>
      hq.imp_right fun ⟨hs, hq⟩ => ⟨hs, hq ▸ hrd⟩

/-- Settles O29: a compare writes the flag in Execute, and HALT is held in Fetch. -/
theorem compareMiscFrame : Obligations.CompareMiscFrame := by
  unfold Obligations.CompareMiscFrame
  rintro i (hi | hi) s t h
  · obtain ⟨p, rs1, src, he⟩ := exec_of_compare hi
    rw [he] at h
    have hne : i ≠ .halt := by rintro rfl; cases hi
    exact (compareInstr_frame h).mono (fun _ hq => ⟨hq.1, hq.2, hne⟩) (fun hs => ⟨hs, hi⟩)
      (fun _ => id) id
  · obtain rfl | rfl := eq_nop_or_halt_of_misc hi
    · exact (execNop_frame h).mono (fun _ hq => ⟨hq.1, hq.2, nofun⟩) False.elim (fun _ => id) id
    · exact OutputOnly.mono (execHalt_frame h)

/-- Settles O31: Write-Back finds the destination's index in the record it consumes. -/
theorem loadFrame : Obligations.LoadFrame := by
  unfold Obligations.LoadFrame
  exact fun rd rb off s t hrd h => execLoad_frame hrd h

/-! ## The passage of a STORE -/

section store
variable (rv rb : RegIndex) (off : Int) {s : State}

theorem exec_store_fetch {w : Word} (hw : s.code[(s.reg 31).toNat]? = some w) :
    exec (.store rv rb off) (s.atStage .fetch) =
      .next ({ s.advanced with ifId := some ⟨s.reg 31 + 1, w⟩ }.atStage .fetch) :=
  fetchAdvance_eq (s := s.atStage .fetch) hw

theorem exec_store_fetch_out (hout : s.code.length ≤ (s.reg 31).toNat) :
    exec (.store rv rb off) (s.atStage .fetch) = .fault .fetchOutOfRange :=
  fetchAdvance_out (s := s.atStage .fetch) hout

theorem exec_store_decode {r : IfId} (hr : s.ifId = some r) :
    exec (.store rv rb off) (s.atStage .decode) = .next ({ s with
      idEx := some ⟨r.nextPc, r.instr, s.reg rb, BitVec.ofInt 32 off, s.reg rv⟩ }.atStage .decode) :=
  decodeTo_some (s := s.atStage .decode) (storeOperands rv rb off (s.atStage .decode)) hr

theorem exec_store_execute {r : IdEx} (hr : s.idEx = some r)
    (hl : legalAddress s.dataSize (r.operand1 + r.operand2) = true) :
    exec (.store rv rb off) (s.atStage .execute) = .next ({ s with
      exMem := some ⟨r.nextPc, r.instr, false, r.operand1 + r.operand2, r.ioOperand⟩
      }.atStage .execute) :=
  executeAddress_legal (s := s.atStage .execute) hr hl

theorem exec_store_execute_illegal {r : IdEx} (hr : s.idEx = some r)
    (hl : legalAddress s.dataSize (r.operand1 + r.operand2) = false) :
    exec (.store rv rb off) (s.atStage .execute) = .fault .dataAddressOutOfRange :=
  executeAddress_illegal (s := s.atStage .execute) hr hl

theorem exec_store_memoryAccess {r : ExMem} (hr : s.exMem = some r)
    (hl : legalAddress s.dataSize r.result = true) :
    exec (.store rv rb off) (s.atStage .memoryAccess) = .next ({ s with
      data := s.data.writeWord r.result.toNat r.ioOperand
      log := s.log ++ [r.result]
      memWb := some r.passed }.atStage .memoryAccess) :=
  memoryStore_some (s := s.atStage .memoryAccess) hr hl

theorem exec_store_writeBack :
    exec (.store rv rb off) (s.atStage .writeBack) = .next (s.atStage .writeBack) := rfl

/-- Alone in the pipeline a STORE to a legal address writes the word and logs the address (R212). -/
theorem passage_store_legal {w : Word} (hw : s.code[(s.reg 31).toNat]? = some w)
    (hl : legalAddress s.dataSize (s.advanced.reg rb + BitVec.ofInt 32 off) = true) :
    passage (.store rv rb off) s = .next { s.advanced with
      data := s.data.writeWord (s.advanced.reg rb + BitVec.ofInt 32 off).toNat (s.advanced.reg rv)
      log := s.log ++ [s.advanced.reg rb + BitVec.ofInt 32 off] }.settled := by
  rw [passage, exec_store_fetch rv rb off hw, andThen_next, exec_store_decode rv rb off rfl,
    andThen_next, exec_store_execute rv rb off rfl (by exact hl), andThen_next,
    exec_store_memoryAccess rv rb off rfl (by exact hl), andThen_next, exec_store_writeBack,
    andThen_next]
  rfl

/-- With an illegal address it stops in Execute (R235). -/
theorem passage_store_illegal {w : Word} (hw : s.code[(s.reg 31).toNat]? = some w)
    (hl : legalAddress s.dataSize (s.advanced.reg rb + BitVec.ofInt 32 off) = false) :
    passage (.store rv rb off) s = .fault .dataAddressOutOfRange := by
  rw [passage, exec_store_fetch rv rb off hw, andThen_next, exec_store_decode rv rb off rfl,
    andThen_next, exec_store_execute_illegal rv rb off rfl (by exact hl), andThen_fault]

/-- The memory that a passage which goes on leaves. -/
theorem data_of_passage_store {t : State} (h : passage (.store rv rb off) s = .next t) :
    t.data =
      s.data.writeWord (s.advanced.reg rb + BitVec.ofInt 32 off).toNat (s.advanced.reg rv) := by
  rcases s.codeRead_cases (s.reg 31) with ⟨w, hw, -⟩ | ⟨hout, -⟩
  · cases hl : legalAddress s.dataSize (s.advanced.reg rb + BitVec.ofInt 32 off) with
    | true =>
      rw [passage_store_legal rv rb off hw hl] at h
      cases h
      rfl
    | false => rw [passage_store_illegal rv rb off hw hl] at h; cases h
  · rw [passage, exec_store_fetch_out rv rb off hout] at h
    cases h

end store

/-- Settles O32: stage by stage by the frame of STORE, and as a whole by the memory its passage
leaves. -/
theorem storeFrame : Obligations.StoreFrame := by
  unfold Obligations.StoreFrame
  refine fun rv rb off s t hwf => ⟨fun h => execStore_frame hwf h, fun h a ha => ?_⟩
  rw [data_of_passage_store rv rb off h, Memory.readByte_writeWord _ hwf, if_neg ha]

end Sys2Proof.Machine
end

section
/-! PROOF of O43, O44, O45 and O55. What a cycle that goes on does to the records and the registers, and
what Decode and Fetch find in the program counter (spec/42_pipeline.md R122, R128). -/

namespace Sys2Proof.Machine

/-! ## Registers -/

section registers
variable {s : State}

/-- Write-Back writes the result to the register that is the target (R126). -/
theorem State.reg_wroteBack_of_target {m : MemWb} {q : RegIndex} (hm : s.memWb = some m)
    (ht : m.target s.opcodes = some q) : s.wroteBack.reg q = m.result := by
  simp [State.reg_wroteBack, hm, ht]

/-- Write-Back leaves a register alone that is not the target (R126). -/
theorem State.reg_wroteBack_of_ne {q : RegIndex}
    (h : ∀ m, s.memWb = some m → m.target s.opcodes ≠ some q) : s.wroteBack.reg q = s.reg q := by
  rw [State.reg_wroteBack]
  split
  case h_1 m hm => exact if_neg (h m hm)
  case h_2 => rfl

/-- A transfer in Memory-Access decides the program counter (R125, R128). -/
theorem State.redirectedPc_of_redirect {a : Word}
    (h : s.exMem.bind (ExMem.redirect · s.opcodes) = some a) : s.redirectedPc = a := by
  simp [State.redirectedPc, h]

/-- With no transfer, Write-Back leaves the program counter to Decode and Fetch (R128). -/
theorem State.redirectedPc_of_no_redirect
    (h : s.exMem.bind (ExMem.redirect · s.opcodes) = none) : s.redirectedPc = s.wroteBack.reg 31 := by
  simp [State.redirectedPc, h, State.pc, Config.pcIndex]

/-- The program counter that Decode reads and Fetch uses: a transfer's target, else what Write-Back
writes to register 31, else what it was (R16, R128). -/
theorem State.redirectedPc_rule (s : State) :
    (∀ e, s.exMem.bind (ExMem.redirect · s.opcodes) = some e → s.redirectedPc = e) ∧
    (s.exMem.bind (ExMem.redirect · s.opcodes) = none →
      (∀ m, s.memWb = some m → m.target s.opcodes = some 31 → s.redirectedPc = m.result) ∧
      ((∀ m, s.memWb = some m → m.target s.opcodes ≠ some 31) → s.redirectedPc = s.reg 31)) :=
  ⟨fun _ => State.redirectedPc_of_redirect, fun h =>
    ⟨fun _ hm ht => (State.redirectedPc_of_no_redirect h).trans (State.reg_wroteBack_of_target hm ht),
      fun hne => (State.redirectedPc_of_no_redirect h).trans (State.reg_wroteBack_of_ne hne)⟩⟩

end registers

/-- Settles O43: the records after a cycle are `afterCycle`'s, and Decode reads registers only. -/
theorem pipelineAdvances : Obligations.PipelineAdvances := by
  unfold Obligations.PipelineAdvances
  intro s t hrun hstep
  obtain ⟨-, -, -, w, -, rfl⟩ := step_next_running hrun hstep
  refine ⟨s.memWb_instr_afterCycle w, s.exMem_instr_afterCycle w, s.idEx_instr_afterCycle w,
    s.memWb_afterCycle w, s.exMem_afterCycle w, fun u hreg hop => ?_⟩
  have hregs : s.wroteBack.accessed.regs = u.regs :=
    State.regs_ext fun q => (s.reg_decode q).trans (hreg q).symm
  rw [s.idEx_afterCycle w, funext (IfId.decoded_of_regs hregs (by simp [hop]))]

/-- Settles O44: the index fetched is the redirected program counter. -/
theorem fetchRule : Obligations.FetchRule := by
  unfold Obligations.FetchRule
  intro s t hrun hstep
  obtain ⟨-, -, -, w, hw, rfl⟩ := step_next_running hrun hstep
  obtain ⟨hredirect, hno⟩ := s.redirectedPc_rule
  have hpc : (s.afterCycle w).reg 31 = _ := s.pc_afterCycle w
  refine ⟨s.redirectedPc, w, hredirect, hno, hw, fun hh => ?_, fun hh => ?_⟩
  · rw [s.ifId_afterCycle w, hpc, hh]; exact ⟨rfl, rfl⟩
  · rw [s.ifId_afterCycle w, hpc, hh]; exact ⟨rfl, rfl⟩

/-- Settles O45: only Write-Back writes a register other than the program counter. -/
theorem registerRule : Obligations.RegisterRule := by
  unfold Obligations.RegisterRule
  intro s t hrun hstep q hq
  obtain ⟨-, -, -, w, -, rfl⟩ := step_next_running hrun hstep
  rw [s.reg_afterCycle w q hq]
  exact ⟨fun _ => State.reg_wroteBack_of_target, State.reg_wroteBack_of_ne⟩

/-! ## Operands read from a register -/

section operands
variable {i : Instr} {r : IfId} {s : State} {q : RegIndex}

theorem operand1_of_register (h : operand1Register i = some q) :
    (operandsOf i r s).operand1 = s.reg q := by
  cases i <;> cases h <;> rfl

theorem operand2_of_register (h : operand2Register i = some q) :
    (operandsOf i r s).operand2 = s.reg q := by
  cases i <;> cases h <;> rfl

theorem ioOperand_of_storedRegister (h : storedRegister i = some q) :
    (operandsOf i r s).ioOperand = s.reg q := by
  cases i
  case store => cases h; rfl
  all_goals cases h

/-- A record of a word that decodes is decoded to that instruction's operands (R93, R123). -/
theorem IfId.operands_of_decode (h : decodeWith s.opcodes r.instr = .ok i) :
    r.operands s = operandsOf i r s := by
  obtain ⟨ho, hi⟩ := op_of_decode h
  rw [IfId.operands_of_op ho, ← hi]

end operands

/-- Settles O55: register 31 holds the redirected program counter when Decode reads it, and the record
carries the old one. -/
theorem readingTheProgramCounter : Obligations.ReadingTheProgramCounter := by
  unfold Obligations.ReadingTheProgramCounter
  intro s t r i hinv hrun hstep hr hi
  obtain ⟨-, -, -, w, -, rfl⟩ := step_next_running hrun hstep
  obtain ⟨hredirect, hno⟩ := s.redirectedPc_rule
  have hpc : s.wroteBack.accessed.reg 31 = s.redirectedPc := s.pc_decode
  have hops := IfId.operands_of_decode (s := s.wroteBack.accessed) (r := r) (i := i) (by simpa using hi)
  refine ⟨r.decoded s.wroteBack.accessed, s.redirectedPc, by simp [s.idEx_afterCycle w, hr], rfl,
    hredirect, fun hn => ⟨(hno hn).1, fun hne => ?_⟩, fun h => ?_, fun h => ?_, fun h => ?_⟩
  · exact ((hno hn).2 hne).trans (hinv.fetched_next r hr).symm
  · exact (congrArg Operands.operand1 hops).trans ((operand1_of_register h).trans hpc)
  · exact (congrArg Operands.operand2 hops).trans ((operand2_of_register h).trans hpc)
  · exact (congrArg Operands.ioOperand hops).trans ((ioOperand_of_storedRegister h).trans hpc)

end Sys2Proof.Machine
end

section
/-! PROOF of O46, O47, O48 and O52. The flag, memory and the log, and the mark `done` over a cycle
(spec/10_state.md R17, R22, R23). -/

namespace Sys2Proof.Machine

/-! ## The flag (R17) -/

/-- Execute of a word that is no COMPARE leaves the flag alone. -/
theorem IdEx.flagAfter_of_type {r : IdEx} {m : OpcodeMap} (b : Bool)
    (h : decodeType m r.instr ≠ .compare) : r.flagAfter m b = b := by
  rw [IdEx.flagAfter, bind_none_of_type (fun _ => comparePredicate_none) h]

theorem IdEx.flagAfter_of_predicate {r : IdEx} {m : OpcodeMap} {p : Word → Word → Bool} (b : Bool)
    (h : (opOfWord m r.instr).bind comparePredicate = some p) :
    r.flagAfter m b = p r.operand1 r.operand2 := by
  rw [IdEx.flagAfter, h]

/-- Every compare operation has a predicate (R112 to R116). -/
theorem comparePredicate_of_type {op : Op} (h : op.type = .compare) :
    ∃ p, comparePredicate op = some p := by
  cases op
  case ceq | ceqi | cltu | cltui | clts | cltsi | cgtu | cgtui | cgts | cgtsi => exact ⟨_, rfl⟩
  all_goals cases h

/-- A word of type COMPARE has a predicate. -/
theorem bind_comparePredicate_of_type {m : OpcodeMap} {w : Word} (h : decodeType m w = .compare) :
    ∃ p, (opOfWord m w).bind comparePredicate = some p := by
  rcases word_cases m w with hu | hb | ⟨op, ho⟩
  · rw [hu] at h; cases h
  · rw [decodeType_of_badIo hb] at h; cases h
  · rw [ho]
    exact comparePredicate_of_type (decodeType_of_op ho ▸ h)

/-- Execute of a BRANCH takes the flag and sums the operands (R198). -/
theorem IdEx.executed_of_branch {r : IdEx} {m : OpcodeMap} (b : Bool)
    (h : decodeType m r.instr = .branch) :
    (r.executed m b).branchTaken = b ∧ (r.executed m b).result = r.operand1 + r.operand2 := by
  refine ⟨?_, IdEx.result_of_sum (.inr (.inl h))⟩
  simp [IdEx.executed, IdEx.taken, h]

section flag
variable (s : State) (w : Word)

theorem State.flag_afterCycle_some {r : IdEx} (hr : s.idEx = some r) :
    (s.afterCycle w).flag = r.flagAfter s.opcodes s.flag := by
  simp [State.flag_afterCycle, hr]

/-- The flag is unchanged where no COMPARE executes. -/
theorem State.flag_afterCycle_of_type
    (h : ∀ r, s.idEx = some r → decodeType s.opcodes r.instr ≠ .compare) :
    (s.afterCycle w).flag = s.flag := by
  rcases Option.eq_none_or_eq_some s.idEx with hr | ⟨r, hr⟩
  · simp [State.flag_afterCycle, hr]
  · rw [State.flag_afterCycle_some s w hr, IdEx.flagAfter_of_type _ (h r hr)]

theorem State.exMem_afterCycle_some {r : IdEx} (hr : s.idEx = some r) :
    (s.afterCycle w).exMem = some (r.executed s.opcodes s.flag) := by
  simp [State.exMem_afterCycle, hr]

/-- After a cycle that decoded a record the machine still runs. -/
theorem State.running_afterCycle {r : IfId} (hrun : s.running) (hr : s.ifId = some r) :
    (s.afterCycle w).running := by
  refine ⟨?_, by simpa using hrun.2⟩
  rw [State.done_afterCycle]
  simp [State.drained, State.idEx_afterCycle, hr]

end flag

/-- Settles O46: the flag after a cycle is Execute's, and a second cycle takes it to a BRANCH. -/
theorem flagRule : Obligations.FlagRule := by
  unfold Obligations.FlagRule
  refine ⟨fun s t hrun hstep => ?_, fun s t u hrun hstep hstep' c b p hc hp hb ht => ?_⟩
  · obtain ⟨-, -, -, w, -, rfl⟩ := step_next_running hrun hstep
    refine ⟨fun r p hr hp => ?_, s.flag_afterCycle_of_type w, fun r hr ht => ?_⟩
    · rw [s.flag_afterCycle_some w hr, IdEx.flagAfter_of_predicate _ hp]
    · obtain ⟨htaken, hresult⟩ := IdEx.executed_of_branch s.flag ht
      exact ⟨_, s.exMem_afterCycle_some w hr, rfl, htaken, hresult⟩
  · obtain ⟨-, -, -, w, -, rfl⟩ := step_next_running hrun hstep
    obtain ⟨-, -, -, w', -, rfl⟩ := step_next_running (s.running_afterCycle w hrun hb) hstep'
    have hx : (s.afterCycle w).idEx = some (b.decoded s.wroteBack.accessed) := by
      simp [s.idEx_afterCycle w, hb]
    refine ⟨_, (s.afterCycle w).exMem_afterCycle_some w' hx, rfl, ?_⟩
    rw [(IdEx.executed_of_branch _ (by simpa using ht)).1, s.flag_afterCycle_some w hc,
      IdEx.flagAfter_of_predicate _ hp]

/-! ## The same state with another flag -/

/-- The state with the flag replaced. -/
def State.withFlag (s : State) (b : Bool) : State := { s with flag := b }

section withFlag
variable (s : State) (b : Bool)

@[simp] theorem State.data_withFlag : (s.withFlag b).data = s.data := rfl
@[simp] theorem State.exMem_withFlag : (s.withFlag b).exMem = s.exMem := rfl
@[simp] theorem State.memWb_withFlag : (s.withFlag b).memWb = s.memWb := rfl
@[simp] theorem State.opcodes_withFlag : (s.withFlag b).opcodes = s.opcodes := rfl
@[simp] theorem State.pc_withFlag : (s.withFlag b).pc = s.pc := rfl

theorem State.wroteBack_withFlag : (s.withFlag b).wroteBack = s.wroteBack.withFlag b := by
  simp only [State.wroteBack, State.memWb_withFlag, State.opcodes_withFlag]
  split
  · split <;> rfl
  · rfl

theorem State.accessed_withFlag : (s.withFlag b).accessed = s.accessed.withFlag b := by
  simp only [State.accessed, State.exMem_withFlag, State.opcodes_withFlag, State.data_withFlag]
  rcases s.exMem with _ | r
  · rfl
  · cases hs : isStore s.opcodes r.instr with
    | true => simp only [hs, if_true]; rfl
    | false => cases hd : r.redirect s.opcodes <;> simp only [hs, hd] <;> rfl

theorem State.fetched_withFlag (w : Word) :
    (s.withFlag b).fetched w = (s.fetched w).withFlag b := by
  by_cases h : isHalt s.opcodes w = true <;>
    simp only [State.fetched, State.opcodes_withFlag, h] <;> rfl

theorem State.decoded_withFlag : (s.withFlag b).decoded = s.decoded.withFlag b := rfl

/-- The record Execute makes of a word that is no BRANCH does not depend on the flag. -/
theorem IdEx.executed_of_type {r : IdEx} {m : OpcodeMap} (b c : Bool)
    (h : decodeType m r.instr ≠ .branch) : r.executed m b = r.executed m c := by
  have htaken : r.taken m b = r.taken m c :=
    Bool.eq_iff_iff.2 (by simp only [IdEx.taken_iff, h, false_and])
  rw [IdEx.executed, htaken]
  rfl

/-- Execute reads the flag for a BRANCH only; else it carries it on. -/
theorem State.executed_withFlag
    (h : ∀ r, s.idEx = some r → decodeType s.opcodes r.instr ≠ .branch) :
    (s.withFlag b).executed =
      s.executed.withFlag ((s.idEx.map (IdEx.flagAfter · s.opcodes b)).getD b) := by
  rcases Option.eq_none_or_eq_some s.idEx with hr | ⟨r, hr⟩
  · simp [State.executed, State.withFlag, hr]
  · simp [State.executed, State.withFlag, hr, IdEx.executed_of_type b s.flag (h r hr)]

/-- A cycle with no BRANCH in Execute carries another flag through, unless it writes the flag. -/
theorem State.afterCycle_withFlag (w : Word)
    (h : ∀ r, s.idEx = some r → decodeType s.opcodes r.instr ≠ .branch) :
    (s.withFlag b).afterCycle w =
      (s.afterCycle w).withFlag ((s.idEx.map (IdEx.flagAfter · s.opcodes b)).getD b) := by
  have hx := s.wroteBack.accessed.executed_withFlag b (by simpa using h)
  simp only [State.idEx_accessed, State.idEx_wroteBack, State.opcodes_accessed,
    State.opcodes_wroteBack] at hx
  rw [State.afterCycle, State.wroteBack_withFlag, State.accessed_withFlag, hx,
    State.decoded_withFlag, State.fetched_withFlag]
  rfl

/-- Nor does the flag decide where a cycle fetches, or whether it goes on. -/
theorem State.redirectedPc_withFlag : (s.withFlag b).redirectedPc = s.redirectedPc := by
  simp only [State.redirectedPc, State.exMem_withFlag, State.opcodes_withFlag,
    State.wroteBack_withFlag, State.pc_withFlag]

end withFlag

/-- Settles O47: the cycle carries the other flag through every stage, and a COMPARE overwrites it. -/
theorem onlyBranchReadsTheFlag : Obligations.OnlyBranchReadsTheFlag := by
  unfold Obligations.OnlyBranchReadsTheFlag
  intro s t b hrun hstep hno
  obtain ⟨hl, he, hd, w, hw, rfl⟩ := step_next_running hrun hstep
  refine ⟨(s.idEx.map (IdEx.flagAfter · s.opcodes b)).getD b, ?_, ?_, fun hne => ?_⟩
  · have hgo : cycle (s.withFlag b) = .next ((s.withFlag b).afterCycle w) :=
      cycle_of hl he hd (by rw [State.redirectedPc_withFlag]; exact hw)
    rw [s.afterCycle_withFlag b w hno] at hgo
    exact (step_of_running (s := s.withFlag b) hrun.2 hrun.1).trans hgo
  · rintro ⟨r, hr, ht⟩
    obtain ⟨p, hp⟩ := bind_comparePredicate_of_type ht
    rw [s.flag_afterCycle_some w hr, IdEx.flagAfter_of_predicate _ hp, hr]
    exact IdEx.flagAfter_of_predicate b hp
  · rcases Option.eq_none_or_eq_some s.idEx with hr | ⟨r, hr⟩
    · rw [hr]; rfl
    · rw [hr]; exact IdEx.flagAfter_of_type b (hne r hr)

/-! ## Memory and the log (R22, R34) -/

/-- Settles O48: a cycle stores a word, or leaves memory and the log alone. -/
theorem memoryAndLogRule : Obligations.MemoryAndLogRule := by
  unfold Obligations.MemoryAndLogRule
  intro s t hrun hwf hstep
  obtain ⟨-, -, -, w, -, rfl⟩ := step_next_running hrun hstep
  refine ⟨s.code_afterCycle w, s.dataSize_afterCycle w, s.opcodes_afterCycle w, ?_⟩
  rcases s.store_afterCycle_cases w with ⟨r, hr, hs, hdata, hlog⟩ | ⟨hno, hdata, hlog⟩
  · refine ⟨fun r' hr' _ => ?_, fun hno => absurd hs (by simp [hno r hr])⟩
    obtain rfl : r = r' := Option.some.inj (hr.symm.trans hr')
    exact ⟨hlog, fun a => hdata ▸ Memory.readByte_writeWord _ hwf _ a _⟩
  · exact ⟨fun r hr hs => absurd hs (by simp [hno r hr]), fun _ => ⟨hlog, hdata⟩⟩

/-! ## The end of the run (R23, R129) -/

theorem State.drained_iff {s : State} :
    s.drained = true ↔ s.ifId = none ∧ s.idEx = none ∧ s.exMem = none ∧ s.memWb = none := by
  simp [State.drained, and_assoc]

/-- Settles O52: `done` is the test of the four records, and both marks end the run. -/
theorem doneRule : Obligations.DoneRule := by
  unfold Obligations.DoneRule
  refine ⟨fun s t hrun hstep => ?_, fun s hd hf => ?_, fun s c hf => ?_⟩
  · obtain ⟨-, -, -, w, -, rfl⟩ := step_next_running hrun hstep
    rw [State.done_afterCycle, State.drained_iff]
  · simp [step, advance, hd, hf]
  · simp [step, advance, hf]

end Sys2Proof.Machine
end

section
/-! PROOF of O33, O35 and O36. The register file, the state after reset, and the invariant of a state
with an empty pipeline (spec/10_state.md R10 to R14, R26). -/

namespace Sys2Proof.Machine

/-- Settles O33: by the register file's read after write. -/
theorem registerFileHoldsWrites : Obligations.RegisterFileHoldsWrites := by
  unfold Obligations.RegisterFileHoldsWrites
  exact ⟨fun s r q v => s.reg_setReg r q v, fun _ _ => ⟨rfl, rfl⟩, fun _ _ => State.regs_ext⟩

/-- Settles O35: field by field. -/
theorem resetState : Obligations.ResetState := by
  unfold Obligations.ResetState
  exact ⟨State.reg_reset, rfl, fun _ => rfl, rfl, rfl, rfl, rfl, rfl, rfl, rfl, rfl, rfl⟩

/-- With an empty pipeline the invariant is about the map, memory, the log, the stop and the cursor. -/
theorem State.inv_of_drained {s : State} (hd : s.drained = true)
    (map_admissible : s.opcodes.admissible = true) (data_wf : Memory.wf s.data = true)
    (data_bounded : ∀ c ∈ s.data, c.1 < s.dataSize)
    (log_legal : ∀ a ∈ s.log, legalAddress s.dataSize a = true)
    (not_fatal : s.fatal = none) (at_fetch : s.stage = .fetch) : s.Inv := by
  obtain ⟨hifId, hidEx, hexMem, hmemWb⟩ := State.drained_iff.1 hd
  constructor
  case map_admissible => exact map_admissible
  case data_wf => exact data_wf
  case data_bounded => exact data_bounded
  case log_legal => exact log_legal
  case done_drained => exact fun _ => hd
  case not_fatal => exact not_fatal
  case at_fetch => exact at_fetch
  all_goals simp [hifId, hidEx, hexMem, hmemWb, State.inFlight]

theorem State.boot_inv {m : OpcodeMap} (code : List Word) (n : Nat) (hm : m.admissible = true) :
    (State.boot m code n).Inv :=
  State.inv_of_drained rfl hm Memory.nil_wf nofun nofun rfl rfl

/-- Settles O36: reset is a boot with the reference map, and a boot's pipeline is empty. -/
theorem resetHasInv : Obligations.ResetHasInv := by
  unfold Obligations.ResetHasInv
  have hreset : State.reset = State.boot referenceMap [] Config.defaultDataSize := rfl
  exact ⟨hreset ▸ State.boot_inv [] _ (by decide), fun m code n hm => State.boot_inv code n hm⟩

end Sys2Proof.Machine
end

section
/-! PROOF of O37. A step is the five stages in reverse order, each running the instruction its input
decodes to (spec/42_pipeline.md R93, R120, R127). -/

namespace Sys2Proof.Machine

theorem andThen_assoc (o : Result) (f g : State → Result) :
    andThen (andThen o f) g = andThen o fun s => andThen (f s) g := by
  cases o <;> rfl

/-- A running state's step, stage by stage (R127). -/
theorem step_eq_stages {s : State} (hrun : s.running) :
    step s =
      andThen (runStage .writeBack s) fun s =>
      andThen (runStage .memoryAccess s) fun s =>
      andThen (runStage .execute s) fun s =>
      andThen (runStage .decode s) fun s =>
      andThen (runStage .fetch s) fun s => .next s.markDone := by
  rw [step_of_running hrun.2 hrun.1]
  simp only [cycle, cycleOrder, olderStages, List.cons_append, List.nil_append, runStages,
    andThen_assoc, andThen_next]

/-- With every record absent the older stages change nothing (R21, R120). -/
theorem State.olderStages_of_drained {s : State} (hd : s.drained = true) :
    s.wroteBack.accessed.executed.decoded = s := by
  obtain ⟨hifId, hidEx, hexMem, hmemWb⟩ := State.drained_iff.1 hd
  cases s
  cases hifId
  cases hidEx
  cases hexMem
  cases hmemWb
  rfl

/-- The older stages of an empty pipeline do nothing but move the cursor. -/
theorem runStages_olderStages_drained {s : State} (hd : s.drained = true) :
    runStages olderStages s = .next (s.atStage .decode) := by
  obtain ⟨hifId, hidEx, hexMem, -⟩ := State.drained_iff.1 hd
  rw [runStages_olderStages (by simp [State.addressLegal, hexMem]) (by simp [State.executes, hidEx])
    (by simp [State.decodes, hifId]), State.olderStages_of_drained hd]

/-- With an empty pipeline a step is Fetch. -/
theorem step_of_drained {s : State} (hrun : s.running) (hd : s.drained = true) :
    step s = andThen (runStage .fetch (s.atStage .decode)) fun t => .next t.markDone := by
  have hsplit : step s = andThen (runStages olderStages s) fun t =>
      andThen (runStage .fetch t) fun t => .next t.markDone := by
    rw [step_eq_stages hrun]
    simp only [olderStages, runStages, andThen_assoc, andThen_next]
  rw [hsplit, runStages_olderStages_drained hd, andThen_next]

theorem State.stageInput_fetch {s : State} {w : Word} (hw : s.code[s.pc.toNat]? = some w) :
    s.stageInput .fetch = .ok (some w) := by
  simp [State.stageInput, State.codeRead_ok hw]

/-- Settles O37: the five clauses are the stage that runs its word, the inputs, the order, and the step
of an empty pipeline. -/
theorem stepRunsDecodedInstruction : Obligations.StepRunsDecodedInstruction := by
  unfold Obligations.StepRunsDecodedInstruction
  refine ⟨fun s st w i hin hi => runStage_decoded hin hi,
    fun s st w c hin => ⟨fun hc => ?_, fun hc => ?_⟩,
    fun s => ⟨fun r hr => ?_, fun r hr => ?_, fun r hr => ?_, fun r hr => ?_,
      fun w hw => State.stageInput_fetch hw⟩,
    fun s hrun => step_eq_stages hrun, fun s w i hrun hd hw hi => ?_⟩
  · simp [runStage_some hin, runWord, hc, State.atStage]
  · simp [runStage_some hin, runWord, hc, State.atStage]
  · simp [State.stageInput, hr]
  · simp [State.stageInput, hr]
  · simp [State.stageInput, hr]
  · simp [State.stageInput, hr]
  · rw [step_of_drained hrun hd,
      runStage_decoded (s := s.atStage .decode) (State.stageInput_fetch hw) hi]
    rfl

end Sys2Proof.Machine
end

section
/-! PROOF of O40. The word placed for the next fetch is fetched: the older stages read no code, so the
word stands where they leave the program counter; where one of them would stop, the pipeline is emptied
first (log 27). -/

namespace Sys2Proof.Machine

/-! ## Where the next fetch reads -/

theorem runStages_append (a b : List Stage) (s : State) :
    runStages (a ++ b) s = andThen (runStages a s) (runStages b) := by
  induction a generalizing s with
  | nil => rfl
  | cons st rest ih =>
    simp only [List.cons_append, runStages, andThen_assoc]
    exact congrArg (andThen (runStage st s)) (funext ih)

/-- Fetch goes on or stops outside the code array. -/
theorem runStage_fetch_cases (s : State) :
    (∃ t, runStage .fetch s = .next t) ∨ runStage .fetch s = .fault .fetchOutOfRange := by
  rcases s.codeRead_cases s.pc with ⟨w, hw, -⟩ | ⟨hout, -⟩
  · cases hh : isHalt s.opcodes w with
    | true => exact .inl ⟨_, runStage_fetch_halt s w hw hh⟩
    | false => exact .inl ⟨_, runStage_fetch_advance s w hw hh⟩
  · exact .inr (runStage_fetch_out s hout)

/-- When the older stages go on, none of them has a reason to stop. -/
theorem goes_of_olderStages {s t : State} (h : runStages olderStages s = .next t) :
    s.addressLegal ∧ s.executes ∧ s.decodes := by
  have hcycle : cycle s = andThen (runStage .fetch t) fun u => .next u.markDone := by
    rw [cycle, cycleOrder, runStages_append, h, andThen_next, runStages, andThen_assoc]
    rfl
  have hend : (∃ u, cycle s = .next u) ∨ cycle s = .fault .fetchOutOfRange := by
    rw [hcycle]
    rcases runStage_fetch_cases t with ⟨u, hu⟩ | hu
    · exact .inl ⟨u.markDone, by rw [hu, andThen_next]⟩
    · exact .inr (by rw [hu, andThen_fault])
  by_cases hl : s.addressLegal
  swap
  · rw [cycle_illegal s hl] at hend
    simp at hend
  rcases cycle_cases s hl with ⟨r, c, -, hs, hc⟩ | ⟨-, r, -, -, hc⟩ | ⟨he, hd, -⟩ | ⟨he, hd, -⟩
  · rw [hc] at hend
    have : c ≠ .fetchOutOfRange := by
      rintro rfl
      unfold IdEx.stop at hs
      split at hs <;> simp at hs
    simp [this] at hend
  · rw [hc] at hend
    simp at hend
  · exact ⟨hl, he, hd⟩
  · exact ⟨hl, he, hd⟩

/-- Where there is an index of the next fetch the older stages go on, and it is what they leave in the
program counter. -/
theorem goes_of_fetchIndex {s : State} {i : Word} (h : fetchIndex s = some i) :
    s.addressLegal ∧ s.executes ∧ s.decodes ∧ i = s.redirectedPc := by
  have hgo : ∃ t, runStages olderStages s = .next t := by
    unfold fetchIndex at h
    split at h
    case h_1 t ht => exact ⟨t, ht⟩
    all_goals cases h
  obtain ⟨t, ht⟩ := hgo
  obtain ⟨hl, he, hd⟩ := goes_of_olderStages ht
  exact ⟨hl, he, hd, Option.some.inj (h.symm.trans (fetchIndex_eq_redirectedPc hl he hd))⟩

/-- The index depends on the registers, the records before Memory-Access and Write-Back, and the map. -/
theorem State.redirectedPc_congr {s t : State} (hregs : s.regs = t.regs) (hexMem : s.exMem = t.exMem)
    (hmemWb : s.memWb = t.memWb) (hop : s.opcodes = t.opcodes) : s.redirectedPc = t.redirectedPc := by
  have hpc : s.wroteBack.reg Config.pcIndex = t.wroteBack.reg Config.pcIndex := by
    rw [State.reg_wroteBack, State.reg_wroteBack, hmemWb, hop, State.reg_of_regs hregs]
  simp only [State.redirectedPc, hexMem, hop, ← State.reg_pcIndex, hpc]

theorem State.word_at_redirectedPc {s : State} {i w : Word} (hi : i = s.redirectedPc)
    (hw : s.code[i.toNat]? = some w) : s.code[s.redirectedPc.toNat]? = some w :=
  hi ▸ hw

/-! ## Placing the word -/

theorem placeWord_getElem? (i : Nat) (w : Word) (code : List Word) :
    (placeWord i w code)[i]? = some w := by
  induction i generalizing code with
  | zero => cases code <;> rfl
  | succ n ih => cases code <;> exact ih _

/-- The next step fetches `w`: nothing older stops it and `w` stands at the index it fetches. -/
structure State.Fetches (s : State) (w : Word) : Prop where
  running : s.running
  addressLegal : s.addressLegal
  executes : s.executes
  decodes : s.decodes
  word : s.code[s.redirectedPc.toNat]? = some w

/-- From `s` to `p` code, `done` and `fatal` may differ, and the records if they are absent in `p`. -/
structure State.PlacedFrom (s p : State) : Prop where
  regs : p.regs = s.regs
  flag : p.flag = s.flag
  data : p.data = s.data
  log : p.log = s.log
  opcodes : p.opcodes = s.opcodes
  inv : s.Inv → p.Inv

/-- Placing a word changes nothing that a program sees, and the next step fetches the word. -/
theorem State.placeForFetch_spec (s : State) (w : Word) :
    s.PlacedFrom (s.placeForFetch w) ∧ (s.placeForFetch w).Fetches w := by
  simp only [State.placeForFetch]
  split
  case h_1 i hi =>
    obtain ⟨hl, he, hd, hpc⟩ := goes_of_fetchIndex hi
    refine ⟨⟨rfl, rfl, rfl, rfl, rfl, fun h => ?_⟩, ⟨⟨rfl, rfl⟩, hl, he, hd, ?_⟩⟩
    · exact { h with done_drained := nofun, not_fatal := rfl }
    · exact State.word_at_redirectedPc (hpc.trans (State.redirectedPc_congr rfl rfl rfl rfl))
        (placeWord_getElem? _ _ _)
  case h_2 hi =>
    refine ⟨⟨rfl, rfl, rfl, rfl, rfl, fun h => ?_⟩, ⟨⟨rfl, rfl⟩, nofun, nofun, nofun, ?_⟩⟩
    · exact State.inv_of_drained rfl h.map_admissible h.data_wf h.data_bounded h.log_legal rfl
        h.at_fetch
    · exact placeWord_getElem? _ _ _

section fetches
variable {s : State} {w : Word} (h : s.Fetches w)
include h

/-- The older stages go on and hand the word to Fetch. -/
theorem State.Fetches.olderStages :
    ∃ t, runStages olderStages s = .next t ∧ t.stageInput .fetch = .ok (some w) := by
  obtain ⟨-, -, hcode, hpc⟩ := s.wroteBack.accessed.executed_keeps
  refine ⟨_, runStages_olderStages h.addressLegal h.executes h.decodes, State.stageInput_fetch ?_⟩
  have hpc' : (s.wroteBack.accessed.executed.decoded.atStage .decode).pc = s.redirectedPc :=
    hpc.trans s.pc_decode
  have hcode' : (s.wroteBack.accessed.executed.decoded.atStage .decode).code = s.code :=
    hcode.trans (by simp)
  rw [hpc', hcode']
  exact h.word

/-- The step goes on, and its IF-result is the word's, absent for HALT (R121). -/
theorem State.Fetches.step :
    ∃ u, step s = .next u ∧
      u.ifId = if isHalt s.opcodes w then none else some ⟨u.reg 31, w⟩ :=
  ⟨s.afterCycle w, (step_of_running h.running.2 h.running.1).trans
    (cycle_of h.addressLegal h.executes h.decodes h.word), s.ifId_afterCycle_pc w⟩

end fetches

/-- Settles O40: placing leaves a state whose next step fetches the word. -/
theorem placedWordIsFetched : Obligations.PlacedWordIsFetched := by
  unfold Obligations.PlacedWordIsFetched
  intro s nbits w
  obtain ⟨hp, hf⟩ := s.placeForFetch_spec (tableWord nbits w)
  exact ⟨hf.running, hp.regs, hp.flag, hp.data, hp.log, hp.opcodes, hp.inv, hf.olderStages,
    hp.opcodes ▸ hf.step⟩

end Sys2Proof.Machine
end

section
/-! PROOF of O34 and O49. A word is its four bytes in memory, memories in canonical form are determined
by what is read from them, and a LOAD behind a STORE reads what the STORE wrote (spec/20_memory.md R33
to R36, R41). -/

namespace Sys2Proof.Machine

/-! ## The bytes of a word (R35) -/

/-- Byte `j` of a word put together from four bytes is the `j`-th of them: its bit `i` is bit `8 * j + i`
of the word, which lies past the `j` bytes below. -/
theorem byteOfWord_wordOfBytes (b : Nat → Byte) {j : Nat} (hj : j < 4) :
    byteOfWord (wordOfBytes (b 0) (b 1) (b 2) (b 3)) j = b j := by
  unfold byteOfWord wordOfBytes
  ext i hi
  rw [← BitVec.getLsbD_eq_getElem, ← BitVec.getLsbD_eq_getElem]
  simp only [BitVec.getLsbD_append, BitVec.getLsbD_extractLsb', hi, decide_true, Bool.true_and]
  interval_cases j <;> grind

theorem Memory.byteOfWord_readWord (m : Memory) (a : Nat) {j : Nat} (hj : j < 4) :
    byteOfWord (m.readWord a) j = m.readByte (a + j) :=
  byteOfWord_wordOfBytes (fun k => m.readByte (a + k)) hj

/-! ## Equal reads mean equal memories -/

section canonical
variable {lo k : Nat} {v : Byte} {rest : Memory}

theorem Memory.wfFrom_cons :
    Memory.wfFrom lo ((k, v) :: rest) = true ↔
      lo ≤ k ∧ v ≠ unlistedByte ∧ rest.wfFrom (k + 1) = true := by
  simp [Memory.wfFrom, and_assoc]

theorem Memory.readByte_head : Memory.readByte ((k, v) :: rest) k = v := if_pos rfl

/-- The first listed address of a memory is listed in every canonical memory that reads alike, so it
is not below that memory's first. -/
theorem Memory.le_head_of_reads {n : Memory} (hv : v ≠ unlistedByte) (hn : n.wfFrom lo = true)
    (h : Memory.readByte ((k, v) :: rest) k = n.readByte k) : lo ≤ k := by
  by_contra hlt
  rw [Memory.readByte_head, Memory.readByte_below (Nat.lt_of_not_le hlt) n hn] at h
  exact hv h

/-- Behind the first listed address, the rest reads as the whole does; up to it, as unlisted. -/
theorem Memory.readByte_tail (h : rest.wfFrom (k + 1) = true) (a : Nat) :
    rest.readByte a = if a ≤ k then unlistedByte else Memory.readByte ((k, v) :: rest) a := by
  split
  case isTrue ha => exact Memory.readByte_below (Nat.lt_succ_of_le ha) rest h
  case isFalse ha => exact (if_neg (by omega)).symm

end canonical

/-- Canonical memories that read alike are equal. -/
theorem Memory.eq_of_readByte {lo : Nat} {m n : Memory} (hm : m.wfFrom lo = true)
    (hn : n.wfFrom lo = true) (h : ∀ a, m.readByte a = n.readByte a) : m = n := by
  induction m generalizing n lo with
  | nil =>
    cases n with
    | nil => rfl
    | cons d _ =>
      obtain ⟨-, hv, -⟩ := Memory.wfFrom_cons.1 hn
      exact absurd (h d.1).symm (Memory.readByte_head ▸ hv)
  | cons c mrest ih =>
    obtain ⟨k, v⟩ := c
    obtain ⟨-, hv, hmrest⟩ := Memory.wfFrom_cons.1 hm
    cases n with
    | nil => exact absurd (h k) (Memory.readByte_head ▸ hv)
    | cons d nrest =>
      obtain ⟨j, u⟩ := d
      obtain ⟨-, hu, hnrest⟩ := Memory.wfFrom_cons.1 hn
      have hjk : j ≤ k :=
        Memory.le_head_of_reads hv (Memory.wfFrom_cons.2 ⟨Nat.le_refl j, hu, hnrest⟩) (h k)
      have hkj : k ≤ j :=
        Memory.le_head_of_reads hu (Memory.wfFrom_cons.2 ⟨Nat.le_refl k, hv, hmrest⟩) (h j).symm
      obtain rfl := Nat.le_antisymm hkj hjk
      have hvu : v = u := Memory.readByte_head.symm.trans ((h k).trans Memory.readByte_head)
      have hrest : mrest = nrest := ih hmrest hnrest fun a => by
        rw [Memory.readByte_tail (v := v) hmrest, Memory.readByte_tail (v := u) hnrest, h a]
      rw [hvu, hrest]

/-- Settles O34: reads after writes, the bytes of a word, and extensionality of the canonical form. -/
theorem memoryLaws : Obligations.MemoryLaws := by
  unfold Obligations.MemoryLaws
  exact ⟨fun m a k v hm => ⟨Memory.writeWord_wf m a v hm, Memory.readWord_writeWord m hm a v,
      Memory.readByte_writeWord m hm a k v⟩,
    fun m a _ hj => Memory.byteOfWord_readWord m a hj,
    fun m a k b hm => ⟨Memory.writeByte_wf m a b hm, Memory.readByte_writeByte m hm a k b⟩,
    fun _ _ hm hn h => Memory.eq_of_readByte hm hn h⟩

/-! ## A LOAD behind a STORE (R41) -/

/-- Execute of a LOAD sums the operands (R210). -/
theorem IdEx.executed_result_of_load {r : IdEx} {m : OpcodeMap} (b : Bool)
    (h : isLoad m r.instr = true) : (r.executed m b).result = r.operand1 + r.operand2 :=
  IdEx.result_of_sum (.inr (.inr (decodeType_of_op (isLoad_iff.1 h))))

/-- Memory-Access of a LOAD reads the word at its address. -/
theorem ExMem.accessed_result_of_load {r : ExMem} {m : OpcodeMap} (d : Memory)
    (h : isLoad m r.instr = true) : (r.accessed m d).result = d.readWord r.result.toNat := by
  rw [ExMem.accessed, if_pos h]

section afterCycle
variable (s : State) (w : Word)

theorem State.data_afterCycle_of_store {r : ExMem} (hr : s.exMem = some r)
    (hs : isStore s.opcodes r.instr = true) :
    (s.afterCycle w).data = s.data.writeWord r.result.toNat r.ioOperand := by
  simp [State.data_afterCycle, hr, hs]

theorem State.memWb_afterCycle_some {r : ExMem} (hr : s.exMem = some r) :
    (s.afterCycle w).memWb = some (r.accessed s.opcodes s.data) := by
  simp [State.memWb_afterCycle, hr]

/-- After a cycle that executed a record the machine still runs. -/
theorem State.running_afterCycle_of_idEx {r : IdEx} (hrun : s.running) (hr : s.idEx = some r) :
    (s.afterCycle w).running := by
  refine ⟨?_, by simpa using hrun.2⟩
  rw [State.done_afterCycle]
  simp [State.drained, s.exMem_afterCycle_some w hr]

end afterCycle

/-- Settles O49: the first cycle stores the word and takes the LOAD to its address, which is the
STORE's; the second reads the word there. -/
theorem loadAfterStoreSeesIt : Obligations.LoadAfterStoreSeesIt := by
  unfold Obligations.LoadAfterStoreSeesIt
  intro s t u hrun hwf hstep hstep' st l hst hstore hl hload haddr
  obtain ⟨-, -, -, w, -, rfl⟩ := step_next_running hrun hstep
  obtain ⟨-, -, -, w', -, rfl⟩ :=
    step_next_running (s.running_afterCycle_of_idEx w hrun hl) hstep'
  refine ⟨_, (s.afterCycle w).memWb_afterCycle_some w' (s.exMem_afterCycle_some w hl), by simp, ?_⟩
  calc ((l.executed s.opcodes s.flag).accessed (s.afterCycle w).opcodes (s.afterCycle w).data).result
    _ = (s.afterCycle w).data.readWord (l.executed s.opcodes s.flag).result.toNat :=
      ExMem.accessed_result_of_load _ (by simpa using hload)
    _ = (s.data.writeWord st.result.toNat st.ioOperand).readWord st.result.toNat := by
      rw [s.data_afterCycle_of_store w hst hstore, IdEx.executed_result_of_load _ hload, haddr]
    _ = st.ioOperand := Memory.readWord_writeWord _ hwf _ _

end Sys2Proof.Machine
end

section
/-! PROOF of O3, O4. Encoding and decoding are inverse: the encoder puts the operands into the fields of
the format and the decoder reads them from there; the fields that the decoder reads, put together, are
the word without its unread bits (spec/30_encoding.md R53, R60, R61). -/

namespace Sys2Proof

/-! ## Decoding what was encoded -/

/-- The encoder writes the opcode of the instruction's operation (R51). -/
theorem opcodeField_encodeWith (m : OpcodeMap) (i : Instr) :
    opcodeField (encodeWith m i) = m.opcodeOf i.op := by
  cases i <;> simp only [encodeWith, opcodeField_formatBR, opcodeField_formatBI, opcodeField_formatUR,
    opcodeField_formatUI, opcodeField_formatJR, opcodeField_formatJI, opcodeField_formatM]

/-- The fields of an encoded instruction are its operands, if its immediate fits its field. -/
theorem instrOf_encodeWith (m : OpcodeMap) {i : Instr} (h : i.wellFormed = true) :
    instrOf i.op (encodeWith m i) = i := by
  cases i
  case addi | subi | andi | ori | shli | shrai | shrli | load | store =>
    simp [Instr.op, instrOf, encodeWith, toInt_ofInt_of_fits (n := 16) (by decide) h]
  case noti | movi | ceqi | cltui | cltsi | cgtui | cgtsi =>
    simp [Instr.op, instrOf, encodeWith, toInt_ofInt_of_fits (n := 21) (by decide) h]
  case jumpi | branchi =>
    simp [Instr.op, instrOf, encodeWith, toInt_ofInt_of_fits (n := 26) (by decide) h]
  all_goals simp [Instr.op, instrOf, encodeWith]

/-- Settles O3: the encoded word has the instruction's operation, and its fields are the operands. -/
theorem decodeInvertsEncode : Obligations.DecodeInvertsEncode := by
  unfold Obligations.DecodeInvertsEncode
  intro m hm i hi
  have hop : opOfWord m (encodeWith m i) = some i.op :=
    (opcodeField_iff (admissibleButIo_of_admissible hm) _).1 (opcodeField_encodeWith m i)
  rw [decode_of_op hop, instrOf_encodeWith m hi]

/-! ## Encoding what was decoded -/

/-- The immediate read from a word is in its field's range (R60). -/
theorem wellFormed_instrOf (op : Op) (w : Word) : (instrOf op w).wellFormed = true := by
  cases op
  case addi | subi | andi | ori | shli | shrai | shrli | load | store =>
    exact fitsSigned_toInt (by decide) (imm16Field w)
  case noti | movi | ceqi | cltui | cltsi | cgtui | cgtsi =>
    exact fitsSigned_toInt (by decide) (imm21Field w)
  case jumpi | branchi => exact fitsSigned_toInt (by decide) (imm26Field w)
  all_goals rfl

/-- A word whose bits are the low `n` of another's is that word masked with `n` ones. -/
theorem eq_and_ones {v w : Word} (n : Nat)
    (h : ∀ i < 32, v.getLsbD i = (decide (i < n) && w.getLsbD i)) :
    v = w &&& BitVec.ofNat 32 (2 ^ n - 1) := by
  apply BitVec.eq_of_getLsbD_eq
  intro i hi
  rw [h i hi, BitVec.getLsbD_and, BitVec.getLsbD_ofNat, Nat.testBit_two_pow_sub_one, decide_eq_true hi,
    Bool.true_and, Bool.and_comm]

section fields
variable {w : Word} {c : Opcode} (h : opcodeField w = c)
include h

/-! Bit by bit: each bit below the number read belongs to one field, and there it is the word's. -/

theorem formatBR_of_fields :
    formatBR c (fieldA w) (fieldB w) (fieldC w) = w &&& Format.br.readMask := by
  subst h
  exact eq_and_ones 21 (by grind [formatBR, opcodeField, fieldA, fieldB, fieldC])

theorem formatBI_of_fields :
    formatBI c (fieldA w) (fieldB w) (imm16Field w).toInt = w &&& Format.bi.readMask := by
  subst h
  rw [formatBI, BitVec.ofInt_toInt]
  exact eq_and_ones 32 (by grind [opcodeField, fieldA, fieldB, imm16Field])

theorem formatUR_of_fields : formatUR c (fieldA w) (fieldB w) = w &&& Format.ur.readMask := by
  subst h
  exact eq_and_ones 16 (by grind [formatUR, opcodeField, fieldA, fieldB])

theorem formatUI_of_fields :
    formatUI c (fieldA w) (imm21Field w).toInt = w &&& Format.ui.readMask := by
  subst h
  rw [formatUI, BitVec.ofInt_toInt]
  exact eq_and_ones 32 (by grind [opcodeField, fieldA, imm21Field])

theorem formatJR_of_fields : formatJR c (fieldA w) = w &&& Format.jr.readMask := by
  subst h
  exact eq_and_ones 11 (by grind [formatJR, opcodeField, fieldA])

theorem formatJI_of_fields : formatJI c (imm26Field w).toInt = w &&& Format.ji.readMask := by
  subst h
  rw [formatJI, BitVec.ofInt_toInt]
  exact eq_and_ones 32 (by grind [opcodeField, imm26Field])

theorem formatM_of_field : formatM c = w &&& Format.m.readMask := by
  subst h
  exact eq_and_ones 6 (by grind [formatM, opcodeField])

end fields

/-- Encoding what an operation reads from its word gives the bits that its format reads. -/
theorem encodeWith_instrOf {m : OpcodeMap} {op : Op} {w : Word}
    (h : opcodeField w = m.opcodeOf op) :
    encodeWith m (instrOf op w) = w &&& op.format.readMask := by
  cases op
  case add | sub | and | or | shl | shra | shrl => exact formatBR_of_fields h
  case addi | subi | andi | ori | shli | shrai | shrli | load | store => exact formatBI_of_fields h
  case not | mov | ceq | cltu | clts | cgtu | cgts => exact formatUR_of_fields h
  case noti | movi | ceqi | cltui | cltsi | cgtui | cgtsi => exact formatUI_of_fields h
  case jump | branch => exact formatJR_of_fields h
  case jumpi | branchi => exact formatJI_of_fields h
  case nop | halt => exact formatM_of_field h

/-! ## The opcode field selects (R51) -/

/-- Every format reads the opcode. -/
theorem opcodeField_and_readMask (w : Word) (f : Format) :
    opcodeField (w &&& f.readMask) = opcodeField w := by
  have hones : f.readMask.extractLsb' 0 6 = BitVec.allOnes 6 := by cases f <;> rfl
  rw [opcodeField, BitVec.extractLsb'_and, hones, BitVec.and_allOnes, opcodeField]

section congr
variable {w v : Word} (h : opcodeField w = opcodeField v) (m : OpcodeMap)
include h

theorem decodeType_of_opcodeField : decodeType m w = decodeType m v := by
  rw [decodeType, decodeType, h]

theorem isBadIo_of_opcodeField : isBadIo m w = isBadIo m v := by
  rw [isBadIo, isBadIo, decodeType_of_opcodeField h, h]

theorem opOfWord_of_opcodeField : opOfWord m w = opOfWord m v := by
  rw [opOfWord, opOfWord, isBadIo_of_opcodeField h, h]

end congr

/-- Settles O4: a word that agrees with `w` in the bits read has `w`'s operation, and decodes to an
instruction with the same encoding, which by O3 is the same instruction. -/
theorem encodeInvertsDecode : Obligations.EncodeInvertsDecode := by
  unfold Obligations.EncodeInvertsDecode
  intro m hm w i hi
  obtain ⟨hop, hiw⟩ := op_of_decode hi
  have encode {v : Word} (hv : opOfWord m v = some i.op) :
      encodeWith m (instrOf i.op v) = v &&& i.op.format.readMask :=
    encodeWith_instrOf ((opcodeField_iff (admissibleButIo_of_admissible hm) _).2 hv)
  have hwf : i.wellFormed = true := hiw ▸ wellFormed_instrOf i.op w
  have hencode : encodeWith m i = w &&& i.op.format.readMask := by rw [← encode hop, ← hiw]
  refine ⟨hwf, hencode, fun v hv => ?_⟩
  have hfield : opcodeField v = opcodeField w := by
    rw [← opcodeField_and_readMask v i.op.format, hv, opcodeField_and_readMask]
  have hopv : opOfWord m v = some i.op := (opOfWord_of_opcodeField hfield m).trans hop
  calc decodeWith m v
    _ = .ok (instrOf i.op v) := decode_of_op hopv
    _ = decodeWith m (encodeWith m (instrOf i.op v)) :=
      (decodeInvertsEncode m hm _ (wellFormed_instrOf _ _)).symm
    _ = decodeWith m (encodeWith m i) := by rw [encode hopv, hv, hencode]
    _ = .ok i := decodeInvertsEncode m hm i hwf

end Sys2Proof
end

section
/-! PROOF of O1, O2, O6. The spec's words, the opcode field, and the immediates as arithmetic shifts of
the word (spec/30_encoding.md R51, R54 to R60, R80). -/

namespace Sys2Proof

/-- Settles O1: each word is decoded under the reference map. -/
theorem specWordsDecode : Obligations.SpecWordsDecode := by
  unfold Obligations.SpecWordsDecode
  decide

/-- The opcode field is the low six bits (R51). -/
theorem opcodeField_eq_and (w : Word) : opcodeField w = (w &&& 0x3F#32).setWidth 6 := by
  have hmask : opcodeField (w &&& Format.m.readMask) = opcodeField w := opcodeField_and_readMask w .m
  rw [← hmask, opcodeField, ← BitVec.setWidth_eq_extractLsb' (by decide)]
  rfl

/-- Words with equal opcode fields are rejected alike or decode to the same operation (R51). -/
theorem decodeWith_of_opcodeField {w v : Word} (h : opcodeField w = opcodeField v) (m : OpcodeMap) :
    (∃ e, decodeWith m w = .error e ∧ decodeWith m v = .error e) ∨
    (∃ op, decodeWith m w = .ok (instrOf op w) ∧ decodeWith m v = .ok (instrOf op v)) := by
  rcases word_cases m w with hu | hb | ⟨op, ho⟩
  · refine .inl ⟨_, decode_of_unknown hu, ?_⟩
    rw [h, decode_of_unknown (decodeType_of_opcodeField h m ▸ hu)]
  · refine .inl ⟨_, decode_of_badIo hb, ?_⟩
    rw [h, decode_of_badIo (isBadIo_of_opcodeField h m ▸ hb)]
  · exact .inr ⟨op, decode_of_op ho, decode_of_op (opOfWord_of_opcodeField h m ▸ ho)⟩

/-- Settles O2: decoding and the type look at the opcode field only, through the map. -/
theorem opcodeAloneSelects : Obligations.OpcodeAloneSelects := by
  unfold Obligations.OpcodeAloneSelects
  refine ⟨opcodeField_eq_and, fun m w v h => ?_, fun m w v h => decodeType_of_opcodeField h m,
    fun m w h => by rw [decodeType, h], fun m w op h => by rw [decodeType, h]⟩
  rcases decodeWith_of_opcodeField h m with ⟨e, hw, hv⟩ | ⟨op, hw, hv⟩
  · rw [hw, hv]
    exact ⟨fun _ => id, nofun⟩
  · rw [hw, hv]
    refine ⟨nofun, ?_⟩
    rintro i ⟨⟩
    exact ⟨_, rfl, by simp⟩

/-! ## Immediates (R60) -/

/-- The field at the top of a word, sign extended, is the word shifted right arithmetically. -/
theorem signExtend_top_field (w : Word) {k n : Nat} (h : k + n = 32) (hn : 0 < n) :
    (w.extractLsb' k n).signExtend 32 = w.sshiftRight k := by
  ext i hi
  rw [BitVec.getElem_signExtend, BitVec.getElem_sshiftRight]
  by_cases hin : i < n
  · rw [dif_pos hin, dif_pos (by omega), BitVec.getElem_extractLsb', BitVec.getLsbD_eq_getElem]
  · rw [dif_neg hin, dif_neg (by omega), BitVec.msb_eq_getLsbD_last, BitVec.msb_eq_getLsbD_last,
      BitVec.getLsbD_extractLsb', decide_eq_true (by omega), Bool.true_and]
    congr 1
    omega

/-- The immediate operand, the sign extension and the shifted word agree, and the value is in the
field's range. -/
theorem top_field_immediate (w : Word) {k n : Nat} (h : k + n = 32) (hn : 0 < n) :
    Machine.immediate (w.extractLsb' k n).toInt = w.sshiftRight k ∧
    sext n (w.extractLsb' k n) = w.sshiftRight k ∧
    -2 ^ (n - 1) ≤ (w.extractLsb' k n).toInt ∧ (w.extractLsb' k n).toInt ≤ 2 ^ (n - 1) - 1 :=
  have hshift := signExtend_top_field w h hn
  ⟨hshift, (sext_eq_ofInt _).trans hshift, BitVec.le_toInt _, Int.le_sub_one_of_lt BitVec.toInt_lt⟩

/-- Settles O6: the three fields stand at the top of the word. -/
theorem immediateAssembly : Obligations.ImmediateAssembly := by
  unfold Obligations.ImmediateAssembly
  exact fun w => ⟨top_field_immediate w (by decide) (by decide),
    top_field_immediate w (by decide) (by decide), top_field_immediate w (by decide) (by decide)⟩

end Sys2Proof
end

section
/-! PROOF of O60. The one stop of Decode (spec/60_exceptions.md R234): when a step raises it and what it
leaves. -/

namespace Sys2Proof.Machine

/-- The two stops of Execute (R233, R235). -/
theorem IdEx.stop_some {r : IdEx} {m : OpcodeMap} {n : Nat} {c : Fault} (h : r.stop m n = some c) :
    c = .unknownInstruction ∨ c = .dataAddressOutOfRange := by
  unfold IdEx.stop at h
  split at h
  case h_1 => cases h; exact .inl rfl
  case h_2 =>
    split at h
    · cases h
    · cases h; exact .inr rfl
  all_goals cases h

/-- The record before Decode is of type IO and neither LOAD nor STORE. -/
def State.badIoFetched (s : State) : Prop :=
  ∃ r, s.ifId = some r ∧ isBadIo s.opcodes r.instr = true

/-- A cycle stops in Decode exactly when the older stages go on and the record there is a bad IO word
(R234, R239). -/
theorem cycle_badIo_iff (s : State) :
    cycle s = .fault .badIoOpcode ↔ s.addressLegal ∧ s.executes ∧ s.badIoFetched := by
  constructor
  · intro h
    by_cases hl : s.addressLegal
    swap
    · rw [cycle_illegal s hl] at h; cases h
    rcases cycle_cases s hl with ⟨r, c, -, hs, hc⟩ | ⟨he, r, hr, hb, -⟩ | ⟨-, -, -, hc⟩ | ⟨-, -, w, -, hc⟩
    · rw [h] at hc
      cases hc
      cases IdEx.stop_some hs <;> contradiction
    · exact ⟨hl, he, r, hr, hb⟩
    · rw [h] at hc; cases hc
    · rw [h] at hc; cases hc
  · rintro ⟨hl, he, r, hr, hb⟩
    have hnot : ¬ s.decodes := fun hd => by
      have := hd r hr
      simp [IfId.stop, hb] at this
    rcases cycle_cases s hl with ⟨r, c, hr, hs, -⟩ | ⟨-, -, -, -, hc⟩ | ⟨-, hd, -⟩ | ⟨-, hd, -⟩
    · rw [he r hr] at hs; cases hs
    · exact hc
    · exact absurd hd hnot
    · exact absurd hd hnot

/-! ## What a stop leaves (R133, R230) -/

section stopAmong
variable {st : Stage} {rest : List Stage} {s t : State}

theorem stopAmong_cons_next (h : runStage st s = .next t) :
    stopAmong (st :: rest) s = stopAmong rest t := by
  rw [stopAmong, h]

theorem stopAmong_cons_fault {c : Fault} (h : runStage st s = .fault c) :
    stopAmong (st :: rest) s = some (s.raiseFatal c) := by
  rw [stopAmong, h]

/-- Write-Back and Memory-Access of a cycle with legal addresses stand. -/
theorem stopAmong_of_addressLegal (hl : s.addressLegal) :
    stopAmong cycleOrder s =
      stopAmong [.execute, .decode, .fetch] (s.wroteBack.accessed.atStage .memoryAccess) := by
  have hma := runStage_memoryAccess (s.wroteBack.atStage .writeBack)
    (by simpa [State.addressLegal] using hl)
  rw [State.accessed_atStage, State.atStage_atStage] at hma
  exact (stopAmong_cons_next (runStage_writeBack s)).trans (stopAmong_cons_next hma)

/-- And so does Execute, if it does not stop. -/
theorem stopAmong_of_executes (hl : s.addressLegal) (he : s.executes) :
    stopAmong cycleOrder s =
      stopAmong [.decode, .fetch] (s.wroteBack.accessed.executed.atStage .execute) := by
  have hx := runStage_execute (s.wroteBack.accessed.atStage .memoryAccess)
    (by simpa [State.executes] using he)
  rw [State.executed_atStage, State.atStage_atStage] at hx
  rw [stopAmong_of_addressLegal hl, stopAmong_cons_next hx]

end stopAmong

theorem stopState_of_running {s : State} (hrun : s.running) :
    stopState s = stopAmong cycleOrder s := by
  simp [stopState, hrun.1, hrun.2]

/-- The state that the stop in Decode leaves. -/
theorem stopState_of_badIo {s : State} (hrun : s.running) (hl : s.addressLegal) (he : s.executes)
    (hb : s.badIoFetched) :
    stopState s =
      some ((s.wroteBack.accessed.executed.atStage .execute).raiseFatal .badIoOpcode) := by
  obtain ⟨r, hr, hb⟩ := hb
  obtain ⟨ko, ki, -, -⟩ := s.wroteBack.accessed.executed_keeps
  rw [stopState_of_running hrun, stopAmong_of_executes hl he]
  exact stopAmong_cons_fault
    (runStage_decode_badIo _ (r := r) (by simpa [ki] using hr) (by simpa [ko] using hb))

/-- Settles O60: a bad IO word is one that Decode stops for, and the stop comes after Execute. -/
theorem badIoOpcodeStopsInDecode : Obligations.BadIoOpcodeStopsInDecode := by
  unfold Obligations.BadIoOpcodeStopsInDecode
  refine ⟨fun m w ht hload hstore => ?_, fun s hrun => ?_, fun s hrun hstep => ?_⟩
  · have hb : isBadIo m w = true := isBadIo_iff.2 ⟨ht, hload, hstore⟩
    refine ⟨decode_of_badIo hb, ?_, ?_⟩
    · rw [Bool.eq_false_iff]
      intro hm
      rw [isBadIo_of_admissible hm] at hb
      cases hb
    · rintro s r rfl hr rfl
      exact runStage_decode_badIo s hr hb
  · have hfetched : s.badIoFetched ↔ ∃ r, s.ifId = some r ∧ decodeType s.opcodes r.instr = .io ∧
        opcodeField r.instr ≠ s.opcodes.opcodeOf .load ∧
        opcodeField r.instr ≠ s.opcodes.opcodeOf .store :=
      exists_congr fun r => and_congr_right fun _ => isBadIo_iff
    rw [step_of_running hrun.2 hrun.1, cycle_badIo_iff, hfetched]
    rfl
  · rw [step_of_running hrun.2 hrun.1, cycle_badIo_iff] at hstep
    obtain ⟨hl, he, hb⟩ := hstep
    refine ⟨_, stopState_of_badIo hrun hl he hb, ?_⟩
    rw [State.executed_eq]
    exact ⟨rfl, by simpa using hrun.1, s.reg_decode, rfl, rfl, by simp [State.memWb_accessed], by simp,
      by simp, by simp, by simp⟩

end Sys2Proof.Machine
end

section
/-! PROOF of O38. Under a map that meets R63, item 4 apart, each stage function as the spec prints it
(spec/42_pipeline.md R121 to R126) does what the stage's closed form says, so the two steps agree. -/

namespace Sys2Proof.Machine

/-! ## Sequences of stage functions -/

@[simp] theorem ok_bind {ε α β : Type} (a : α) (f : α → Except ε β) : (.ok a >>= f) = f a := rfl

@[simp] theorem error_bind {ε α β : Type} (e : ε) (f : α → Except ε β) :
    (.error e >>= f) = .error e := rfl

@[simp] theorem pure_eq_ok {ε α : Type} (a : α) : (pure a : Except ε α) = .ok a := rfl

/-- The cycle of R127 from Fetch on. -/
def pseudoFromFetch (s : State) : Except Fault State := do
  let (ifId, s) ← pseudoFetch s
  return { s with ifId := ifId }.markDone

/-- The cycle of R127 from Decode on. -/
def pseudoFromDecode (s : State) : Except Fault State := do
  let idEx ← pseudoDecode s.ifId s
  pseudoFromFetch { s with idEx := idEx }

/-- The cycle of R127 from Execute on. -/
def pseudoFromExecute (s : State) : Except Fault State := do
  let (exMem, s) ← pseudoExecute s.idEx s
  pseudoFromDecode { s with exMem := exMem }

/-- The cycle of R127 from Memory-Access on. -/
def pseudoFromMemoryAccess (s : State) : Except Fault State := do
  let (memWb, s) ← pseudoMemoryAccess s.exMem s
  pseudoFromExecute { s with memWb := memWb }

theorem pseudoCycle_eq (s : State) :
    pseudoCycle s = pseudoWriteBack s.memWb s >>= pseudoFromMemoryAccess := rfl

/-! ## LOAD, STORE and HALT by their opcodes (R62) -/

section words
variable {m : OpcodeMap} (hm : m.admissibleButIo = true) {w : Word}
include hm

theorem isLoad_iff_opcode : isLoad m w = true ↔ decodeType m w = .io ∧ opcodeField w = opcLoad m := by
  rw [isLoad_iff, opcLoad, opcodeField_iff hm]
  exact ⟨fun h => ⟨decodeType_of_op h, h⟩, And.right⟩

theorem isStore_iff_opcode :
    isStore m w = true ↔ decodeType m w = .io ∧ opcodeField w = opcStore m := by
  rw [isStore, decide_eq_true_iff, opcStore, opcodeField_iff hm]
  exact ⟨fun h => ⟨decodeType_of_op h, h⟩, And.right⟩

theorem isHalt_iff_opcode : isHalt m w = true ↔ opcodeField w = opcHalt m := by
  rw [isHalt, decide_eq_true_iff, opcHalt, opcodeField_iff hm]

end words

/-! ## Write-Back (R126) -/

theorem pseudoWriteBack_eq {s : State} (hm : s.opcodes.admissibleButIo = true) :
    pseudoWriteBack s.memWb s = .ok s.wroteBack := by
  unfold State.wroteBack
  rcases Option.eq_none_or_eq_some s.memWb with hr | ⟨r, hr⟩
  · rw [hr]; rfl
  · simp only [hr, pseudoWriteBack, ← isLoad_iff_opcode hm, MemWb.target]
    cases ht : decodeType s.opcodes r.instr
    case io => cases isLoad s.opcodes r.instr <;> simp
    all_goals simp [decodeDestination, ht, isLoad_of_type]

/-! ## Memory-Access (R125) -/

theorem State.accessed_of_none {s : State} (hr : s.exMem = none) :
    s.accessed = { s with memWb := none } := by
  rw [State.accessed, hr]

/-- A transfer happens for a JUMP, and for a BRANCH that is taken. -/
theorem ExMem.redirect_eq (r : ExMem) (m : OpcodeMap) :
    r.redirect m =
      if decodeType m r.instr = .jump ∨ (decodeType m r.instr = .branch ∧ r.branchTaken)
      then some r.result else none := by
  unfold ExMem.redirect
  split <;> simp_all

section memoryAccess
variable {s : State} (hm : s.opcodes.admissibleButIo = true)
include hm

theorem pseudoMemoryAccess_legal (hl : s.addressLegal) :
    pseudoMemoryAccess s.exMem s = .ok (s.accessed.memWb, { s.accessed with memWb := s.memWb }) := by
  rcases Option.eq_none_or_eq_some s.exMem with hr | ⟨r, hr⟩
  · have hnone : pseudoMemoryAccess s.exMem s = .ok (none, s) := by rw [hr]; rfl
    rw [hnone, State.accessed_of_none hr]
  have hl := hl r hr
  rw [hr]
  simp only [pseudoMemoryAccess, ← isLoad_iff_opcode hm, ← isStore_iff_opcode hm]
  cases hload : isLoad s.opcodes r.instr with
  | true =>
    rw [if_pos rfl, State.memRead_legal (hl (by simp [isIo, hload])),
      State.accessed_load hr (isLoad_iff.1 hload)]
    rfl
  | false =>
    cases hstore : isStore s.opcodes r.instr with
    | true =>
      rw [if_neg (by simp), if_pos rfl, State.memWrite_legal _ (hl (by simp [isIo, hstore])),
        State.accessed_store hr (of_decide_eq_true hstore)]
      rfl
    | false =>
      have hredirect := r.redirect_eq s.opcodes
      rw [if_neg (by simp), if_neg (by simp)]
      split <;> rename_i hgo
      · rw [State.accessed_redirect hr hstore hload (hredirect.trans (if_pos hgo))]
        rfl
      · rw [State.accessed_pass hr hstore hload (hredirect.trans (if_neg hgo))]
        rfl

/-- An illegal address stops Memory-Access here as well (log 16). -/
theorem pseudoMemoryAccess_illegal (hl : ¬ s.addressLegal) :
    pseudoMemoryAccess s.exMem s = .error .dataAddressOutOfRange := by
  simp only [State.addressLegal, not_forall] at hl
  obtain ⟨r, hr, hio, hl⟩ := hl
  rw [hr]
  simp only [pseudoMemoryAccess, ← isLoad_iff_opcode hm, ← isStore_iff_opcode hm]
  cases hload : isLoad s.opcodes r.instr with
  | true =>
    rw [if_pos rfl, State.memRead, if_neg hl]
    rfl
  | false =>
    have hstore : isStore s.opcodes r.instr = true := by simpa [isIo, hload] using hio
    rw [if_neg (by simp), if_pos hstore, State.memWrite, if_neg hl]
    rfl

end memoryAccess

/-! ## Execute (R124) -/

/-- A table holds the function of the operation that the opcode is mapped to (R101). -/
theorem tableLookup_of_op {α : Type} {m : OpcodeMap} {f : Op → Option α} {w : Word} {op : Op} {g : α}
    (h : opOfWord m w = some op) (hf : f op = some g) :
    tableLookup m f (opcodeField w) = .ok g := by
  have hlt : (opcodeField w).toNat < 2 ^ Config.opcodeBits := (opcodeField w).isLt
  simp [tableLookup, tableSlot, hlt, (opOfWord_iff.1 h).2, hf]

/-- What Execute answers for a record: its stop, or the flag and the record it writes. -/
def IdEx.outcome (r : IdEx) (s : State) : Except Fault (Option ExMem × State) :=
  match r.stop s.opcodes s.dataSize with
  | some c => .error c
  | none => .ok (some (r.executed s.opcodes s.flag), { s with flag := r.flagAfter s.opcodes s.flag })

section execute
variable (s : State) (r : IdEx)

theorem pseudoExecute_io (hd : decodeType s.opcodes r.instr = .io) :
    pseudoExecute (some r) s = r.outcome s := by
  cases hl : legalAddress s.dataSize (r.operand1 + r.operand2) with
  | false => simp [pseudoExecute, IdEx.outcome, IdEx.stop, hd, hl]
  | true =>
    simp [pseudoExecute, IdEx.outcome, IdEx.stop, hd, hl, IdEx.executed, IdEx.taken,
      IdEx.flagAfter_of_type, IdEx.result_of_sum]

theorem pseudoExecute_some : pseudoExecute (some r) s = r.outcome s := by
  rcases word_cases s.opcodes r.instr with hu | hb | ⟨op, ho⟩
  · simp [pseudoExecute, IdEx.outcome, IdEx.stop, hu]
  · exact pseudoExecute_io s r (decodeType_of_badIo hb)
  have hd := decodeType_of_op ho
  cases opKind op with
  | binary f h ht _ =>
    simp [pseudoExecute, IdEx.outcome, IdEx.stop, hd, ht, binaryTable, tableLookup_of_op ho h,
      IdEx.executed, IdEx.taken, IdEx.flagAfter_of_type, IdEx.result, ho, h]
  | unary f h ht _ =>
    have hb := binaryFunction_none (op := op) (by simp [ht])
    simp [pseudoExecute, IdEx.outcome, IdEx.stop, hd, ht, unaryTable, tableLookup_of_op ho h,
      IdEx.executed, IdEx.taken, IdEx.flagAfter_of_type, IdEx.result, ho, h, hb]
  | compare p h ht _ =>
    have hb := binaryFunction_none (op := op) (by simp [ht])
    have hu := unaryFunction_none (op := op) (by simp [ht])
    simp [pseudoExecute, IdEx.outcome, IdEx.stop, hd, ht, compareTable, tableLookup_of_op ho h,
      IdEx.executed, IdEx.taken, IdEx.flagAfter, IdEx.result, ho, h, hb, hu]
  | jump ht _ | branch ht _ =>
    simp [pseudoExecute, IdEx.outcome, IdEx.stop, hd, ht, IdEx.executed, IdEx.taken,
      IdEx.flagAfter_of_type, IdEx.result_of_sum]
  | misc ht _ =>
    have hb := binaryFunction_none (op := op) (by simp [ht])
    have hu := unaryFunction_none (op := op) (by simp [ht])
    simp [pseudoExecute, IdEx.outcome, IdEx.stop, hd, ht, IdEx.executed, IdEx.taken,
      IdEx.flagAfter_of_type, IdEx.result, ho, hb, hu]
  | load h | store h => exact pseudoExecute_io s r (by rw [hd, h]; rfl)

end execute

theorem pseudoFromExecute_of_executes {s : State} (he : s.executes) :
    pseudoFromExecute s = pseudoFromDecode s.executed := by
  unfold pseudoFromExecute State.executed
  rcases Option.eq_none_or_eq_some s.idEx with hr | ⟨r, hr⟩
  · rw [hr]; rfl
  · simp only [hr, pseudoExecute_some, IdEx.outcome, he r hr, ok_bind]

theorem pseudoFromExecute_of_stop {s : State} {r : IdEx} {c : Fault} (hr : s.idEx = some r)
    (hs : r.stop s.opcodes s.dataSize = some c) : pseudoFromExecute s = .error c := by
  simp only [pseudoFromExecute, hr, pseudoExecute_some, IdEx.outcome, hs, error_bind]

/-! ## Decode (R123) -/

@[simp] theorem State.regAt_indexValue (s : State) (q : RegIndex) :
    s.regAt (indexValue q) = s.reg q := by
  simp [State.regAt, indexValue]

/-- A word of type IO stops Decode unless its opcode is LOAD's or STORE's (R123, R234). -/
theorem pseudoOperands_io {s : State} {r : IfId} (hd : decodeType s.opcodes r.instr = .io) :
    pseudoOperands r s =
      if opcodeField r.instr = opcLoad s.opcodes then
        .ok (loadOperands (fieldA r.instr) (fieldB r.instr) (imm16Field r.instr).toInt s r)
      else if opcodeField r.instr = opcStore s.opcodes then
        .ok (storeOperands (fieldA r.instr) (fieldB r.instr) (imm16Field r.instr).toInt s r)
      else .error .badIoOpcode := by
  simp [pseudoOperands, hd, decodeOperand, decodeOperand1, decodeOperand2, decodeDestination,
    loadOperands, storeOperands, immediate, sext_eq_ofInt]
  rfl

section operands
variable {s : State} (hm : s.opcodes.admissibleButIo = true) {r : IfId} {op : Op}
  (ho : opOfWord s.opcodes r.instr = some op)
include hm ho

theorem pseudoOperands_binary (ht : op.type = .binaryArithmetic) :
    pseudoOperands r s =
      .ok (binaryOperands (fieldB r.instr) (binarySource op r.instr) s r) := by
  have hd := (decodeType_of_op ho).trans ht
  have himm := isImmediateVariant_of_op hm ho (by simp [ht]) (by simp [ht])
  cases hi : op.immediate <;>
    simp [pseudoOperands, decodeOperand, decodeOperand1, decodeOperand2, hd, himm, hi, binaryOperands,
      binarySource, Source.value, immediate, sext_eq_ofInt]

theorem pseudoOperands_unary (ht : op.type = .unaryArithmetic) :
    pseudoOperands r s = .ok (unaryOperands (unarySource op r.instr) s r) := by
  have hd := (decodeType_of_op ho).trans ht
  have himm := isImmediateVariant_of_op hm ho (by simp [ht]) (by simp [ht])
  cases hi : op.immediate <;>
    simp [pseudoOperands, decodeOperand, decodeOperand1, hd, himm, hi, unaryOperands, unarySource,
      Source.value, immediate, sext_eq_ofInt]

theorem pseudoOperands_compare (ht : op.type = .compare) :
    pseudoOperands r s =
      .ok (compareOperands (fieldA r.instr) (compareSource op r.instr) s r) := by
  have hd := (decodeType_of_op ho).trans ht
  have himm := isImmediateVariant_of_op hm ho (by simp [ht]) (by simp [ht])
  cases hi : op.immediate <;>
    simp [pseudoOperands, decodeOperand, decodeOperand1, decodeOperand2, hd, himm, hi,
      compareOperands, compareSource, Source.value, immediate, sext_eq_ofInt]

theorem pseudoOperands_transfer (ht : op.type = .jump ∨ op.type = .branch) :
    pseudoOperands r s = .ok (targetOperands (transferTarget op r.instr) s r) := by
  have hd := decodeType_of_op ho
  have himm : isImmediateVariant s.opcodes r.instr = op.immediate := by
    rcases ht with ht | ht <;> exact isImmediateVariant_of_op hm ho (by simp [ht]) (by simp [ht])
  rcases ht with ht | ht <;> cases hi : op.immediate <;>
    simp [pseudoOperands, decodeOperand, decodeOperand1, hd, ht, himm, hi, targetOperands,
      transferTarget, branchImmBase, jumpRegBase, immediate, sext_eq_ofInt]

/-- Every instruction's operands are those its type's rule resolves. -/
theorem pseudoOperands_of_op : pseudoOperands r s = .ok (operandsOf (instrOf op r.instr) r s) := by
  cases op
  case add | addi | sub | subi | and | andi | or | ori | shl | shli | shra | shrai | shrl | shrli =>
    exact pseudoOperands_binary hm ho rfl
  case not | noti | mov | movi => exact pseudoOperands_unary hm ho rfl
  case ceq | ceqi | cltu | cltui | clts | cltsi | cgtu | cgtui | cgts | cgtsi =>
    exact pseudoOperands_compare hm ho rfl
  case jump | jumpi => exact pseudoOperands_transfer hm ho (.inl rfl)
  case branch | branchi => exact pseudoOperands_transfer hm ho (.inr rfl)
  case load =>
    have hload : opcodeField r.instr = opcLoad s.opcodes := (opcodeField_iff hm _).2 ho
    rw [pseudoOperands_io (decodeType_of_op ho), if_pos hload]
    rfl
  case store =>
    have hstore : opcodeField r.instr = opcStore s.opcodes := (opcodeField_iff hm _).2 ho
    have hload : opcodeField r.instr ≠ opcLoad s.opcodes := fun h => by
      rw [(opcodeField_iff hm .load).1 h] at ho; cases ho
    rw [pseudoOperands_io (decodeType_of_op ho), if_neg hload, if_pos hstore]
    rfl
  case nop | halt =>
    simp [pseudoOperands, decodeType_of_op ho, Op.type, operandsOf, instrOf, noOperands]

end operands

/-- Decode resolves the operands of every word that does not stop it (R123, R136). -/
theorem pseudoDecode_of_decodes {s : State} (hm : s.opcodes.admissibleButIo = true)
    (h : s.decodes) : pseudoDecode s.ifId s = .ok (s.ifId.map (IfId.decoded · s)) := by
  rcases Option.eq_none_or_eq_some s.ifId with hr | ⟨r, hr⟩
  · rw [hr]; rfl
  have hops : pseudoOperands r s = .ok (r.operands s) := by
    rcases word_cases s.opcodes r.instr with hu | hb | ⟨op, ho⟩
    · simp [pseudoOperands, hu, IfId.operands, opOfWord_of_unknown hu, noOperands]
    · have := h r hr
      simp [IfId.stop, hb] at this
    · rw [pseudoOperands_of_op hm ho, IfId.operands_of_op ho]
  rw [hr, pseudoDecode, hops]
  rfl

theorem pseudoFromDecode_of_decodes {s : State} (hm : s.opcodes.admissibleButIo = true)
    (h : s.decodes) : pseudoFromDecode s = pseudoFromFetch s.decoded := by
  rw [pseudoFromDecode, pseudoDecode_of_decodes hm h]
  rfl

theorem pseudoFromDecode_of_badIo {s : State} {r : IfId} (hr : s.ifId = some r)
    (hb : isBadIo s.opcodes r.instr = true) : pseudoFromDecode s = .error .badIoOpcode := by
  obtain ⟨hd, hload, hstore⟩ := isBadIo_iff.1 hb
  rw [pseudoFromDecode, hr, pseudoDecode, pseudoOperands_io hd, if_neg hload, if_neg hstore]
  rfl

/-! ## Fetch (R121) -/

theorem pseudoFromFetch_of_word {s : State} (hm : s.opcodes.admissibleButIo = true) {w : Word}
    (hw : s.code[s.pc.toNat]? = some w) : pseudoFromFetch s = .ok (s.fetched w).markDone := by
  have hhalt := isHalt_iff_opcode hm (w := w)
  rw [pseudoFromFetch, pseudoFetch, State.codeRead_ok hw, ok_bind, State.fetched]
  by_cases h : opcodeField w = opcHalt s.opcodes
  · rw [if_pos h, if_pos (hhalt.2 h)]
    rfl
  · rw [if_neg h, if_neg (mt hhalt.1 h)]
    simp only [State.pc_setPc, pure_eq_ok, ok_bind]

theorem pseudoFromFetch_out {s : State} (h : s.code.length ≤ s.pc.toNat) :
    pseudoFromFetch s = .error .fetchOutOfRange := by
  rw [pseudoFromFetch, pseudoFetch, State.codeRead_out h]
  rfl

/-! ## The cycle (R127) -/

/-- The printed cycle's answer as the answer of a step: the cursor stands at Fetch (log 1). -/
def stepAnswer : Except Fault State → Result
  | .ok t => .next (t.atStage .fetch)
  | .error c => .fault c

theorem stepAnswer_error (c : Fault) : stepAnswer (.error c) = .fault c := rfl

theorem pseudoStep_of_running {s : State} (hf : s.fatal = none) (hd : s.done = false) :
    pseudoStep s = stepAnswer (pseudoCycle s) := by
  rw [pseudoStep, hf, hd]
  rfl

section cycle
variable {s : State} (hm : s.opcodes.admissibleButIo = true)
include hm

theorem pseudoCycle_illegal (hl : ¬ s.addressLegal) :
    pseudoCycle s = .error .dataAddressOutOfRange := by
  rw [pseudoCycle_eq, pseudoWriteBack_eq hm, ok_bind, pseudoFromMemoryAccess,
    pseudoMemoryAccess_illegal (by simpa using hm) (by simpa [State.addressLegal] using hl)]
  rfl

theorem pseudoCycle_of_addressLegal (hl : s.addressLegal) :
    pseudoCycle s = pseudoFromExecute s.wroteBack.accessed := by
  rw [pseudoCycle_eq, pseudoWriteBack_eq hm, ok_bind, pseudoFromMemoryAccess,
    pseudoMemoryAccess_legal (by simpa using hm) (by simpa [State.addressLegal] using hl)]
  rfl

theorem pseudoCycle_of_executes (hl : s.addressLegal) (he : s.executes) :
    pseudoCycle s = pseudoFromDecode s.wroteBack.accessed.executed := by
  rw [pseudoCycle_of_addressLegal hm hl,
    pseudoFromExecute_of_executes (by simpa [State.executes] using he)]

theorem pseudoCycle_of_decodes (hl : s.addressLegal) (he : s.executes) (hd : s.decodes) :
    pseudoCycle s = pseudoFromFetch s.wroteBack.accessed.executed.decoded := by
  obtain ⟨ko, ki, -, -⟩ := s.wroteBack.accessed.executed_keeps
  rw [pseudoCycle_of_executes hm hl he,
    pseudoFromDecode_of_decodes (by simpa [ko] using hm) (by simpa [ko, ki, State.decodes] using hd)]

/-- The two cycles stop for the same cause or lead to the same state, the cursor aside. -/
theorem cycle_eq_pseudoCycle : cycle s = stepAnswer (pseudoCycle s) := by
  by_cases hl : s.addressLegal
  swap
  · rw [cycle_illegal s hl, pseudoCycle_illegal hm hl, stepAnswer_error]
  obtain ⟨ko, ki, kc, kp⟩ := s.wroteBack.accessed.executed_keeps
  have hpc : s.wroteBack.accessed.executed.decoded.pc = s.redirectedPc := kp.trans s.pc_decode
  have hcode : s.wroteBack.accessed.executed.decoded.code = s.code := kc.trans (by simp)
  rcases cycle_cases s hl with ⟨r, c, hr, hs, hc⟩ | ⟨he, r, hr, hb, hc⟩ | ⟨he, hd, hout, hc⟩ |
    ⟨he, hd, w, hw, hc⟩
  · rw [hc, pseudoCycle_of_addressLegal hm hl,
      pseudoFromExecute_of_stop (r := r) (by simpa using hr) (by simpa using hs),
      stepAnswer_error]
  · rw [hc, pseudoCycle_of_executes hm hl he,
      pseudoFromDecode_of_badIo (r := r) (by simpa [ki] using hr) (by simpa [ko] using hb),
      stepAnswer_error]
  · rw [hc, pseudoCycle_of_decodes hm hl he hd, pseudoFromFetch_out (by rw [hpc, hcode]; exact hout),
      stepAnswer_error]
  · rw [hc, pseudoCycle_of_decodes hm hl he hd,
      pseudoFromFetch_of_word (w := w) (by simpa [State.decoded, ko] using hm)
        (by rw [hpc, hcode]; exact hw)]
    rfl

end cycle

/-- Settles O38: the marks are looked at alike, and the cycles agree. -/
theorem stepIsTheSpecsPseudocode : Obligations.StepIsTheSpecsPseudocode := by
  unfold Obligations.StepIsTheSpecsPseudocode
  refine ⟨fun m => admissibleButIo_of_admissible, fun s hm => ?_⟩
  cases hf : s.fatal with
  | some c => simp [step, advance, pseudoStep, hf]
  | none =>
    cases hd : s.done with
    | true => simp [step, advance, pseudoStep, hf, hd]
    | false => rw [step_of_running hf hd, pseudoStep_of_running hf hd, cycle_eq_pseudoCycle hm]

end Sys2Proof.Machine
end

section
/-! PROOF of O8. The decoder's field functions and their contract (spec/40_decoder.md R84, R86 to R92),
and the causes a cycle can stop for, under every opcode map (spec/60_exceptions.md R231). -/

namespace Sys2Proof.Machine

/-! ## The contract (R92) -/

section contract
variable (m : OpcodeMap) (w : Word)

theorem decodeOperand1_error_iff :
    decodeOperand1 m w = .error .decoderContract ↔
      decodeType m w = .misc ∨ decodeType m w = .unknown := by
  unfold decodeOperand1
  cases decodeType m w <;> simp

theorem decodeOperand2_error_iff :
    decodeOperand2 m w = .error .decoderContract ↔
      ¬ (decodeType m w = .binaryArithmetic ∨ decodeType m w = .compare ∨ decodeType m w = .io) := by
  unfold decodeOperand2
  cases decodeType m w <;> simp

theorem decodeDestination_error_iff :
    decodeDestination m w = .error .decoderContract ↔
      ¬ (decodeType m w = .binaryArithmetic ∨ decodeType m w = .unaryArithmetic ∨
        decodeType m w = .io) := by
  unfold decodeDestination
  cases decodeType m w <;> simp

/-- No type has an operand besides the two. -/
theorem decodeOperand_of_ne {n : Nat} (h1 : n ≠ 1) (h2 : n ≠ 2) :
    decodeOperand m n w = .error .decoderContract := by
  unfold decodeOperand
  split
  · exact absurd rfl h1
  · exact absurd rfl h2
  · rfl

theorem decodeOperand_error_iff (n : Nat) :
    decodeOperand m n w = .error .decoderContract ↔
      ¬ ((n = 1 ∧ decodeType m w ≠ .misc ∧ decodeType m w ≠ .unknown) ∨
        (n = 2 ∧ (decodeType m w = .binaryArithmetic ∨ decodeType m w = .compare ∨
          decodeType m w = .io))) := by
  by_cases h1 : n = 1
  · subst h1
    simp only [decodeOperand, decodeOperand1_error_iff]
    tauto
  by_cases h2 : n = 2
  · subst h2
    simp only [decodeOperand, decodeOperand2_error_iff]
    tauto
  · simp only [decodeOperand_of_ne m w h1 h2, h1, h2]
    tauto

end contract

/-! ## The causes of a cycle's stop (R231, R232) -/

/-- The four causes that a program can bring about: R232 without the contract violations of R231. -/
def Fault.CycleCause (c : Fault) : Prop :=
  c = .fetchOutOfRange ∨ c = .badIoOpcode ∨ c = .unknownInstruction ∨ c = .dataAddressOutOfRange

theorem Fault.CycleCause.ne_decoderContract {c : Fault} (h : c.CycleCause) : c ≠ .decoderContract := by
  rintro rfl
  simp [Fault.CycleCause] at h

/-- Every stop of `x` is for one of the four causes. -/
def StopsForCause {α : Type} (x : Except Fault α) : Prop := ∀ c, x = .error c → c.CycleCause

section stopsForCause
variable {α β : Type}

theorem stopsForCause_ok (a : α) : StopsForCause (.ok a) := nofun

theorem stopsForCause_error {c : Fault} (h : c.CycleCause) :
    StopsForCause (.error c : Except Fault α) := by
  rintro _ ⟨⟩
  exact h

theorem StopsForCause.bind {x : Except Fault α} {f : α → Except Fault β} (hx : StopsForCause x)
    (hf : ∀ a, StopsForCause (f a)) : StopsForCause (x >>= f) := by
  cases x with
  | ok a => exact hf a
  | error c => exact stopsForCause_error (hx c rfl)

end stopsForCause

section stages
variable (s : State)

theorem stopsForCause_codeRead (i : Word) : StopsForCause (s.codeRead i) := by
  rcases s.codeRead_cases i with ⟨w, -, h⟩ | ⟨-, h⟩ <;> rw [h]
  · exact stopsForCause_ok w
  · exact stopsForCause_error (.inl rfl)

theorem stopsForCause_memRead (a : Word) : StopsForCause (s.memRead a) := by
  unfold State.memRead
  split
  · exact stopsForCause_ok _
  · exact stopsForCause_error (.inr (.inr (.inr rfl)))

theorem stopsForCause_memWrite (a v : Word) : StopsForCause (s.memWrite a v) := by
  unfold State.memWrite
  split
  · exact stopsForCause_ok _
  · exact stopsForCause_error (.inr (.inr (.inr rfl)))

/-- Write-Back asks for the destination of the two arithmetic types only (R126). -/
theorem stopsForCause_pseudoWriteBack (input : Option MemWb) :
    StopsForCause (pseudoWriteBack input s) := by
  cases input with
  | none => exact stopsForCause_ok s
  | some r =>
    simp only [pseudoWriteBack]
    split
    case isTrue ht =>
      have hd : decodeDestination s.opcodes r.instr = .ok (fieldA r.instr) := by
        rcases ht with ht | ht <;> rw [decodeDestination, ht]
      rw [hd]
      exact stopsForCause_ok _
    case isFalse => split <;> exact stopsForCause_ok _

theorem stopsForCause_pseudoMemoryAccess (input : Option ExMem) :
    StopsForCause (pseudoMemoryAccess input s) := by
  cases input with
  | none => exact stopsForCause_ok _
  | some r =>
    simp only [pseudoMemoryAccess]
    split
    · exact (stopsForCause_memRead s _).bind fun _ => stopsForCause_ok _
    split
    · exact (stopsForCause_memWrite s _ _).bind fun _ => stopsForCause_ok _
    split <;> exact stopsForCause_ok _

theorem stopsForCause_pseudoExecute (input : Option IdEx) :
    StopsForCause (pseudoExecute input s) := by
  cases input with
  | none => exact stopsForCause_ok _
  | some r =>
    rw [pseudoExecute_some, IdEx.outcome]
    split
    case h_1 c hs => exact stopsForCause_error (.inr (.inr (IdEx.stop_some hs)))
    case h_2 => exact stopsForCause_ok _

/-- Decode asks for the operands that the type has, and for the destination of type IO (R123). -/
theorem stopsForCause_pseudoOperands (r : IfId) : StopsForCause (pseudoOperands r s) := by
  cases ht : decodeType s.opcodes r.instr
  case io =>
    rw [pseudoOperands_io ht]
    split
    · exact stopsForCause_ok _
    split
    · exact stopsForCause_ok _
    · exact stopsForCause_error (.inr (.inl rfl))
  all_goals
    simp only [pseudoOperands, ht, decodeOperand, decodeOperand1, decodeOperand2, ok_bind, pure_eq_ok]
    exact stopsForCause_ok _

theorem stopsForCause_pseudoDecode (input : Option IfId) : StopsForCause (pseudoDecode input s) := by
  cases input with
  | none => exact stopsForCause_ok _
  | some r => exact (stopsForCause_pseudoOperands s r).bind fun _ => stopsForCause_ok _

theorem stopsForCause_pseudoFetch : StopsForCause (pseudoFetch s) := by
  refine (stopsForCause_codeRead s s.pc).bind fun w => ?_
  split <;> exact stopsForCause_ok _

/-- The printed cycle is its five stages in sequence (R127). -/
theorem stopsForCause_pseudoCycle : StopsForCause (pseudoCycle s) :=
  (stopsForCause_pseudoWriteBack s s.memWb).bind fun s =>
  (stopsForCause_pseudoMemoryAccess s s.exMem).bind fun (_, s) =>
  (stopsForCause_pseudoExecute _ s.idEx).bind fun (_, s) =>
  (stopsForCause_pseudoDecode _ s.ifId).bind fun _ =>
  (stopsForCause_pseudoFetch _).bind fun _ => stopsForCause_ok _

end stages

/-- The model's cycle stops for the same four causes. -/
theorem cycleCause_of_cycle {s : State} {c : Fault} (h : cycle s = .fault c) : c.CycleCause := by
  by_cases hl : s.addressLegal
  swap
  · rw [cycle_illegal s hl] at h
    cases h
    exact .inr (.inr (.inr rfl))
  rcases cycle_cases s hl with ⟨r, c', -, hs, hc⟩ | ⟨-, r, -, -, hc⟩ | ⟨-, -, -, hc⟩ | ⟨-, -, w, -, hc⟩ <;>
    rw [h] at hc <;> cases hc
  · exact .inr (.inr (IdEx.stop_some hs))
  · exact .inr (.inl rfl)
  · exact .inl rfl

/-- Settles O8: the contract is read off the types, and both cycles stop for other causes only. -/
theorem decoderContract : Obligations.DecoderContract := by
  unfold Obligations.DecoderContract
  refine ⟨fun m n w => decodeOperand_error_iff m w n, decodeDestination_error_iff, fun s => ⟨?_, ?_⟩⟩
  · exact fun h => (stopsForCause_pseudoCycle s _ h).ne_decoderContract rfl
  · exact fun h => (cycleCause_of_cycle h).ne_decoderContract rfl

end Sys2Proof.Machine
end

section
/-! PROOF of O5, O7. Sign extension (spec/40_decoder.md R85) and the operand fields by shifts and masks
(R86 to R91). -/

namespace Sys2Proof

/-! ## Sign extension (R85) -/

section sext
variable {n : Nat} (v : BitVec n)

/-- `sext_N` is the library's sign extension. -/
theorem sext_eq_signExtend : sext n v = v.signExtend 32 := sext_eq_ofInt v

theorem getLsbD_sext_low {j : Nat} (hj : j < n) (hn : n ≤ 32) :
    (sext n v).getLsbD j = v.getLsbD j := by
  rw [sext_eq_signExtend, BitVec.getLsbD_signExtend, if_pos hj, decide_eq_true (by omega),
    Bool.true_and]

theorem getLsbD_sext_high {j : Nat} (hj : n ≤ j) (h32 : j < 32) :
    (sext n v).getLsbD j = v.getLsbD (n - 1) := by
  rw [sext_eq_signExtend, BitVec.getLsbD_signExtend, if_neg (by omega), decide_eq_true h32,
    Bool.true_and, BitVec.msb_eq_getLsbD_last]

/-- The value of an extended field: a set top bit adds all the bits above the field. -/
theorem toNat_sext (hn : n ≤ 32) :
    (sext n v).toNat = if v.toNat < 2 ^ (n - 1) then v.toNat else v.toNat + 2 ^ 32 - 2 ^ n := by
  have hpow : 2 ^ n ≤ 2 ^ 32 := Nat.pow_le_pow_right (by decide) hn
  rw [sext_eq_signExtend, BitVec.toNat_signExtend, BitVec.toNat_setWidth_of_le hn,
    BitVec.msb_eq_decide]
  by_cases hlt : v.toNat < 2 ^ (n - 1)
  · rw [if_pos hlt, if_neg (by simpa using hlt), Nat.add_zero]
  · rw [if_neg hlt, if_pos (by simpa using hlt), Nat.add_sub_assoc hpow]

/-- The field is found again at the bottom of its extension. -/
theorem extractLsb'_sext (hn : n ≤ 32) : (sext n v).extractLsb' 0 n = v := by
  apply BitVec.eq_of_getLsbD_eq
  intro j hj
  rw [BitVec.getLsbD_extractLsb', decide_eq_true hj, Bool.true_and, Nat.zero_add,
    getLsbD_sext_low v hj hn]

end sext

/-- Settles O5: `sext` by its definition, its bits, its value, and the field it is made of. -/
theorem signExtension : Obligations.SignExtension := by
  unfold Obligations.SignExtension
  intro n h v
  have hn : n ≤ 32 := by omega
  refine ⟨?_, fun j hj => getLsbD_sext_low v hj hn, fun j => getLsbD_sext_high v, toNat_sext v hn, ?_⟩
  · rw [sext, BitVec.msb_eq_getLsbD_last]
  · rw [extractLsb'_sext v hn]

/-! ## The operand fields (R86 to R91) -/

/-- A register index is its word shifted and masked with five ones. -/
theorem indexValue_eq_and (w : Word) (k : Nat) :
    Machine.indexValue (w.extractLsb' k 5) = (w >>> k) &&& 0x1F#32 := by
  refine eq_and_ones 5 fun i hi => ?_
  rw [Machine.indexValue, BitVec.getLsbD_setWidth, BitVec.getLsbD_extractLsb', BitVec.getLsbD_ushiftRight,
    decide_eq_true hi, Bool.true_and]

theorem indexValue_fieldA (w : Word) : Machine.indexValue (fieldA w) = (w >>> 6) &&& 0x1F#32 :=
  indexValue_eq_and w 6

theorem indexValue_fieldB (w : Word) : Machine.indexValue (fieldB w) = (w >>> 11) &&& 0x1F#32 :=
  indexValue_eq_and w 11

theorem indexValue_fieldC (w : Word) : Machine.indexValue (fieldC w) = (w >>> 16) &&& 0x1F#32 :=
  indexValue_eq_and w 16

/-- The sign extension of the field at the top of a word is the word shifted right arithmetically. -/
theorem sext_top_field (w : Word) {k n : Nat} (h : k + n = 32) (hn : 0 < n) :
    sext n (w.extractLsb' k n) = w.sshiftRight k := by
  rw [sext_eq_signExtend, signExtend_top_field w h hn]

theorem sext_imm16Field (w : Word) : sext 16 (imm16Field w) = w.sshiftRight 16 :=
  sext_top_field w (by decide) (by decide)

theorem sext_imm21Field (w : Word) : sext 21 (imm21Field w) = w.sshiftRight 11 :=
  sext_top_field w (by decide) (by decide)

theorem sext_imm26Field (w : Word) : sext 26 (imm26Field w) = w.sshiftRight 6 :=
  sext_top_field w (by decide) (by decide)

end Sys2Proof

namespace Sys2Proof.Machine

/-- Settles O7: type by type, the fields are shifts and masks of the word. -/
theorem decoderOperandFields : Obligations.DecoderOperandFields := by
  unfold Obligations.DecoderOperandFields
  intro m w
  refine ⟨fun ht => ?binary, fun ht => ?unary, fun ht => ?compare, fun ht => ?transfer,
    fun ht => ?io, fun ht n => ?noOperand⟩
  case noOperand =>
    rw [decodeOperand_error_iff]
    rcases ht with ht | ht <;> simp [ht]
  case transfer =>
    rcases ht with ht | ht <;>
      simp only [decodeOperand, decodeOperand1, decodeOperand2, ht, indexValue_fieldA,
        sext_imm26Field, and_self]
  case binary | unary | compare | io =>
    simp only [decodeOperand, decodeOperand1, decodeOperand2, ht, indexValue_fieldA, indexValue_fieldB,
      indexValue_fieldC, sext_imm16Field, sext_imm21Field, and_self]

end Sys2Proof.Machine
end

section
/-! PROOF of O9. The ALU's dispatch tables (spec/41_alu_dispatch.md R100, R101) and what they hold at
the opcode of a word. -/

namespace Sys2Proof.Machine

/-! ## The functions of an operation -/

/-- Every binary operation has a function (R102 to R109). -/
theorem binaryFunction_of_type {op : Op} (h : op.type = .binaryArithmetic) :
    ∃ f, binaryFunction op = some f := by
  cases op
  case add | addi | sub | subi | and | andi | or | ori | shl | shli | shra | shrai | shrl | shrli =>
    exact ⟨_, rfl⟩
  all_goals cases h

/-- So has every unary operation (R110, R111). -/
theorem unaryFunction_of_type {op : Op} (h : op.type = .unaryArithmetic) :
    ∃ f, unaryFunction op = some f := by
  cases op
  case not | noti | mov | movi => exact ⟨_, rfl⟩
  all_goals cases h

/-! ## Slots and lookups -/

section tables
variable {α : Type} (m : OpcodeMap) (f : Op → Option α)

/-- A slot that no 6-bit opcode indexes is empty (R100). -/
theorem tableSlot_of_ge {k : Fin Config.aluTableSlots} (hk : 64 ≤ k.val) : tableSlot m f k = none :=
  if_neg (Nat.not_lt.2 hk)

/-- The slot that an opcode indexes holds the function of the operation it is mapped to. -/
theorem tableLookup_ok_iff (c : Opcode) (g : α) :
    tableLookup m f c = .ok g ↔ ∃ op, m.opOf c = some op ∧ f op = some g := by
  have hslot : tableSlot m f ⟨c.toNat, Nat.lt_of_lt_of_le c.isLt (by decide)⟩ = (m.opOf c).bind f := by
    refine (if_pos c.isLt).trans ?_
    rw [BitVec.ofNat_toNat, BitVec.setWidth_eq]
  rw [tableLookup, hslot, ← Option.bind_eq_some_iff]
  cases (m.opOf c).bind f <;> simp

/-- The type of a word is that of the operation its opcode is mapped to (R80). -/
theorem decodeType_eq_iff (w : Word) {ty : InstrType} (hty : ty ≠ .unknown) :
    decodeType m w = ty ↔ ∃ op, m.opOf (opcodeField w) = some op ∧ op.type = ty := by
  unfold decodeType
  cases m.opOf (opcodeField w) <;> simp [hty.symm]

/-- A table of functions for the operations of one type is populated at the words of that type. -/
theorem tableLookup_populated_iff {ty : InstrType} (hty : ty ≠ .unknown)
    (hnone : ∀ {op : Op}, op.type ≠ ty → f op = none)
    (hsome : ∀ {op : Op}, op.type = ty → ∃ g, f op = some g) (w : Word) :
    (∃ g, tableLookup m f (opcodeField w) = .ok g) ↔ decodeType m w = ty := by
  rw [decodeType_eq_iff m w hty]
  constructor
  · rintro ⟨g, hg⟩
    obtain ⟨op, ho, hf⟩ := (tableLookup_ok_iff m f _ g).1 hg
    refine ⟨op, ho, ?_⟩
    by_contra hne
    rw [hnone hne] at hf
    cases hf
  · rintro ⟨op, ho, ht⟩
    obtain ⟨g, hg⟩ := hsome ht
    exact ⟨g, (tableLookup_ok_iff m f _ g).2 ⟨op, ho, hg⟩⟩

end tables

/-- The two forms of an operation share their function (R101). -/
theorem functions_of_pair {p : Op × Op} (hp : p ∈ Op.pairs) :
    binaryFunction p.1 = binaryFunction p.2 ∧ unaryFunction p.1 = unaryFunction p.2 ∧
      comparePredicate p.1 = comparePredicate p.2 := by
  simp only [Op.pairs, List.mem_cons, List.not_mem_nil, or_false] at hp
  rcases hp with rfl | rfl | rfl | rfl | rfl | rfl | rfl | rfl | rfl | rfl | rfl | rfl | rfl | rfl |
    rfl | rfl <;> exact ⟨rfl, rfl, rfl⟩

theorem Fault.CycleCause.ne_aluSlotEmpty {c : Fault} (h : c.CycleCause) : c ≠ .aluSlotEmpty := by
  rintro rfl
  simp [Fault.CycleCause] at h

/-- Settles O9: each table is populated by type, and both cycles stop for other causes only. -/
theorem aluTablesFollowTypes : Obligations.AluTablesFollowTypes := by
  unfold Obligations.AluTablesFollowTypes
  refine ⟨fun m w => ⟨?_, ?_, ?_⟩, fun p => functions_of_pair, fun m k hk =>
    ⟨tableSlot_of_ge m _ hk, tableSlot_of_ge m _ hk, tableSlot_of_ge m _ hk⟩, fun s => ⟨?_, ?_⟩⟩
  · exact tableLookup_populated_iff m _ (by decide) binaryFunction_none binaryFunction_of_type w
  · exact tableLookup_populated_iff m _ (by decide) unaryFunction_none unaryFunction_of_type w
  · exact tableLookup_populated_iff m _ (by decide) comparePredicate_none comparePredicate_of_type w
  · exact fun h => (stopsForCause_pseudoCycle s _ h).ne_aluSlotEmpty rfl
  · exact fun h => (cycleCause_of_cycle h).ne_aluSlotEmpty rfl

end Sys2Proof.Machine
end

section
/-! PROOF of O10, O11, O12, O13 and O14. The ALU's functions and predicates
(spec/41_alu_dispatch.md R102 to R118). -/

namespace Sys2Proof.Machine

/-! ## Addition and subtraction (R102, R103) -/

theorem aluAdd_comm (a b : Word) : aluAdd a b = aluAdd b a := BitVec.add_comm a b

theorem aluSub_aluAdd_cancel (a b : Word) : aluSub (aluAdd a b) b = a := BitVec.add_sub_cancel a b

theorem toNat_aluSub (a b : Word) :
    ((aluSub a b).toNat : Int) = ((a.toNat : Int) - b.toNat) % 2 ^ 32 := by
  rw [aluSub, BitVec.toNat_sub']
  omega

/-- No stage of a binary instruction changes the flag. -/
theorem flag_of_exec_binary {i : Instr} {s t : State} (ht : i.op.type = .binaryArithmetic)
    (h : exec i s = .next t) : t.flag = s.flag :=
  (arithmeticFrame i (.inl ht) s t h).flag not_false

/-- Settles O10: the library's sum and difference wrap, and the frame of the binary instructions leaves
out the flag. -/
theorem addSubWrap : Obligations.AddSubWrap := by
  unfold Obligations.AddSubWrap
  refine ⟨fun a b => ⟨BitVec.toNat_add a b, aluAdd_comm a b, BitVec.toInt_add a b⟩,
    fun a b => ⟨BitVec.toInt_sub, toNat_aluSub a b, aluSub_aluAdd_cancel a b⟩, rfl, rfl, ?_⟩
  intro i s t hi
  refine flag_of_exec_binary ?_
  rcases hi with hi | hi | hi | hi <;> rw [hi] <;> rfl

/-! ## Bitwise functions (R104, R105, R110) -/

theorem getLsbD_aluNot (a : Word) {j : Nat} (hj : j < 32) : (aluNot a).getLsbD j = !a.getLsbD j := by
  rw [aluNot, BitVec.getLsbD_not, decide_eq_true hj, Bool.true_and]

/-- Settles O11: the library's bitwise operations, bit by bit. -/
theorem bitwiseFunctions : Obligations.BitwiseFunctions := by
  unfold Obligations.BitwiseFunctions
  refine ⟨fun a b j hj => ⟨BitVec.getLsbD_and, BitVec.getLsbD_or, getLsbD_aluNot a hj⟩,
    fun a => ⟨?_, BitVec.not_not, rfl⟩, rfl⟩
  exact (BitVec.allOnes_sub_eq_not a).symm

/-! ## Shifts (R106 to R109) -/

/-- Both amounts are less than the width. -/
theorem shiftAmount_lt (b : Word) : shiftAmount b < 32 := by
  unfold shiftAmount
  split <;> decide

/-- Sign extension sends only the zero literal to zero, so it does not change what is selected. -/
theorem sext_eq_zero_iff (v : BitVec 16) : sext 16 v = 0 ↔ v = 0 := by
  refine ⟨fun h => ?_, fun h => h ▸ rfl⟩
  rw [← extractLsb'_sext v (by decide), h]
  rfl

theorem shiftAmount_sext (v : BitVec 16) : shiftAmount (sext 16 v) = if v = 0 then 1 else 8 := by
  simp only [shiftAmount, sext_eq_zero_iff]

section shifts
variable (a b : Word)

theorem toNat_aluShl : (aluShl a b).toNat = (a.toNat * 2 ^ shiftAmount b) % 2 ^ 32 := by
  rw [aluShl, BitVec.toNat_shiftLeft, Nat.shiftLeft_eq]

theorem getLsbD_aluShl_vacated {j : Nat} (hj : j < shiftAmount b) : (aluShl a b).getLsbD j = false := by
  simp [aluShl, BitVec.getLsbD_shiftLeft, hj]

theorem getLsbD_aluShra {j : Nat} (hj : j < 32) : (aluShra a b).getLsbD j =
    if shiftAmount b + j < 32 then a.getLsbD (shiftAmount b + j) else a.getLsbD 31 := by
  rw [aluShra, BitVec.getLsbD_sshiftRight, decide_eq_false (Nat.not_le.2 hj), Bool.not_false,
    Bool.true_and, BitVec.msb_eq_getLsbD_last]

/-- Below the vacated bits the two right shifts agree, and in them the one has the top bit and the
other zeros. -/
theorem aluShra_eq_or : aluShra a b = (a >>> shiftAmount b) |||
    (if a.getLsbD 31 then 0xFFFFFFFF#32 <<< (32 - shiftAmount b) else 0) := by
  refine BitVec.eq_of_getLsbD_eq fun j hj => ?_
  have hn := shiftAmount_lt b
  rw [getLsbD_aluShra a b hj, BitVec.getLsbD_or, BitVec.getLsbD_ushiftRight]
  have hfill : (if a.getLsbD 31 then 0xFFFFFFFF#32 <<< (32 - shiftAmount b) else 0).getLsbD j =
      (a.getLsbD 31 && decide (32 ≤ shiftAmount b + j)) := by
    cases a.getLsbD 31 with
    | false => simp
    | true =>
      have hones : (0xFFFFFFFF#32).getLsbD (j - (32 - shiftAmount b)) = true :=
        (BitVec.getLsbD_allOnes (v := 32)).trans (decide_eq_true (by omega))
      rw [if_pos rfl, BitVec.getLsbD_shiftLeft, hones, decide_eq_true hj, Bool.true_and, Bool.true_and,
        Bool.and_true, ← decide_not]
      exact decide_eq_decide.2 (by omega)
  rw [hfill]
  by_cases hlow : shiftAmount b + j < 32
  · rw [if_pos hlow, decide_eq_false (Nat.not_le.2 hlow), Bool.and_false, Bool.or_false]
  · rw [if_neg hlow, BitVec.getLsbD_of_ge _ _ (Nat.not_lt.1 hlow), Bool.false_or,
      decide_eq_true (Nat.not_lt.1 hlow), Bool.and_true]

theorem toInt_aluShra : (aluShra a b).toInt = a.toInt / 2 ^ shiftAmount b := by
  rw [aluShra, BitVec.toInt_sshiftRight, Int.shiftRight_eq_div_pow, Nat.cast_pow, Nat.cast_ofNat]

theorem msb_aluShra : (aluShra a b).msb = a.msb := BitVec.msb_sshiftRight

theorem toNat_aluShrl : (aluShrl a b).toNat = a.toNat / 2 ^ shiftAmount b := by
  rw [aluShrl, BitVec.toNat_ushiftRight, Nat.shiftRight_eq_div_pow]

theorem getLsbD_aluShrl_vacated {j : Nat} (hj : 32 - shiftAmount b ≤ j) :
    (aluShrl a b).getLsbD j = false := by
  rw [aluShrl, BitVec.getLsbD_ushiftRight, BitVec.getLsbD_of_ge]
  omega

theorem toNat_aluShrl_lt : (aluShrl a b).toNat < 2 ^ (32 - shiftAmount b) :=
  BitVec.toNat_ushiftRight_lt a _ (shiftAmount_lt b).le

end shifts

/-- An arithmetic right shift leaves the word of all ones alone. -/
theorem aluShra_allOnes (b : Word) : aluShra 0xFFFFFFFF b = 0xFFFFFFFF := by
  have hnot : ~~~(0xFFFFFFFF : Word) = 0#32 := rfl
  rw [aluShra, BitVec.sshiftRight_eq_of_msb_true rfl, hnot, BitVec.zero_ushiftRight]
  rfl

/-- Settles O12: each shift by its value, its vacated bits and its examples. -/
theorem shiftFunctions : Obligations.ShiftFunctions := by
  unfold Obligations.ShiftFunctions
  refine ⟨fun _ => rfl, shiftAmount_sext, fun a b => ?left, fun a b => ?arithmetic, aluShra_allOnes,
    rfl, rfl, fun a b => ?logical, rfl, rfl⟩
  case left => exact ⟨toNat_aluShl a b, fun _ => getLsbD_aluShl_vacated a b, rfl, rfl⟩
  case arithmetic =>
    refine ⟨aluShra_eq_or a b, toInt_aluShra a b, ?_⟩
    have h := msb_aluShra a b
    rwa [BitVec.msb_eq_getLsbD_last, BitVec.msb_eq_getLsbD_last] at h
  case logical => exact ⟨toNat_aluShrl a b, fun _ hj _ => getLsbD_aluShrl_vacated a b hj⟩

/-! ## The functions there are (R118) -/

theorem binaryFunction_mem {op : Op} {f : Word → Word → Word} (h : binaryFunction op = some f) :
    f = aluAdd ∨ f = aluSub ∨ f = aluAnd ∨ f = aluOr ∨ f = aluShl ∨ f = aluShra ∨ f = aluShrl := by
  unfold binaryFunction at h
  split at h <;> cases h <;> simp

theorem unaryFunction_mem {op : Op} {f : Word → Word} (h : unaryFunction op = some f) :
    f = aluNot ∨ f = aluMove := by
  unfold unaryFunction at h
  split at h <;> cases h <;> simp

/-- Settles O13: the laws of sums and shifts, and the entries of the two tables. -/
theorem aluLaws : Obligations.AluLaws := by
  unfold Obligations.AluLaws
  exact ⟨fun a b => ⟨aluAdd_comm a b, aluSub_aluAdd_cancel a b, rfl, rfl, msb_aluShra a b,
    toNat_aluShrl_lt a b⟩, fun _ _ => binaryFunction_mem, fun _ _ => unaryFunction_mem⟩

/-! ## Predicates (R112 to R116) -/

section predicates
variable (a b : Word)

theorem cmpEq_iff_bits : cmpEq a b = true ↔ ∀ j, j < 32 → a.getLsbD j = b.getLsbD j := by
  rw [cmpEq, decide_eq_true_eq, BitVec.eq_of_getLsbD_eq_iff]

theorem cmpLtu_iff : cmpLtu a b = true ↔ a.toNat < b.toNat := decide_eq_true_iff

theorem cmpLts_iff : cmpLts a b = true ↔ a.toInt < b.toInt := decide_eq_true_iff

theorem cmpGtu_eq_cmpLtu : cmpGtu a b = cmpLtu b a := rfl

theorem cmpGts_eq_cmpLts : cmpGts a b = cmpLts b a := rfl

theorem cmpLtu_self : cmpLtu a a = false := decide_eq_false (Nat.lt_irrefl _)

theorem cmpLtu_zero : cmpLtu a 0 = false := decide_eq_false (Nat.not_lt_zero _)

theorem cmpGtu_zero_iff : cmpGtu a 0 = true ↔ a ≠ 0 := by
  rw [cmpGtu_eq_cmpLtu, cmpLtu_iff]
  exact (BitVec.toNat_pos a).trans (BitVec.pos_iff_ne_zero a)

/-- The two's complement reading (R8). -/
theorem toInt_eq_ite :
    a.toInt = if a.toNat < 2 ^ 31 then (a.toNat : Int) else (a.toNat : Int) - 2 ^ 32 := by
  rw [BitVec.toInt_eq_toNat_cond]
  split <;> split <;> omega

end predicates

/-- Settles O14: each predicate by the reading of its operands, and its examples. -/
theorem comparePredicates : Obligations.ComparePredicates := by
  unfold Obligations.ComparePredicates
  exact ⟨fun a b => ⟨cmpEq_iff_bits a b, cmpLtu_iff a b, cmpLts_iff a b, cmpLtu_iff b a, cmpLts_iff b a,
    cmpGtu_eq_cmpLtu a b, cmpGts_eq_cmpLts a b, cmpLtu_self a, cmpLtu_zero a, cmpGtu_zero_iff a⟩,
    toInt_eq_ite, rfl, rfl, rfl, rfl⟩

end Sys2Proof.Machine
end

section
/-! PROOF of O15 and O23. What a meaning can do in one stage: its family's template names the shared
operation of each stage, so Fetch is the same for all but HALT, and every later stage maps an absent
input to an absent output (spec/42_pipeline.md R120, R121). -/

namespace Sys2Proof.Machine

/-! ## The families of meanings -/

/-- The instruction's meaning is that of one of the eight families, or HALT's. -/
inductive InstrKind (i : Instr) : Prop
  | binary (f : Word → Word → Word) (rd rs1 : RegIndex) (src : Source)
      (he : ∀ s, exec i s = binaryInstr f rd rs1 src s)
  | unary (f : Word → Word) (rd : RegIndex) (src : Source) (he : ∀ s, exec i s = unaryInstr f rd src s)
  | compare (p : Word → Word → Bool) (rs1 : RegIndex) (src : Source)
      (he : ∀ s, exec i s = compareInstr p rs1 src s)
  | jump (t : Target) (he : ∀ s, exec i s = jumpInstr t s)
  | branch (t : Target) (he : ∀ s, exec i s = branchInstr t s)
  | load (rd rb : RegIndex) (off : Int) (he : ∀ s, exec i s = execLoad rd rb off s)
  | store (rv rb : RegIndex) (off : Int) (he : ∀ s, exec i s = execStore rv rb off s)
  | nop (he : ∀ s, exec i s = execNop s)
  | halt (h : i = .halt)

theorem instrKind (i : Instr) : InstrKind i := by
  cases i
  case halt => exact .halt rfl
  case nop => exact .nop fun _ => rfl
  case load => exact .load _ _ _ fun _ => rfl
  case store => exact .store _ _ _ fun _ => rfl
  case jump | jumpi => exact .jump _ fun _ => rfl
  case branch | branchi => exact .branch _ fun _ => rfl
  case not | noti | mov | movi => exact .unary _ _ _ fun _ => rfl
  case ceq | ceqi | cltu | cltui | clts | cltsi | cgtu | cgtui | cgts | cgtsi =>
    exact .compare _ _ _ fun _ => rfl
  all_goals exact .binary _ _ _ _ fun _ => rfl

/-! ## Stage by stage -/

section stages
variable {s : State}

/-- Every instruction but HALT is fetched alike (R121). -/
theorem exec_fetch {i : Instr} (hi : i ≠ .halt) (hs : s.stage = .fetch) :
    exec i s = fetchAdvance s := by
  cases instrKind i with
  | binary f rd rs1 src he => rw [he, binaryInstr, hs]
  | unary f rd src he => rw [he, unaryInstr, hs]
  | compare p rs1 src he => rw [he, compareInstr, hs]
  | jump t he => rw [he, jumpInstr, hs]
  | branch t he => rw [he, branchInstr, hs]
  | load rd rb off he => rw [he, execLoad, hs]
  | store rv rb off he => rw [he, execStore, hs]
  | nop he => rw [he, execNop, hs]
  | halt h => exact absurd h hi

theorem exec_halt_fetch (hs : s.stage = .fetch) : exec .halt s = fetchHold s := by
  rw [exec, execHalt, hs]

theorem fetchHold_out (h : s.code.length ≤ s.pc.toNat) :
    fetchHold s = .fault .fetchOutOfRange := by
  simp [fetchHold, State.codeRead_out h]

/-- Decode resolves operands and writes nothing else (R122). -/
theorem exec_decode (i : Instr) (hs : s.stage = .decode) : ∃ f, exec i s = decodeTo f s := by
  cases instrKind i with
  | binary f rd rs1 src he => exact ⟨_, by rw [he, binaryInstr, hs]⟩
  | unary f rd src he => exact ⟨_, by rw [he, unaryInstr, hs]⟩
  | compare p rs1 src he => exact ⟨_, by rw [he, compareInstr, hs]⟩
  | jump t he => exact ⟨_, by rw [he, jumpInstr, hs]⟩
  | branch t he => exact ⟨_, by rw [he, branchInstr, hs]⟩
  | load rd rb off he => exact ⟨_, by rw [he, execLoad, hs]⟩
  | store rv rb off he => exact ⟨_, by rw [he, execStore, hs]⟩
  | nop he => exact ⟨_, by rw [he, execNop, hs]⟩
  | halt h => exact ⟨_, by rw [h, exec, execHalt, hs]⟩

/-- Execute computes a result, the flag or an address (R124). -/
theorem exec_execute (i : Instr) (hs : s.stage = .execute) :
    (∃ taken f, exec i s = executeTo taken f s) ∨ (∃ p, exec i s = executeFlag p s) ∨
      exec i s = executeAddress s := by
  cases instrKind i with
  | binary f rd rs1 src he => exact .inl ⟨_, _, by rw [he, binaryInstr, hs]⟩
  | unary f rd src he => exact .inl ⟨_, _, by rw [he, unaryInstr, hs]⟩
  | compare p rs1 src he => exact .inr (.inl ⟨_, by rw [he, compareInstr, hs]⟩)
  | jump t he => exact .inl ⟨_, _, by rw [he, jumpInstr, hs]⟩
  | branch t he => exact .inl ⟨_, _, by rw [he, branchInstr, hs]⟩
  | load rd rb off he => exact .inr (.inr (by rw [he, execLoad, hs]))
  | store rv rb off he => exact .inr (.inr (by rw [he, execStore, hs]))
  | nop he => exact .inl ⟨_, _, by rw [he, execNop, hs]⟩
  | halt h => exact .inl ⟨_, _, by rw [h, exec, execHalt, hs]⟩

/-- Memory-Access passes, reads, writes or redirects (R125). -/
theorem exec_memoryAccess (i : Instr) (hs : s.stage = .memoryAccess) :
    exec i s = memoryPass s ∨ exec i s = memoryLoad s ∨ exec i s = memoryStore s ∨
      ∃ taken, exec i s = memoryRedirect taken s := by
  cases instrKind i with
  | binary f rd rs1 src he => exact .inl (by rw [he, binaryInstr, hs])
  | unary f rd src he => exact .inl (by rw [he, unaryInstr, hs])
  | compare p rs1 src he => exact .inl (by rw [he, compareInstr, hs])
  | jump t he => exact .inr (.inr (.inr ⟨_, by rw [he, jumpInstr, hs]⟩))
  | branch t he => exact .inr (.inr (.inr ⟨_, by rw [he, branchInstr, hs]⟩))
  | load rd rb off he => exact .inr (.inl (by rw [he, execLoad, hs]))
  | store rv rb off he => exact .inr (.inr (.inl (by rw [he, execStore, hs])))
  | nop he => exact .inl (by rw [he, execNop, hs])
  | halt h => exact .inl (by rw [h, exec, execHalt, hs])

/-- Write-Back writes nothing, the destination, or the register of a LOAD (R126). -/
theorem exec_writeBack (i : Instr) (hs : s.stage = .writeBack) :
    exec i s = writeBackNothing s ∨ (∃ rd, exec i s = writeBackTo rd s) ∨
      exec i s = writeBackLoaded s := by
  cases instrKind i with
  | binary f rd rs1 src he => exact .inr (.inl ⟨_, by rw [he, binaryInstr, hs]⟩)
  | unary f rd src he => exact .inr (.inl ⟨_, by rw [he, unaryInstr, hs]⟩)
  | compare p rs1 src he => exact .inl (by rw [he, compareInstr, hs])
  | jump t he => exact .inl (by rw [he, jumpInstr, hs])
  | branch t he => exact .inl (by rw [he, branchInstr, hs])
  | load rd rb off he => exact .inr (.inr (by rw [he, execLoad, hs]))
  | store rv rb off he => exact .inl (by rw [he, execStore, hs])
  | nop he => exact .inl (by rw [he, execNop, hs])
  | halt h => exact .inl (by rw [h, exec, execHalt, hs])

/-! ## Absent inputs -/

theorem memoryLoad_none (h : s.exMem = none) : memoryLoad s = .next { s with memWb := none } := by
  simp [memoryLoad, h]

theorem memoryRedirect_none (taken : ExMem → Bool) (h : s.exMem = none) :
    memoryRedirect taken s = .next { s with memWb := none } := by
  simp [memoryRedirect, h]

theorem writeBackTo_none (rd : RegIndex) (h : s.memWb = none) : writeBackTo rd s = .next s := by
  simp [writeBackTo, h]

theorem writeBackLoaded_none (h : s.memWb = none) : writeBackLoaded s = .next s := by
  simp [writeBackLoaded, h]

theorem exec_decode_absent (i : Instr) (hs : s.stage = .decode) (hr : s.ifId = none) :
    exec i s = .next { s with idEx := none } := by
  obtain ⟨f, he⟩ := exec_decode i hs
  rw [he, decodeTo_none f hr]

theorem exec_execute_absent (i : Instr) (hs : s.stage = .execute) (hr : s.idEx = none) :
    exec i s = .next { s with exMem := none } := by
  obtain ⟨taken, f, he⟩ | ⟨p, he⟩ | he := exec_execute i hs
  · rw [he, executeTo_none taken f hr]
  · rw [he, executeFlag_none p hr]
  · rw [he, executeAddress_none hr]

theorem exec_memoryAccess_absent (i : Instr) (hs : s.stage = .memoryAccess) (hr : s.exMem = none) :
    exec i s = .next { s with memWb := none } := by
  obtain he | he | he | ⟨taken, he⟩ := exec_memoryAccess i hs
  · rw [he, memoryPass_none hr]
  · rw [he, memoryLoad_none hr]
  · rw [he, memoryStore_none hr]
  · rw [he, memoryRedirect_none taken hr]

theorem exec_writeBack_absent (i : Instr) (hs : s.stage = .writeBack) (hr : s.memWb = none) :
    exec i s = .next s := by
  obtain he | ⟨rd, he⟩ | he := exec_writeBack i hs
  · rw [he, writeBackNothing]
  · rw [he, writeBackTo_none rd hr]
  · rw [he, writeBackLoaded_none hr]

end stages

/-- A stage whose input is absent is idle (R21, R120). -/
theorem runStage_absent {s : State} {st : Stage} (h : s.stageInput st = .ok none) :
    runStage st s = stageIdle (s.atStage st) := by
  simp [runStage, h]

/-- Settles O23: an absent input is absent to every operation of a stage, and to the stage itself. -/
theorem absentInputHasNoEffect : Obligations.AbsentInputHasNoEffect := by
  unfold Obligations.AbsentInputHasNoEffect
  refine ⟨fun i s => ⟨exec_decode_absent i, exec_execute_absent i, exec_memoryAccess_absent i,
    exec_writeBack_absent i⟩, fun s => ⟨fun hr => ?_, fun hr => ?_, fun hr => ?_, fun hr => ?_⟩⟩
  · exact runStage_absent (st := .decode) (by simp [State.stageInput, hr])
  · exact runStage_absent (st := .execute) (by simp [State.stageInput, hr])
  · exact runStage_absent (st := .memoryAccess) (by simp [State.stageInput, hr])
  · exact runStage_absent (st := .writeBack) (by simp [State.stageInput, hr])

/-- Settles O15: all but HALT advance the program counter in Fetch, HALT holds it, and both read the
code array first. -/
theorem fetchCompletes : Obligations.FetchCompletes := by
  unfold Obligations.FetchCompletes
  refine ⟨fun i s w hi hs hw => ?_, fun s w hs hw => ?_, fun i s hs hout => ?_⟩
  · exact (exec_fetch hi hs).trans (fetchAdvance_eq hw)
  · exact (exec_halt_fetch hs).trans (fetchHold_eq hw)
  · by_cases hi : i = .halt
    · subst hi
      exact (exec_halt_fetch hs).trans (fetchHold_out hout)
    · exact (exec_fetch hi hs).trans (fetchAdvance_out hout)

end Sys2Proof.Machine
end

section
/-! PROOF of O41, O42 and O51. Write-Back and Memory-Access record by record, and what a stop of a later
stage leaves of them (spec/42_pipeline.md R125, R126, R133). -/

namespace Sys2Proof.Machine

/-! ## Write-Back (R126) -/

/-- The target of a MEM-result, by type (R126). -/
theorem MemWb.target_eq (r : MemWb) (m : OpcodeMap) :
    r.target m =
      if decodeType m r.instr = .binaryArithmetic ∨ decodeType m r.instr = .unaryArithmetic then
        some (fieldA r.instr)
      else if isLoad m r.instr then some (ioRegister r.ioOperand)
      else none := by
  unfold MemWb.target
  cases ht : decodeType m r.instr
  case io => simp
  all_goals simp [isLoad_of_type, ht]

theorem State.wroteBack_of_none {s : State} (hr : s.memWb = none) : s.wroteBack = s := by
  simp [State.wroteBack, hr]

theorem State.wroteBack_of_target {s : State} {r : MemWb} {d : RegIndex} (hr : s.memWb = some r)
    (hd : r.target s.opcodes = some d) : s.wroteBack = s.setReg d r.result := by
  simp [State.wroteBack, hr, hd]

theorem State.wroteBack_of_no_target {s : State} {r : MemWb} (hr : s.memWb = some r)
    (hd : r.target s.opcodes = none) : s.wroteBack = s := by
  simp [State.wroteBack, hr, hd]

/-- The register a MEM-result is written to does not depend on its `next_pc`, so neither does
Write-Back. -/
theorem State.wroteBack_nextPc {s : State} {r : MemWb} (n : Word) (hr : s.memWb = some r) :
    { s with memWb := some { r with nextPc := n } }.wroteBack =
      { s.wroteBack with memWb := some { r with nextPc := n } } := by
  rcases Option.eq_none_or_eq_some (r.target s.opcodes) with hd | ⟨d, hd⟩
  · rw [State.wroteBack_of_no_target hr hd]
    exact State.wroteBack_of_no_target (r := { r with nextPc := n }) rfl hd
  · rw [State.wroteBack_of_target hr hd]
    exact State.wroteBack_of_target (r := { r with nextPc := n }) rfl hd

/-- Under the invariant the register of a LOAD's io-operand is its destination field's (R123). -/
theorem State.Inv.ioRegister_memWb {s : State} (h : s.Inv) {r : MemWb} (hr : s.memWb = some r)
    (hl : isLoad s.opcodes r.instr = true) : ioRegister r.ioOperand = fieldA r.instr := by
  rw [h.load_index_memWb r hr hl, ioRegister_setWidth]

/-- Settles O41: Write-Back writes the target of its record, type by type. -/
theorem writeBackStage : Obligations.WriteBackStage := by
  unfold Obligations.WriteBackStage
  refine ⟨fun s hr => ?_, fun s r hr => ?_, fun s r hinv hr hl =>
    ⟨hinv.ioRegister_memWb hr hl, hinv.load_index_memWb r hr hl⟩,
    fun s v => (s.pc_setReg 31 v).trans (if_pos rfl)⟩
  · rw [runStage_writeBack, State.wroteBack_of_none hr]
    rfl
  · rw [runStage_writeBack]
    have htarget := r.target_eq s.opcodes
    split_ifs at htarget ⊢
    · rw [State.wroteBack_of_target hr htarget]; rfl
    · rw [State.wroteBack_of_target hr htarget]; rfl
    · rw [State.wroteBack_of_no_target hr htarget]; rfl

/-! ## Memory-Access (R125) -/

/-- Settles O42: Memory-Access goes on under the invariant, and each of its four arms is the closed form
of that class of record. -/
theorem memoryAccessStage : Obligations.MemoryAccessStage := by
  unfold Obligations.MemoryAccessStage
  refine ⟨fun s hr => ?_, fun s r hinv hr => ⟨hinv.address_legal r hr, ?_⟩,
    fun s r n hr t ht => ?_⟩
  · exact runStage_absent (st := .memoryAccess) (by simp [State.stageInput, hr])
  · rw [runStage_memoryAccess s hinv.address_legal]
    have hredirect := r.redirect_eq s.opcodes
    split_ifs with hl hs ht
    · rw [State.accessed_load hr (isLoad_iff.1 hl)]; rfl
    · rw [State.accessed_store hr (of_decide_eq_true hs)]; rfl
    · rw [State.accessed_redirect hr (by simpa using hs) (by simpa using hl)
        (hredirect.trans (if_pos ht))]
      rfl
    · rw [State.accessed_pass hr (by simpa using hs) (by simpa using hl)
        (hredirect.trans (if_neg ht))]
      rfl
  · rw [runStage_writeBack] at ht ⊢
    cases ht
    rw [State.wroteBack_nextPc n hr]
    rfl

/-! ## What a fatal stop leaves (R133) -/

/-- The state that a stop in Execute leaves. -/
theorem stopState_of_execute {s : State} (hrun : s.running) (hl : s.addressLegal) {r : IdEx}
    {c : Fault} (hr : s.idEx = some r) (hs : r.stop s.opcodes s.dataSize = some c) :
    stopState s = some ((s.wroteBack.accessed.atStage .memoryAccess).raiseFatal c) := by
  rw [stopState_of_running hrun, stopAmong_of_addressLegal hl]
  apply stopAmong_cons_fault
  rw [runStage_execute_some _ r (by simpa using hr)]
  simp [hs]

/-- The state that a stop in Fetch leaves. -/
theorem stopState_of_fetch {s : State} (hrun : s.running) (hl : s.addressLegal) (he : s.executes)
    (hd : s.decodes) (hout : s.code.length ≤ s.redirectedPc.toNat) :
    stopState s = some
      ((s.wroteBack.accessed.executed.decoded.atStage .decode).raiseFatal .fetchOutOfRange) := by
  obtain ⟨ko, ki, kc, kp⟩ := s.wroteBack.accessed.executed_keeps
  have hdec := runStage_decode (s.wroteBack.accessed.executed.atStage .execute)
    (by simpa [ko, ki, State.decodes] using hd)
  have hpc : s.wroteBack.accessed.executed.pc = s.redirectedPc := kp.trans s.pc_decode
  have hcode : s.wroteBack.accessed.executed.code = s.code := by simpa using kc
  rw [stopState_of_running hrun, stopAmong_of_executes hl he, stopAmong_cons_next hdec]
  exact stopAmong_cons_fault (runStage_fetch_out _ (by
    change s.wroteBack.accessed.executed.code.length ≤ s.wroteBack.accessed.executed.pc.toNat
    rw [hpc, hcode]
    exact hout))

theorem step_of_fatal {s : State} {c : Fault} (h : s.fatal = some c) : step s = .fault c := by
  obtain ⟨-, -, hfatal⟩ := doneRule
  exact hfatal s c h

/-- The ID-result of a stop in Fetch is what Decode makes of the registers that the stop leaves. -/
theorem State.idEx_decoded_executed (s : State) :
    s.executed.decoded.idEx = s.ifId.map (IfId.decoded · s.executed.decoded) := by
  have hi : s.executed.ifId = s.ifId := s.executed_keeps.2.1
  rw [State.decoded, hi]
  exact congrFun (congrArg Option.map (funext fun r => r.decoded_of_regs rfl rfl)) _

/-- Settles O51: a stop of the invariant's states comes from Execute or from Fetch. -/
theorem faultedState : Obligations.FaultedState := by
  unfold Obligations.FaultedState
  intro s c hinv hdone hstep
  have hrun : s.running := ⟨hdone, hinv.not_fatal⟩
  have hl : s.addressLegal := hinv.address_legal
  rw [step_of_running hrun.2 hrun.1] at hstep
  rcases cycle_cases s hl with ⟨r, c', hr, hs, hc⟩ | ⟨-, r, -, hb, -⟩ | ⟨he, hd, hout, hc⟩ |
    ⟨-, -, w, -, hc⟩
  · obtain rfl : c = c' := by rw [hc] at hstep; cases hstep; rfl
    have hne : c ≠ .fetchOutOfRange := by
      rintro rfl
      cases IdEx.stop_some hs <;> contradiction
    exact ⟨_, stopState_of_execute hrun hl hr hs, rfl, step_of_fatal rfl, s.reg_decode, rfl, rfl,
      by simp [State.memWb_accessed], by simp, by simpa using hdone, by simp, by simp, by simp, rfl,
      fun _ => ⟨by simp, by simp, by simp⟩, fun h => absurd h hne⟩
  · rw [isBadIo_of_admissible hinv.map_admissible] at hb
    cases hb
  · obtain rfl : c = .fetchOutOfRange := by rw [hc] at hstep; cases hstep; rfl
    refine ⟨_, stopState_of_fetch hrun hl he hd hout, rfl, step_of_fatal rfl, ?_⟩
    have hid := s.wroteBack.accessed.idEx_decoded_executed
    rw [State.ifId_accessed, State.ifId_wroteBack] at hid
    rw [State.executed_eq] at hid ⊢
    exact ⟨s.reg_decode, rfl, rfl, by simp [State.memWb_accessed, State.decoded],
      by simp [State.decoded], by simpa [State.decoded] using hdone, by simp [State.decoded],
      by simp [State.decoded], by simp [State.decoded], rfl, fun h => absurd rfl h,
      fun _ => ⟨by simp [State.decoded], by simp [State.decoded], hid⟩⟩
  · rw [hc] at hstep
    cases hstep

end Sys2Proof.Machine
end

section
/-! PROOF of O53, O54 and O56. Records and hazards over several cycles: a record moves one stage in each,
so from Decode on its transfer is made in the third cycle and its register is written in the fourth
(spec/42_pipeline.md R129, R132, spec/70_reset_and_hazards.md R265, R269). -/

namespace Sys2Proof.Machine

/-! ## Which records are there (R129, R132) -/

/-- A record is in a stage exactly when it was in the stage before it, and `done` says that there is
none. -/
theorem records_of_step {s t : State} (hrun : s.running) (hstep : step s = .next t) :
    (t.idEx = none ↔ s.ifId = none) ∧ (t.exMem = none ↔ s.idEx = none) ∧
      (t.memWb = none ↔ s.exMem = none) ∧ t.fatal = none ∧
      (t.done = true ↔ t.ifId = none ∧ t.idEx = none ∧ t.exMem = none ∧ t.memWb = none) := by
  obtain ⟨-, -, -, w, -, rfl⟩ := step_next_running hrun hstep
  rw [State.done_afterCycle, State.drained_iff]
  simp [State.idEx_afterCycle, State.exMem_afterCycle, State.memWb_afterCycle, hrun.2]

/-- Settles O53: the last word is in one stage after each of the first three cycles, and has left after
the fourth. -/
theorem lastFetchEndsRunAfterFourCycles : Obligations.LastFetchEndsRunAfterFourCycles := by
  unfold Obligations.LastFetchEndsRunAfterFourCycles
  intro s0 s1 s2 s3 s4 hrun0 hif0 h1 h2 h3 h4 hif1 hif2 hif3 hif4
  obtain ⟨hid1, -, -, hf1, hd1⟩ := records_of_step hrun0 h1
  have hdone1 : s1.done = false := by simp [← Bool.not_eq_true, hd1, hid1, hif0]
  obtain ⟨hid2, hex2, -, hf2, hd2⟩ := records_of_step ⟨hdone1, hf1⟩ h2
  have hdone2 : s2.done = false := by simp [← Bool.not_eq_true, hd2, hex2, hid1, hif0]
  obtain ⟨hid3, hex3, hmem3, hf3, hd3⟩ := records_of_step ⟨hdone2, hf2⟩ h3
  have hdone3 : s3.done = false := by simp [← Bool.not_eq_true, hd3, hmem3, hex2, hid1, hif0]
  obtain ⟨hid4, hex4, hmem4, -, hd4⟩ := records_of_step ⟨hdone3, hf3⟩ h4
  exact ⟨hdone1, hdone2, hdone3,
    hd4.2 ⟨hif4, hid4.2 hif3, hex4.2 (hid3.2 hif2), hmem4.2 (hex3.2 (hid2.2 hif1))⟩⟩

/-! ## Steps of the invariant -/

/-- Under the invariant the run has not ended while a record is in flight. -/
theorem State.Inv.running {s : State} (h : s.Inv) (hd : s.drained = false) : s.running := by
  refine ⟨?_, h.not_fatal⟩
  rw [← Bool.not_eq_true]
  intro hdone
  rw [h.done_drained hdone] at hd
  cases hd

/-- A step with a record in flight is a cycle, and keeps the invariant. -/
theorem State.Inv.step {s t : State} (h : s.Inv) (hd : s.drained = false) (hstep : step s = .next t) :
    t.Inv ∧ ∃ w, s.code[s.redirectedPc.toNat]? = some w ∧ t = s.afterCycle w := by
  obtain ⟨-, -, -, hw⟩ := step_next_running (h.running hd) hstep
  exact ⟨everyStepKeepsInv s t h hstep, hw⟩

/-! ## The register a record writes (R126) -/

/-- A record whose io-operand is a LOAD's destination index is written to its word's destination. -/
theorem MemWb.target_eq_destinationOf {r : MemWb} {m : OpcodeMap}
    (h : isLoad m r.instr = true → r.ioOperand = (fieldA r.instr).setWidth 32) :
    r.target m = destinationOf m r.instr := by
  rcases word_cases m r.instr with hu | hb | ⟨op, ho⟩
  · simp [MemWb.target, hu, destinationOf, opOfWord_of_unknown hu]
  · simp [MemWb.target, decodeType_of_badIo hb, isLoad_of_badIo hb, destinationOf, opOfWord_of_badIo hb]
  · rw [MemWb.target, decodeType_of_op ho, destinationOf, ho]
    cases op
    case load =>
      have hl := isLoad_iff.2 ho
      simp only [Op.type, hl, if_true, h hl, ioRegister_setWidth]
      rfl
    case store => simp [Op.type, isLoad, ho, instrOf, instrDestination]
    all_goals rfl

theorem State.Inv.target_memWb {s : State} (h : s.Inv) {r : MemWb} (hr : s.memWb = some r) :
    r.target s.opcodes = destinationOf s.opcodes r.instr :=
  MemWb.target_eq_destinationOf (h.load_index_memWb r hr)

/-- The word of the record before Write-Back has another destination, if it has one. -/
def State.leavesReg (s : State) (q : RegIndex) : Prop :=
  ∀ r, s.memWb = some r → destinationOf s.opcodes r.instr ≠ some q

theorem State.Inv.target_ne {s : State} (h : s.Inv) {q : RegIndex} (hq : s.leavesReg q) (r : MemWb)
    (hr : s.memWb = some r) : r.target s.opcodes ≠ some q :=
  h.target_memWb hr ▸ hq r hr

/-- Decode reads the old value of a register that Write-Back does not write. -/
theorem State.Inv.decodeReg_of_leavesReg {s : State} (h : s.Inv) {q : RegIndex} (hne : q ≠ 31)
    (hq : s.leavesReg q) : s.decodeReg q = s.reg q :=
  (if_neg hne).trans (State.reg_wroteBack_of_ne (h.target_ne hq))

/-- And the result in the one it writes. -/
theorem State.Inv.decodeReg_of_destination {s : State} (h : s.Inv) {q : RegIndex} (hne : q ≠ 31)
    {r : MemWb} (hr : s.memWb = some r) (hd : destinationOf s.opcodes r.instr = some q) :
    s.decodeReg q = r.result :=
  (if_neg hne).trans (State.reg_wroteBack_of_target hr ((h.target_memWb hr).trans hd))

section afterCycle
variable (s : State) (w : Word)

/-- A cycle leaves in a register what Decode read there (R13). -/
theorem State.reg_afterCycle_eq_decodeReg {q : RegIndex} (hne : q ≠ 31) :
    (s.afterCycle w).reg q = s.decodeReg q :=
  (s.reg_afterCycle w q hne).trans (if_neg hne).symm

theorem State.leavesReg_afterCycle {q : RegIndex}
    (h : ∀ r, s.exMem = some r → destinationOf s.opcodes r.instr ≠ some q) :
    (s.afterCycle w).leavesReg q := by
  intro r hr
  obtain ⟨e, he, rfl⟩ := State.of_memWb_afterCycle w hr
  simpa using h e he

theorem State.exMem_afterCycle_of {P : OpcodeMap → Word → Prop}
    (h : ∀ r, s.idEx = some r → P s.opcodes r.instr) :
    ∀ r, (s.afterCycle w).exMem = some r → P (s.afterCycle w).opcodes r.instr := by
  intro r hr
  obtain ⟨x, hx, rfl⟩ := State.of_exMem_afterCycle w hr
  simpa using h x hx

theorem State.idEx_afterCycle_some {r : IfId} (hr : s.ifId = some r) :
    (s.afterCycle w).idEx = some (r.decoded s.wroteBack.accessed) := by
  simp [State.idEx_afterCycle, hr]

end afterCycle

/-- What Memory-Access hands to Write-Back: a LOAD's word, and else Execute's result (R125). -/
theorem ExMem.result_accessed (r : ExMem) (m : OpcodeMap) (d : Memory) :
    (r.accessed m d).result = if isLoad m r.instr then d.readWord r.result.toNat else r.result := by
  unfold ExMem.accessed
  split <;> rfl

/-- Settles O54: the producer's record is before Write-Back in `s3`, and the two records ahead of it
leave its register alone. -/
theorem registerVisibleAtDistanceThree : Obligations.RegisterVisibleAtDistanceThree := by
  unfold Obligations.RegisterVisibleAtDistanceThree
  intro s0 s1 s2 s3 s4 hinv0 h1 h2 h3 h4 p q hp hdest hne hidEx hexMem hmemWb
  obtain ⟨hinv1, w0, -, rfl⟩ := hinv0.step (by simp [State.drained, hp]) h1
  have hx := s0.idEx_afterCycle_some w0 hp
  obtain ⟨hinv2, w1, -, rfl⟩ := hinv1.step (by simp [State.drained, hx]) h2
  have he := State.exMem_afterCycle_some _ w1 hx
  obtain ⟨hinv3, w2, -, rfl⟩ := hinv2.step (by simp [State.drained, he]) h3
  have hm := State.memWb_afterCycle_some _ w2 he
  obtain ⟨-, w3, -, rfl⟩ := hinv3.step (by simp [State.drained, hm]) h4
  have hold0 := hinv0.decodeReg_of_leavesReg hne hmemWb
  have hold1 := hinv1.decodeReg_of_leavesReg hne (s0.leavesReg_afterCycle w0 hexMem)
  have hold2 := hinv2.decodeReg_of_leavesReg hne (State.leavesReg_afterCycle _ w1
    (s0.exMem_afterCycle_of w0 (P := fun m v => destinationOf m v ≠ some q) hidEx))
  have hnew := hinv3.decodeReg_of_destination hne hm (by simpa using hdest)
  rw [State.reg_afterCycle_eq_decodeReg _ _ hne] at hold1 hold2
  refine ⟨hold1.trans hold0, hold2.trans (hold1.trans hold0), _, hx, rfl, hnew.trans ?_,
    State.reg_afterCycle_eq_decodeReg _ w3 hne⟩
  rw [ExMem.result_accessed]
  simp only [State.opcodes_afterCycle, IdEx.instr_executed, IfId.instr_decoded, IdEx.result_executed]
  split
  case isTrue hl => rw [IdEx.result_of_sum (.inr (.inr (decodeType_of_op (isLoad_iff.1 hl))))]
  case isFalse => rfl

/-! ## Delay slots (R200) -/

/-- A record of another type than a transfer's leaves the program counter to the next Fetch (R125). -/
theorem State.no_redirect {s : State}
    (h : ∀ r, s.exMem = some r → isTransfer s.opcodes r.instr = false) :
    s.exMem.bind (ExMem.redirect · s.opcodes) = none := by
  rw [Option.bind_eq_none_iff]
  intro r hr
  exact ExMem.redirect_of_type (by simpa [isTransfer, not_or] using h r hr)

/-- With no transfer there and no write to register 31, the next word in order is fetched (R16). -/
theorem State.Inv.redirectedPc_eq {s : State} (h : s.Inv)
    (hx : s.exMem.bind (ExMem.redirect · s.opcodes) = none) (hm : s.leavesReg 31) :
    s.redirectedPc = s.reg 31 :=
  (s.redirectedPc_rule.2 hx).2 (h.target_ne hm)

/-- The transfer that Execute prepares happens for a jump, and for a branch if the flag is set (R124,
R125). -/
theorem IdEx.redirect_executed {r : IdEx} {m : OpcodeMap} (b : Bool)
    (h : isTransfer m r.instr = true) :
    (r.executed m b).redirect m =
      if decodeType m r.instr = .jump ∨ b = true then some (r.operand1 + r.operand2) else none := by
  simp only [isTransfer, decide_eq_true_eq] at h
  have hres : r.result m = r.operand1 + r.operand2 :=
    IdEx.result_of_sum (h.imp_right .inl)
  rw [ExMem.redirect_eq, IdEx.instr_executed, IdEx.result_executed, hres]
  rcases h with h | h
  · simp [h]
  · simp [h, (IdEx.executed_of_branch b h).1]

/-- A word that is no HALT is fetched, and the program counter is the index after it (R121). -/
theorem State.Inv.fetch_of_word {s : State} {a w v : Word} (h : (s.afterCycle w).Inv)
    (ha : s.redirectedPc = a) (hw : s.code[s.redirectedPc.toNat]? = some w)
    (hv : s.code[a.toNat]? = some v) (hhalt : isHalt s.opcodes v = false) :
    (s.afterCycle w).ifId = some ⟨a + 1, v⟩ ∧ (s.afterCycle w).reg 31 = a + 1 := by
  obtain rfl : w = v := Option.some.inj (hw.symm.trans (ha ▸ hv))
  have hif : (s.afterCycle w).ifId = some ⟨a + 1, w⟩ := by
    rw [State.ifId_afterCycle, hhalt, ha]
    rfl
  exact ⟨hif, (h.fetched_next _ hif).symm⟩

/-- Settles O56: the transfer's record is before Memory-Access in `s2`; nothing moves the program counter
before it. -/
theorem transferHasTwoDelaySlots : Obligations.TransferHasTwoDelaySlots := by
  unfold Obligations.TransferHasTwoDelaySlots
  intro s0 s1 s2 s3 hinv0 h1 h2 h3 j v1 v2 hj hjump hidEx hexMem hmemWb hv1 hh1 hv2 hh2
  obtain ⟨hinv1, w0, hw0, rfl⟩ := hinv0.step (by simp [State.drained, hj]) h1
  have hx := s0.idEx_afterCycle_some w0 hj
  obtain ⟨hinv2, w1, hw1, rfl⟩ := hinv1.step (by simp [State.drained, hx]) h2
  have he := State.exMem_afterCycle_some _ w1 hx
  obtain ⟨-, w2, hw2, rfl⟩ := hinv2.step (by simp [State.drained, he]) h3
  have hpc0 : s0.redirectedPc = j.nextPc :=
    (hinv0.redirectedPc_eq (State.no_redirect fun r hr => (hexMem r hr).1) hmemWb).trans
      (hinv0.fetched_next j hj).symm
  obtain ⟨hif1, hreg1⟩ := hinv1.fetch_of_word hpc0 hw0 hv1 hh1
  have hpc1 : (s0.afterCycle w0).redirectedPc = j.nextPc + 1 :=
    (hinv1.redirectedPc_eq
      (State.no_redirect (s0.exMem_afterCycle_of w0 (P := fun m v => isTransfer m v = false)
        fun r hr => (hidEx r hr).1))
      (s0.leavesReg_afterCycle w0 fun r hr => (hexMem r hr).2)).trans hreg1
  obtain ⟨hif2, hreg2⟩ := hinv2.fetch_of_word hpc1 hw1 (by simpa using hv2) (by simpa using hh2)
  have hadd : j.nextPc + 1 + 1 = j.nextPc + 2 := by rw [BitVec.add_assoc]; rfl
  rw [hadd] at hif2 hreg2
  have hredirect := IdEx.redirect_executed (r := j.decoded s0.wroteBack.accessed)
    (m := s0.opcodes) (s0.afterCycle w0).flag hjump
  have hpc2 : ((s0.afterCycle w0).afterCycle w1).redirectedPc =
      if decodeType s0.opcodes j.instr = .jump ∨ (s0.afterCycle w0).flag = true then
        (j.decoded s0.wroteBack.accessed).operand1 + (j.decoded s0.wroteBack.accessed).operand2
      else j.nextPc + 2 := by
    split_ifs with ht
    · exact State.redirectedPc_of_redirect (by
        rw [he]; simpa using hredirect.trans (if_pos ht))
    · exact (hinv2.redirectedPc_eq
        (by rw [he]; simpa using hredirect.trans (if_neg ht))
        (State.leavesReg_afterCycle _ w1 (s0.exMem_afterCycle_of w0
          (P := fun m v => destinationOf m v ≠ some 31) fun r hr => (hidEx r hr).2))).trans hreg2
  refine ⟨hif1, hif2, _, _, w2, hx, rfl, rfl, ?_, ?_⟩
  · rw [← hpc2]
    simpa using hw2
  · rw [State.ifId_afterCycle, hpc2]
    simp

end Sys2Proof.Machine
end

section
/-! PROOF of O57. An instruction alone: with HALT behind it the pipeline holds one record, each cycle
runs that record's stage and fetches a HALT, and the five stages are the instruction's passage
(spec/42_pipeline.md R127, R132, R134, spec/70_reset_and_hazards.md R274). -/

namespace Sys2Proof.Machine

/-! ## Runs (R129) -/

theorem run_of_step {k : Nat} {s t : State} (h : step s = .next t) :
    Host.Core.run Sys2Proof.core (k + 1) s = Host.Core.run Sys2Proof.core k t := by
  have h' : Sys2Proof.core.step s = .next t := h
  simp only [Host.Core.run, h']

theorem run_of_stop {k : Nat} {s : State} {c : Fault} (h : step s = .fault c) :
    Host.Core.run Sys2Proof.core (k + 1) s = .fault c := by
  have h' : Sys2Proof.core.step s = .fault c := h
  simp only [Host.Core.run, h']

theorem endsAfter_zero {t : State} (h : t.done = true) : EndsAfter 0 t t :=
  ⟨rfl, h, fun _ hj => absurd hj (Nat.not_lt_zero _)⟩

/-- A run that ends after `k` more cycles of a state that a step leads to. -/
theorem EndsAfter.cons {k : Nat} {s s' t : State} (hd : s.done = false) (hs : step s = .next s')
    (h : EndsAfter k s' t) : EndsAfter (k + 1) s t := by
  obtain ⟨hrun, hdone, hbefore⟩ := h
  refine ⟨(run_of_step hs).trans hrun, hdone, fun j hj => ?_⟩
  cases j with
  | zero => exact ⟨s, rfl, hd⟩
  | succ j =>
    obtain ⟨u, hu, hud⟩ := hbefore j (Nat.lt_of_succ_lt_succ hj)
    exact ⟨u, (run_of_step hs).trans hu, hud⟩

/-! ## A passage, stage by stage (R132) -/

theorem isHalt_of_decode {m : OpcodeMap} {w : Word} {i : Instr} (hdec : decodeWith m w = .ok i)
    (hi : i ≠ .halt) : isHalt m w = false := by
  obtain ⟨ho, he⟩ := op_of_decode hdec
  simp only [isHalt, ho, decide_eq_false_iff_not]
  intro hop
  rw [Option.some.inj hop] at he
  exact hi he

section keeps
variable (s : State)

@[simp] theorem State.opcodes_executed : s.executed.opcodes = s.opcodes := s.executed_keeps.1
@[simp] theorem State.code_executed : s.executed.code = s.code := s.executed_keeps.2.2.1
@[simp] theorem State.pc_executed : s.executed.pc = s.pc := s.executed_keeps.2.2.2

@[simp] theorem State.dataSize_executed : s.executed.dataSize = s.dataSize := by
  rw [State.executed_eq]

@[simp] theorem State.done_executed : s.executed.done = s.done := by
  rw [State.executed_eq]

@[simp] theorem State.opcodes_decoded : s.decoded.opcodes = s.opcodes := rfl

end keeps

/-- Fetch of a word that is no HALT. -/
theorem State.fetched_of_word {s : State} {w : Word} (hh : isHalt s.opcodes w = false) :
    s.fetched w = { s.setPc (s.pc + 1) with ifId := some ⟨s.pc + 1, w⟩ } := by
  simp [State.fetched, hh]

theorem State.exMem_executed_some {s : State} {x : IdEx} (hx : s.idEx = some x) :
    s.executed.exMem = some (x.executed s.opcodes s.flag) := by
  simp [State.executed, hx]

/-- The address of a record that Execute made without a stop is legal. -/
theorem State.addressLegal_executed {s : State} (he : s.executes) : s.executed.addressLegal := by
  rcases Option.eq_none_or_eq_some s.idEx with hn | ⟨x, hx'⟩
  · simp [State.addressLegal, State.executed, hn]
  · intro e hr hio
    rw [State.exMem_executed_some hx', Option.some.injEq] at hr
    subst hr
    have ht : decodeType s.opcodes x.instr = .io := decodeType_of_isIo (by simpa using hio)
    rw [IdEx.result_executed, IdEx.result_of_sum (.inr (.inr ht))]
    simpa using IdEx.legal_of_stop_none (he x hx') ht

section stages
variable {s : State} {i : Instr}

theorem exec_fetch_word {w : Word} (hw : s.code[s.pc.toNat]? = some w)
    (hdec : decodeWith s.opcodes w = .ok i) (hi : i ≠ .halt) :
    exec i (s.atStage .fetch) = .next ((s.fetched w).atStage .fetch) := by
  have hh := isHalt_of_decode hdec hi
  rw [← runStage_decoded (State.stageInput_fetch hw) hdec, runStage_fetch_advance s w hw hh,
    State.fetched_of_word hh]

theorem IfId.stop_of_decode {r : IfId} {m : OpcodeMap} (hdec : decodeWith m r.instr = .ok i) :
    r.stop m = none := by
  simp [IfId.stop, (opOfWord_iff.1 (op_of_decode hdec).1).1]

theorem exec_decode_record {r : IfId} (hr : s.ifId = some r)
    (hdec : decodeWith s.opcodes r.instr = .ok i) :
    exec i (s.atStage .decode) = .next (s.decoded.atStage .decode) := by
  rw [← runStage_decoded (w := r.instr) (by simp [State.stageInput, hr]) hdec]
  refine runStage_decode s fun r' hr' => ?_
  obtain rfl : r = r' := Option.some.inj (hr.symm.trans hr')
  exact IfId.stop_of_decode hdec

theorem exec_execute_record {r : IdEx} (hr : s.idEx = some r)
    (hdec : decodeWith s.opcodes r.instr = .ok i) (hs : r.stop s.opcodes s.dataSize = none) :
    exec i (s.atStage .execute) = .next (s.executed.atStage .execute) := by
  rw [← runStage_decoded (w := r.instr) (by simp [State.stageInput, hr]) hdec]
  refine runStage_execute s fun r' hr' => ?_
  obtain rfl : r = r' := Option.some.inj (hr.symm.trans hr')
  exact hs

theorem exec_execute_stop {r : IdEx} {c : Fault} (hr : s.idEx = some r)
    (hdec : decodeWith s.opcodes r.instr = .ok i) (hs : r.stop s.opcodes s.dataSize = some c) :
    exec i (s.atStage .execute) = .fault c := by
  rw [← runStage_decoded (w := r.instr) (by simp [State.stageInput, hr]) hdec,
    runStage_execute_some s r hr, hs]

theorem exec_memoryAccess_record {r : ExMem} (hr : s.exMem = some r)
    (hdec : decodeWith s.opcodes r.instr = .ok i) (hl : s.addressLegal) :
    exec i (s.atStage .memoryAccess) = .next (s.accessed.atStage .memoryAccess) := by
  rw [← runStage_decoded (w := r.instr) (by simp [State.stageInput, hr]) hdec]
  exact runStage_memoryAccess s hl

theorem exec_writeBack_record {r : MemWb} (hr : s.memWb = some r)
    (hdec : decodeWith s.opcodes r.instr = .ok i) :
    exec i (s.atStage .writeBack) = .next (s.wroteBack.atStage .writeBack) := by
  rw [← runStage_decoded (w := r.instr) (by simp [State.stageInput, hr]) hdec]
  exact runStage_writeBack s

end stages

section passage
variable {s : State} {w : Word} {i : Instr}

/-- The state in which the fetched word has been decoded. -/
def State.entered (s : State) (w : Word) : State := (s.fetched w).decoded

/-- The record that Decode makes of the fetched word. -/
def State.enteredRecord (s : State) (w : Word) : IdEx := IfId.decoded ⟨s.pc + 1, w⟩ (s.fetched w)

/-- What the record is, and what the two stages have changed, for a word that is no HALT. -/
theorem State.entered_spec (hh : isHalt s.opcodes w = false) :
    (s.fetched w).ifId = some ⟨s.pc + 1, w⟩ ∧ (s.fetched w).opcodes = s.opcodes ∧
      (s.entered w).idEx = some (s.enteredRecord w) ∧ (s.entered w).opcodes = s.opcodes ∧
      (s.entered w).dataSize = s.dataSize ∧ (s.entered w).code = s.code ∧
      (s.entered w).pc = s.pc + 1 := by
  have hf := State.fetched_of_word hh
  have hifId : (s.fetched w).ifId = some ⟨s.pc + 1, w⟩ := by rw [hf]
  refine ⟨hifId, by rw [hf]; rfl, by rw [State.entered, State.decoded, hifId]; rfl, ?_⟩
  rw [State.entered, hf]
  exact ⟨rfl, rfl, rfl, State.pc_setPc _ _⟩

variable (hw : s.code[s.pc.toNat]? = some w) (hdec : decodeWith s.opcodes w = .ok i) (hi : i ≠ .halt)
include hw hdec hi

/-- A passage stops where its Execute stops, and else is the five stages' closed forms (R132). -/
theorem passage_eq :
    passage i s = match (s.enteredRecord w).stop s.opcodes s.dataSize with
      | some c => .fault c
      | none => .next (s.entered w).executed.accessed.wroteBack.settled := by
  obtain ⟨hifId, hop, hx, hop', hsize, -⟩ := State.entered_spec (isHalt_of_decode hdec hi)
  have hdec' : decodeWith (s.entered w).opcodes (s.enteredRecord w).instr = .ok i := hop' ▸ hdec
  rw [passage, exec_fetch_word hw hdec hi, andThen_next, State.atStage_atStage,
    exec_decode_record hifId (hop ▸ hdec), andThen_next, State.atStage_atStage]
  change andThen (exec i ((s.entered w).atStage .execute)) _ = _
  rw [← hop', ← hsize]
  cases hs : (s.enteredRecord w).stop (s.entered w).opcodes (s.entered w).dataSize with
  | some c => rw [exec_execute_stop hx hdec' hs, andThen_fault]
  | none =>
    have he : (s.entered w).executes := by
      intro r hr
      rw [← Option.some.inj (hx.symm.trans hr)]
      exact hs
    have hexMem := State.exMem_executed_some hx
    have hmemWb := State.memWb_accessed (s.entered w).executed
    rw [hexMem] at hmemWb
    rw [exec_execute_record hx hdec' hs, andThen_next, State.atStage_atStage,
      exec_memoryAccess_record hexMem (by simpa using hdec') (State.addressLegal_executed he),
      andThen_next, State.atStage_atStage, exec_writeBack_record hmemWb (by simpa using hdec'),
      andThen_next]
    rfl

end passage

/-! ## Cycles with one record in flight

Each cycle below fetches a HALT, so that it does no more than the stage of the one record. -/

/-- The state after a cycle's older stages and the Fetch of a HALT, before `done` is set. -/
def State.heldCycle (s : State) : State :=
  { s.wroteBack.accessed.executed.decoded with ifId := none }

/-- Nothing but the ID-result is in flight. -/
def State.onlyIdEx (s : State) : State := { s.settled with idEx := s.idEx }

/-- Nothing but the EX-result is in flight. -/
def State.onlyExMem (s : State) : State := { s.settled with exMem := s.exMem }

/-- Nothing but the MEM-result is in flight. -/
def State.onlyMemWb (s : State) : State := { s.settled with memWb := s.memWb }

theorem State.heldCycle_of_ifId {s : State} (hx : s.idEx = none) (he : s.exMem = none)
    (hm : s.memWb = none) (hst : s.stage = .fetch) : s.heldCycle = s.decoded.onlyIdEx := by
  cases s
  cases hx
  cases he
  cases hm
  cases hst
  rfl

theorem State.heldCycle_onlyIdEx (s : State) : s.onlyIdEx.heldCycle = s.executed.onlyExMem := by
  obtain ⟨regs, flag, data, ifId, idEx, exMem, memWb, log, done, fatal, code, size, map, stage⟩ := s
  cases idEx <;> rfl

/-- Memory-Access looks at the EX-result, and at no other record. -/
theorem State.accessed_onlyExMem (s : State) :
    s.onlyExMem.accessed = { s.accessed.onlyMemWb with exMem := s.exMem } := by
  rcases Option.eq_none_or_eq_some s.exMem with hr | ⟨r, hr⟩
  · rw [State.accessed_of_none hr]
    exact State.accessed_of_none (s := s.onlyExMem) hr
  have hr' : s.onlyExMem.exMem = some r := hr
  cases hl : isLoad s.opcodes r.instr with
  | true =>
    rw [State.accessed_load hr (isLoad_iff.1 hl)]
    exact State.accessed_load hr' (isLoad_iff.1 hl)
  | false =>
    cases hs : isStore s.opcodes r.instr with
    | true =>
      rw [State.accessed_store hr (of_decide_eq_true hs)]
      exact State.accessed_store hr' (of_decide_eq_true hs)
    | false =>
      cases hd : r.redirect s.opcodes with
      | none =>
        rw [State.accessed_pass hr hs hl hd]
        exact State.accessed_pass hr' hs hl hd
      | some a =>
        rw [State.accessed_redirect hr hs hl hd]
        exact State.accessed_redirect hr' hs hl hd

theorem State.heldCycle_onlyExMem (s : State) : s.onlyExMem.heldCycle = s.accessed.onlyMemWb := by
  have hwb : s.onlyExMem.wroteBack = s.onlyExMem := rfl
  rw [State.heldCycle, hwb, State.accessed_onlyExMem]
  rfl

/-- Write-Back looks at the MEM-result, and at no other record. -/
theorem State.wroteBack_onlyMemWb (s : State) :
    s.onlyMemWb.wroteBack = { s.wroteBack.settled with memWb := s.memWb } := by
  rcases Option.eq_none_or_eq_some s.memWb with hr | ⟨r, hr⟩
  · rw [State.wroteBack_of_none hr]
    exact State.wroteBack_of_none (s := s.onlyMemWb) hr
  · rcases Option.eq_none_or_eq_some (r.target s.opcodes) with hd | ⟨d, hd⟩
    · rw [State.wroteBack_of_no_target hr hd]
      exact State.wroteBack_of_no_target (s := s.onlyMemWb) hr hd
    · rw [State.wroteBack_of_target hr hd]
      exact State.wroteBack_of_target (s := s.onlyMemWb) hr hd

theorem State.heldCycle_onlyMemWb (s : State) : s.onlyMemWb.heldCycle = s.wroteBack.settled := by
  rw [State.heldCycle, State.wroteBack_onlyMemWb]
  rfl

theorem State.pc_heldCycle (s : State) : s.heldCycle.pc = s.redirectedPc :=
  (State.pc_executed s.wroteBack.accessed).trans s.pc_decode

/-- A cycle that fetches a HALT. -/
theorem State.afterCycle_of_halt {s : State} {h : Word} (hh : isHalt s.opcodes h = true) :
    s.afterCycle h = s.heldCycle.markDone.atStage .fetch := by
  simp [State.afterCycle, State.fetched, hh, State.heldCycle]

theorem step_of_halt {s : State} {h : Word} (hrun : s.running) (hl : s.addressLegal) (he : s.executes)
    (hd : s.decodes) (hw : s.code[s.heldCycle.pc.toNat]? = some h) (hh : isHalt s.opcodes h = true) :
    step s = .next (s.heldCycle.markDone.atStage .fetch) := by
  rw [step_of_running hrun.2 hrun.1, cycle_of hl he hd (s.pc_heldCycle ▸ hw),
    State.afterCycle_of_halt hh]

theorem step_of_stop {s : State} {r : IdEx} {c : Fault} (hrun : s.running) (hl : s.addressLegal)
    (hr : s.idEx = some r) (hs : r.stop s.opcodes s.dataSize = some c) : step s = .fault c := by
  have hnot : ¬ s.executes := fun he => by rw [he r hr] at hs; cases hs
  rw [step_of_running hrun.2 hrun.1]
  rcases cycle_cases s hl with ⟨r', c', hr', hs', hc⟩ | ⟨he, -⟩ | ⟨he, -⟩ | ⟨he, -⟩
  · obtain rfl : r = r' := Option.some.inj (hr.symm.trans hr')
    rw [hc, Option.some.inj (hs.symm.trans hs')]
  · exact absurd he hnot
  · exact absurd he hnot
  · exact absurd he hnot

theorem State.markDone_of_not_drained {s : State} (hd : s.drained = false) (hdone : s.done = false) :
    s.markDone = s := by
  rw [State.markDone, hd, ← hdone]

/-- Memory-Access leaves the program counter alone, or its record leaves it to Write-Back. -/
theorem State.pc_accessed_cases (s : State) :
    s.accessed.pc = s.pc ∨ s.accessed.wroteBack = s.accessed := by
  have hpc := s.reg_accessed Config.pcIndex
  rw [if_pos rfl] at hpc
  rcases Option.eq_none_or_eq_some s.exMem with hn | ⟨r, hr⟩
  · exact .inl (hpc.trans (by simp [hn]))
  have hm : s.accessed.memWb = some (r.accessed s.opcodes s.data) := by
    simp [State.memWb_accessed, hr]
  have hredirect := r.redirect_eq s.opcodes
  split_ifs at hredirect with ht
  · refine .inr (State.wroteBack_of_no_target hm ?_)
    rw [State.opcodes_accessed, MemWb.target_eq, ExMem.instr_accessed]
    rcases ht with ht | ⟨ht, -⟩ <;> simp [ht, isLoad_of_type]
  · exact .inl (hpc.trans (by simp [hr, hredirect]))

/-! ## The five cycles -/

section single
variable {s t : State} {h : Word} (hrun : s.running)
include hrun

/-- A cycle that fetches a HALT with a record left in flight. -/
theorem step_held (hl : s.addressLegal) (he : s.executes) (hd : s.decodes) (hheld : s.heldCycle = t)
    (hw : s.code[t.pc.toNat]? = some h) (hh : isHalt s.opcodes h = true) (ht : t.drained = false)
    (hdone : t.done = false) (hst : t.stage = .fetch) : step s = .next t := by
  rw [step_of_halt hrun hl he hd (hheld ▸ hw) hh, hheld, State.markDone_of_not_drained ht hdone,
    ← hst, State.atStage_self]

theorem step_onlyIfId {r : IfId} (hr : s.ifId = some r) (hstop : r.stop s.opcodes = none)
    (hx : s.idEx = none) (he : s.exMem = none) (hm : s.memWb = none) (hst : s.stage = .fetch)
    (hw : s.code[s.pc.toNat]? = some h) (hh : isHalt s.opcodes h = true) :
    step s = .next s.decoded.onlyIdEx := by
  refine step_held hrun (by simp [State.addressLegal, he]) (by simp [State.executes, hx]) ?_
    (State.heldCycle_of_ifId hx he hm hst) hw hh ?_ hrun.1 rfl
  · intro r' hr'
    rw [← Option.some.inj (hr.symm.trans hr')]
    exact hstop
  · simp [State.drained, State.onlyIdEx, State.decoded, hr]

theorem step_onlyIdEx {r : IdEx} (hr : s.idEx = some r)
    (hs : r.stop s.opcodes s.dataSize = none) (hw : s.code[s.pc.toNat]? = some h)
    (hh : isHalt s.opcodes h = true) : step s.onlyIdEx = .next s.executed.onlyExMem := by
  refine step_held (s := s.onlyIdEx) hrun nofun ?_ nofun s.heldCycle_onlyIdEx
    (s.pc_executed.symm ▸ hw) hh ?_ (s.done_executed.trans hrun.1) rfl
  · intro r' hr'
    rw [← Option.some.inj (hr.symm.trans hr')]
    exact hs
  · simp [State.drained, State.onlyExMem, State.exMem_executed_some hr]

theorem step_onlyIdEx_stop {r : IdEx} {c : Fault} (hr : s.idEx = some r)
    (hs : r.stop s.opcodes s.dataSize = some c) : step s.onlyIdEx = .fault c :=
  step_of_stop (s := s.onlyIdEx) hrun nofun hr hs

theorem step_onlyExMem {r : ExMem} (hr : s.exMem = some r) (hl : s.addressLegal)
    (hw : s.code[s.accessed.pc.toNat]? = some h) (hh : isHalt s.opcodes h = true) :
    step s.onlyExMem = .next s.accessed.onlyMemWb := by
  refine step_held (s := s.onlyExMem) hrun hl nofun nofun s.heldCycle_onlyExMem hw hh ?_
    (s.done_accessed.trans hrun.1) rfl
  simp [State.drained, State.onlyMemWb, State.memWb_accessed, hr]

/-- The cycle that ends the run (R129). -/
theorem step_onlyMemWb (hw : s.code[s.wroteBack.pc.toNat]? = some h)
    (hh : isHalt s.opcodes h = true) :
    step s.onlyMemWb = .next { s.wroteBack.settled with done := true } := by
  have hheld := s.heldCycle_onlyMemWb
  rw [step_of_halt (s := s.onlyMemWb) hrun nofun nofun nofun (hheld ▸ hw) hh, hheld]
  rfl

end single

/-- The first cycle of an empty pipeline takes the word in. -/
theorem step_fetched {s : State} {w : Word} (hrun : s.running) (hst : s.stage = .fetch)
    (hd : s.drained = true) (hw : s.code[s.pc.toNat]? = some w) (hh : isHalt s.opcodes w = false) :
    step s = .next (s.fetched w) := by
  obtain ⟨hifId, hidEx, hexMem, -⟩ := State.drained_iff.1 hd
  have hold := State.olderStages_of_drained hd
  have hpc : s.redirectedPc = s.pc := by
    rw [← s.pc_heldCycle, State.heldCycle, hold]
    rfl
  have hf := State.fetched_of_word hh
  rw [step_of_running hrun.2 hrun.1, cycle_of (by simp [State.addressLegal, hexMem])
    (by simp [State.executes, hidEx]) (by simp [State.decodes, hifId]) (hpc ▸ hw), State.afterCycle,
    hold, State.markDone_of_not_drained (by simp [State.drained, hf]) (by simpa [hf] using hrun.1)]
  rw [hf, ← hst]
  rfl

section entered
variable {s : State} {w h1 h2 : Word} {i : Instr}

/-- An empty pipeline takes the word in and decodes it, in two cycles. -/
theorem steps_entered (hrun : s.running) (hst : s.stage = .fetch) (hd : s.drained = true)
    (hw : s.code[s.pc.toNat]? = some w) (hdec : decodeWith s.opcodes w = .ok i) (hi : i ≠ .halt)
    (hw1 : s.code[(s.pc + 1).toNat]? = some h1) (hh1 : isHalt s.opcodes h1 = true) :
    step s = .next (s.fetched w) ∧ (s.fetched w).running ∧
      step (s.fetched w) = .next (s.entered w).onlyIdEx ∧ (s.entered w).running := by
  have hh := isHalt_of_decode hdec hi
  have hf := State.fetched_of_word hh
  obtain ⟨-, hidEx, hexMem, hmemWb⟩ := State.drained_iff.1 hd
  have hrun' : (s.fetched w).running := by rw [hf]; exact hrun
  refine ⟨step_fetched hrun hst hd hw hh, hrun', ?_, hrun'⟩
  refine step_onlyIfId (r := ⟨s.pc + 1, w⟩) (h := h1) hrun' ?_ ?_ ?_ ?_ ?_ ?_ ?_ ?_ <;> rw [hf]
  · exact IfId.stop_of_decode hdec
  · exact hidEx
  · exact hexMem
  · exact hmemWb
  · exact hst
  · exact (State.pc_setPc s _).symm ▸ hw1
  · exact hh1

/-- A decoded record that Execute does not stop leaves the pipeline in three cycles more. -/
theorem endsAfter_onlyIdEx {r : IdEx} (hrun : s.running) (hr : s.idEx = some r)
    (hs : r.stop s.opcodes s.dataSize = none)
    (hw1 : s.code[s.pc.toNat]? = some h1) (hh1 : isHalt s.opcodes h1 = true)
    (hw2 : s.code[s.executed.accessed.wroteBack.pc.toNat]? = some h2)
    (hh2 : isHalt s.opcodes h2 = true) :
    EndsAfter 3 s.onlyIdEx { s.executed.accessed.wroteBack.settled with done := true } := by
  have hexec : s.executed.running :=
    ⟨s.done_executed.trans hrun.1, by rw [State.executed_eq]; exact hrun.2⟩
  have hacc : s.executed.accessed.running :=
    ⟨(State.done_accessed _).trans hexec.1, (State.fatal_accessed _).trans hexec.2⟩
  have hl : s.executed.addressLegal := State.addressLegal_executed fun r' hr' => by
    rw [← Option.some.inj (hr.symm.trans hr')]
    exact hs
  obtain ⟨h, hw, hh⟩ : ∃ h, s.code[s.executed.accessed.pc.toNat]? = some h ∧
      isHalt s.opcodes h = true := by
    rcases s.executed.pc_accessed_cases with hpc | hwb
    · exact ⟨h1, by rw [hpc, State.pc_executed]; exact hw1, hh1⟩
    · exact ⟨h2, hwb ▸ hw2, hh2⟩
  refine .cons hrun.1 (step_onlyIdEx hrun hr hs hw1 hh1) (.cons hexec.1
    (step_onlyExMem (h := h) hexec (State.exMem_executed_some hr) hl ?_ ?_) (.cons hacc.1
    (step_onlyMemWb (h := h2) hacc ?_ ?_) (endsAfter_zero rfl)))
  · simpa using hw
  · simpa using hh
  · simpa using hw2
  · simpa using hh2

end entered

/-- Settles O57: the five cycles are the passage's stages, each with a HALT fetched behind it. -/
theorem instructionAloneRunsItsPassage : Obligations.InstructionAloneRunsItsPassage := by
  unfold Obligations.InstructionAloneRunsItsPassage
  intro i s u w h1 h2 hrun hst hd hi hw hdec hw1 hh1
  obtain ⟨hstep1, hrun1, hstep2, hrun2⟩ := steps_entered hrun hst hd hw hdec hi hw1 hh1
  obtain ⟨-, -, hx, hop, hsize, hcode, hpc⟩ := State.entered_spec (isHalt_of_decode hdec hi)
  rw [passage_eq hw hdec hi, ← hop, ← hsize]
  cases hs : (s.enteredRecord w).stop (s.entered w).opcodes (s.entered w).dataSize with
  | some c =>
    refine ⟨nofun, fun c' hc => ?_⟩
    cases hc
    rw [run_of_step hstep1, run_of_step hstep2, run_of_stop (step_onlyIdEx_stop hrun2 hx hs)]
  | none =>
    refine ⟨fun hu hw2 hh2 => ?_, nofun⟩
    cases hu
    refine .cons hrun.1 hstep1 (.cons hrun1.1 hstep2
      (endsAfter_onlyIdEx (h1 := h1) hrun2 hx hs ?_ ?_ ?_ hh2))
    · rw [hcode, hpc]; exact hw1
    · rw [hop]; exact hh1
    · rw [hcode]; exact hw2

end Sys2Proof.Machine
end

section
/-! PROOF of O58. A straight-line program (spec/70_reset_and_hazards.md R275): after `k` cycles the first
`k` words have been fetched, those of the last four cycles are in flight, and nothing stops or
redirects. -/

namespace Sys2Proof.Machine

/-! ## Words that only compute -/

/-- The word is no HALT, writes no register 31, and neither accesses memory nor transfers. -/
def ComputesOnly (m : OpcodeMap) (w : Word) : Prop :=
  isHalt m w = false ∧ destinationOf m w ≠ some 31 ∧
    (decodeType m w = .binaryArithmetic ∨ decodeType m w = .unaryArithmetic ∨
      decodeType m w = .compare ∨ decodeType m w = .misc)

namespace ComputesOnly
variable {m : OpcodeMap} {w : Word} (hw : ComputesOnly m w)
include hw

theorem type_ne :
    decodeType m w ≠ .io ∧ decodeType m w ≠ .unknown ∧ decodeType m w ≠ .jump ∧
      decodeType m w ≠ .branch := by
  obtain ⟨-, -, h | h | h | h⟩ := hw <;> simp [h]

theorem isTransfer_eq_false : isTransfer m w = false := by
  obtain ⟨-, -, hjump, hbranch⟩ := hw.type_ne
  simp [isTransfer, hjump, hbranch]

theorem destination_ne : destinationOf m w ≠ some 31 := hw.2.1

theorem isStore_eq_false : isStore m w = false := isStore_of_type hw.type_ne.1

theorem stop_eq_none {r : IdEx} (hr : r.instr = w) (n : Nat) : r.stop m n = none := by
  subst hr
  obtain ⟨-, -, h | h | h | h⟩ := hw <;> simp [IdEx.stop, h]

end ComputesOnly

/-! ## The state after `k` cycles -/

/-- After `k` cycles of the program `ws` with the HALT `h` behind it. -/
structure State.AfterCycles (m : OpcodeMap) (ws : List Word) (h : Word) (k : Nat) (s : State) :
    Prop where
  inv : s.Inv
  opcodes : s.opcodes = m
  code : s.code = ws ++ [h]
  data : s.data = []
  log : s.log = []
  /-- Fetch has taken the first `k` words, or all and stands at the HALT. -/
  pc : s.pc.toNat = min k ws.length
  words : ∀ w ∈ s.inFlight, w ∈ ws
  ifId : s.ifId = none ↔ ¬ (1 ≤ k ∧ k ≤ ws.length)
  idEx : s.idEx = none ↔ ¬ (2 ≤ k ∧ k ≤ ws.length + 1)
  exMem : s.exMem = none ↔ ¬ (3 ≤ k ∧ k ≤ ws.length + 2)
  memWb : s.memWb = none ↔ ¬ (4 ≤ k ∧ k ≤ ws.length + 3)
  done : s.done = true ↔ k = ws.length + 4

/-- A word in flight after a cycle was in flight before, or is the word fetched. -/
theorem State.mem_inFlight_afterCycle {s : State} {w v : Word} (h : v ∈ (s.afterCycle w).inFlight) :
    v ∈ s.inFlight ∨ (v = w ∧ isHalt s.opcodes w = false) := by
  rw [State.mem_inFlight, State.idEx_instr_afterCycle, State.exMem_instr_afterCycle,
    State.memWb_instr_afterCycle, State.ifId_afterCycle] at h
  rcases h with h | h | h | h
  · cases hw : isHalt s.opcodes w with
    | true => simp [hw] at h
    | false => exact .inr ⟨by simpa [hw, eq_comm] using h, rfl⟩
  · exact .inl (State.mem_inFlight.2 (.inl h))
  · exact .inl (State.mem_inFlight.2 (.inr (.inl h)))
  · exact .inl (State.mem_inFlight.2 (.inr (.inr (.inl h))))

namespace State.AfterCycles
variable {m : OpcodeMap} {ws : List Word} {h : Word} {k : Nat} {s : State}

theorem boot (n : Nat) (hm : m.admissible = true) :
    AfterCycles m ws h 0 (State.boot m (ws ++ [h]) n) where
  inv := State.boot_inv _ n hm
  opcodes := rfl
  code := rfl
  data := rfl
  log := rfl
  pc := by
    have hpc : (State.boot m (ws ++ [h]) n).pc = 0 := State.pc_reset
    simp [hpc]
  words := nofun
  ifId := ⟨fun _ => by omega, fun _ => rfl⟩
  idEx := ⟨fun _ => by omega, fun _ => rfl⟩
  exMem := ⟨fun _ => by omega, fun _ => rfl⟩
  memWb := ⟨fun _ => by omega, fun _ => rfl⟩
  done := ⟨nofun, fun hk => by omega⟩

section
variable (a : AfterCycles m ws h k s) (hws : ∀ w ∈ ws, ComputesOnly m w)
include a hws

theorem computes_of_mem {w : Word} (hw : w ∈ s.inFlight) : ComputesOnly s.opcodes w :=
  a.opcodes.symm ▸ hws w (a.words w hw)

theorem computes_exMem {r : ExMem} (hr : s.exMem = some r) : ComputesOnly s.opcodes r.instr :=
  a.computes_of_mem hws (State.mem_inFlight.2 (by simp [hr]))

theorem executes : s.executes := fun r hr =>
  (a.computes_of_mem hws (State.mem_inFlight.2 (by simp [hr]))).stop_eq_none rfl _

theorem redirectedPc_eq : s.redirectedPc = s.pc :=
  a.inv.redirectedPc_eq (State.no_redirect fun r hr => (a.computes_exMem hws hr).isTransfer_eq_false)
    fun r hr => (a.computes_of_mem hws (State.mem_inFlight.2 (by simp [hr]))).destination_ne

/-- Memory and the log stay as they were. -/
theorem memory_afterCycle (w : Word) : (s.afterCycle w).data = [] ∧ (s.afterCycle w).log = [] := by
  rcases s.store_afterCycle_cases w with ⟨r, hr, hs, -⟩ | ⟨-, hdata, hlog⟩
  · rw [(a.computes_exMem hws hr).isStore_eq_false] at hs
    cases hs
  · exact ⟨hdata.trans a.data, hlog.trans a.log⟩

end

/-- What the next cycle fetches: the next word while there is one, and then the HALT. -/
theorem fetched_word (a : AfterCycles m ws h k s) (hws : ∀ w ∈ ws, ComputesOnly m w)
    (hh : isHalt m h = true) :
    ∃ w, s.code[s.pc.toNat]? = some w ∧
      ((k < ws.length ∧ w ∈ ws ∧ isHalt m w = false) ∨ (ws.length ≤ k ∧ isHalt m w = true)) := by
  rw [a.code, a.pc]
  by_cases hk : k < ws.length
  · refine ⟨ws[k], ?_, .inl ⟨hk, List.getElem_mem hk, (hws _ (List.getElem_mem hk)).1⟩⟩
    rw [Nat.min_eq_left hk.le, List.getElem?_append_left hk, List.getElem?_eq_getElem hk]
  · refine ⟨h, ?_, .inr ⟨by omega, hh⟩⟩
    rw [Nat.min_eq_right (by omega)]
    simp

/-- The program counter and the IF-result after one more cycle. -/
theorem fetch_afterCycle (a : AfterCycles m ws h k s) (hws : ∀ w ∈ ws, ComputesOnly m w)
    (hlen : ws.length < 2 ^ 32) {w : Word}
    (hw : (k < ws.length ∧ w ∈ ws ∧ isHalt m w = false) ∨ (ws.length ≤ k ∧ isHalt m w = true)) :
    (s.afterCycle w).pc.toNat = min (k + 1) ws.length ∧
      ((s.afterCycle w).ifId = none ↔ ¬ (1 ≤ k + 1 ∧ k + 1 ≤ ws.length)) := by
  have hpc := a.pc
  have hone : (1 : Word).toNat = 1 := rfl
  rw [State.pc_afterCycle, State.ifId_afterCycle, a.opcodes, a.redirectedPc_eq hws]
  rcases hw with ⟨hk, -, hhalt⟩ | ⟨hk, hhalt⟩
  · simp only [hhalt, Bool.false_eq_true, if_false, BitVec.toNat_add, hone]
    exact ⟨by omega, nofun, fun hn => by omega⟩
  · simp only [hhalt, if_true]
    exact ⟨by omega, fun _ => by omega, fun _ => trivial⟩

/-- One more cycle. -/
theorem step (a : AfterCycles m ws h k s) (hws : ∀ w ∈ ws, ComputesOnly m w) (hh : isHalt m h = true)
    (hne : ws ≠ []) (hlen : ws.length < 2 ^ 32) (hk : k < ws.length + 4) :
    s.done = false ∧ ∃ t, Machine.step s = .next t ∧ AfterCycles m ws h (k + 1) t := by
  have hdone : s.done = false := by rw [← Bool.not_eq_true, a.done]; omega
  have hrun : s.running := ⟨hdone, a.inv.not_fatal⟩
  obtain ⟨w, hw, hfetch⟩ := a.fetched_word hws hh
  have hstep : Machine.step s = .next (s.afterCycle w) := by
    rw [step_of_running hrun.2 hrun.1]
    exact cycle_of a.inv.address_legal (a.executes hws)
      (State.decodes_of_admissible a.inv.map_admissible) (a.redirectedPc_eq hws ▸ hw)
  obtain ⟨hdata, hlog⟩ := a.memory_afterCycle hws w
  obtain ⟨hpc, hifId⟩ := a.fetch_afterCycle hws hlen hfetch
  obtain ⟨hid, hex, hmem, -, hd⟩ := records_of_step hrun hstep
  have hidEx := hid.trans a.ifId
  have hexMem := hex.trans a.idEx
  have hmemWb := hmem.trans a.exMem
  refine ⟨hdone, _, hstep, a.inv.afterCycle w (a.executes hws), (s.opcodes_afterCycle w).trans a.opcodes,
    (s.code_afterCycle w).trans a.code, hdata, hlog, hpc, fun v hv => ?_, hifId,
    hidEx.trans (by omega), hexMem.trans (by omega), hmemWb.trans (by omega), ?_⟩
  · rcases State.mem_inFlight_afterCycle hv with hv | ⟨rfl, hhalt⟩
    · exact a.words v hv
    · rcases hfetch with ⟨-, hmem, -⟩ | ⟨-, hhalt'⟩
      · exact hmem
      · rw [a.opcodes, hhalt'] at hhalt
        cases hhalt
  · have hpos : 0 < ws.length := List.length_pos_iff.2 hne
    rw [hd, hifId, hidEx, hexMem, hmemWb]
    omega

/-- All the cycles that are left. -/
theorem endsAfter (hws : ∀ w ∈ ws, ComputesOnly m w) (hh : isHalt m h = true)
    (hne : ws ≠ []) (hlen : ws.length < 2 ^ 32) (d : Nat) (a : AfterCycles m ws h k s)
    (hd : k + d = ws.length + 4) :
    ∃ t, EndsAfter d s t ∧ AfterCycles m ws h (ws.length + 4) t := by
  induction d generalizing k s with
  | zero =>
    obtain rfl : k = ws.length + 4 := hd
    exact ⟨s, endsAfter_zero (a.done.2 rfl), a⟩
  | succ d ih =>
    obtain ⟨hdone, u, hstep, a'⟩ := a.step hws hh hne hlen (by omega)
    obtain ⟨t, hends, at_end⟩ := ih a' (by omega)
    exact ⟨t, hends.cons hdone hstep, at_end⟩

end State.AfterCycles

/-- HALT at the program counter of an empty pipeline ends the run (R134, R221). -/
theorem step_of_drained_halt {s : State} {h : Word} (hrun : s.running) (hst : s.stage = .fetch)
    (hd : s.drained = true) (hw : s.code[s.pc.toNat]? = some h) (hh : isHalt s.opcodes h = true) :
    step s = .next { s with done := true } := by
  obtain ⟨hifId, hidEx, hexMem, -⟩ := State.drained_iff.1 hd
  have hheld : s.heldCycle = s := by
    rw [State.heldCycle, State.olderStages_of_drained hd, ← hifId]
  rw [step_of_halt hrun (by simp [State.addressLegal, hexMem]) (by simp [State.executes, hidEx])
    (by simp [State.decodes, hifId]) (hheld.symm ▸ hw) hh, hheld, State.markDone, hd, ← hst]
  rfl

/-- Settles O58: after `n + 4` cycles the last record has left; a HALT alone leaves nothing in flight. -/
theorem straightLineProgramRunsFourMoreCycles : Obligations.StraightLineProgramRunsFourMoreCycles := by
  unfold Obligations.StraightLineProgramRunsFourMoreCycles
  refine ⟨fun m ws h n hm hne hlen hh hws => ?_, fun m h rest n hh => ?_⟩
  · obtain ⟨t, hends, a⟩ := State.AfterCycles.endsAfter hws hh hne hlen (ws.length + 4)
      (State.AfterCycles.boot n hm) (Nat.zero_add _)
    exact ⟨t, hends, a.pc.trans (Nat.min_eq_right (by omega)), a.data, a.log⟩
  · have hpc : (State.boot m (h :: rest) n).pc = 0 := State.pc_reset
    refine .cons rfl (step_of_drained_halt ⟨rfl, rfl⟩ rfl rfl (h := h) ?_ hh) (endsAfter_zero rfl)
    rw [hpc]
    rfl

end Sys2Proof.Machine
end

section
/-! PROOF of O16. The template of the binary instructions read stage by stage
(spec/43_binary_arithmetic.md R150, spec/42_pipeline.md R122 to R126). -/

namespace Sys2Proof.Machine

/-- What an instruction whose meaning is the binary template does after Fetch (R150). -/
theorem ArithmeticTemplate.of_binaryInstr {i : Instr} {f : Word → Word → Word} {rd rs1 : RegIndex}
    (src : Source) (he : ∀ s, exec i s = binaryInstr f rd rs1 src s) :
    ArithmeticTemplate i f rd (fun s => s.reg rs1) src.value where
  decode s r hs hr := calc
    exec i s = decodeTo (binaryOperands rs1 src s) s := by rw [he, binaryInstr, hs]
    _ = _ := decodeTo_some _ hr
  execute s r hs hr := calc
    exec i s = executeTo false (fun r => f r.operand1 r.operand2) s := by rw [he, binaryInstr, hs]
    _ = _ := executeTo_some false _ hr
  memoryAccess s r hs hr := calc
    exec i s = memoryPass s := by rw [he, binaryInstr, hs]
    _ = _ := memoryPass_some hr
  writeBack s r hs hr := calc
    exec i s = writeBackTo rd s := by rw [he, binaryInstr, hs]
    _ = _ := writeBackTo_some rd hr

/-- Settles O16: each form's meaning is the binary template with the form's function and second source;
a shift's function unfolds to its amount of 1 or 8. -/
theorem binaryCompletes : Obligations.BinaryCompletes := by
  unfold Obligations.BinaryCompletes
  intro rd rs1 rs2 imm
  exact ⟨.of_binaryInstr (.reg rs2) fun _ => rfl, .of_binaryInstr (.imm imm) fun _ => rfl,
    .of_binaryInstr (.reg rs2) fun _ => rfl, .of_binaryInstr (.imm imm) fun _ => rfl,
    .of_binaryInstr (.reg rs2) fun _ => rfl, .of_binaryInstr (.imm imm) fun _ => rfl,
    .of_binaryInstr (.reg rs2) fun _ => rfl, .of_binaryInstr (.imm imm) fun _ => rfl,
    .of_binaryInstr (.reg rs2) fun _ => rfl, .of_binaryInstr (.imm imm) fun _ => rfl,
    .of_binaryInstr (.reg rs2) fun _ => rfl, .of_binaryInstr (.imm imm) fun _ => rfl,
    .of_binaryInstr (.reg rs2) fun _ => rfl, .of_binaryInstr (.imm imm) fun _ => rfl⟩

end Sys2Proof.Machine
end

section
/-! PROOF of O17. The template of the unary instructions read stage by stage
(spec/44_unary_arithmetic.md R170, spec/42_pipeline.md R123 to R126). -/

namespace Sys2Proof.Machine

/-- What an instruction whose meaning is the unary template does after Fetch (R170); its operand 2 is
the 0 of D15 and its function does not read it. -/
theorem ArithmeticTemplate.of_unaryInstr {i : Instr} {f : Word → Word} {rd : RegIndex}
    (src : Source) (he : ∀ s, exec i s = unaryInstr f rd src s) :
    ArithmeticTemplate i (fun a _ => f a) rd src.value (fun _ => 0) where
  decode s r hs hr := calc
    exec i s = decodeTo (unaryOperands src s) s := by rw [he, unaryInstr, hs]
    _ = _ := decodeTo_some _ hr
  execute s r hs hr := calc
    exec i s = executeTo false (fun r => f r.operand1) s := by rw [he, unaryInstr, hs]
    _ = _ := executeTo_some false _ hr
  memoryAccess s r hs hr := calc
    exec i s = memoryPass s := by rw [he, unaryInstr, hs]
    _ = _ := memoryPass_some hr
  writeBack s r hs hr := calc
    exec i s = writeBackTo rd s := by rw [he, unaryInstr, hs]
    _ = _ := writeBackTo_some rd hr

/-- Settles O17: each form's meaning is the unary template with the complement or the identity and with
the form's source. -/
theorem unaryCompletes : Obligations.UnaryCompletes := by
  unfold Obligations.UnaryCompletes
  intro rd rs imm
  exact ⟨.of_unaryInstr (.reg rs) fun _ => rfl, .of_unaryInstr (.imm imm) fun _ => rfl,
    .of_unaryInstr (.reg rs) fun _ => rfl, .of_unaryInstr (.imm imm) fun _ => rfl⟩

end Sys2Proof.Machine
end

section
/-! PROOF of O18. The template of the compare instructions read stage by stage
(spec/45_compare.md R180, spec/42_pipeline.md R123 to R126). -/

namespace Sys2Proof.Machine

/-- What an instruction whose meaning is the compare template does after Fetch (R180): Execute writes
the flag, and Write-Back writes nothing whether or not its record is there. -/
theorem CompareTemplate.of_compareInstr {i : Instr} {p : Word → Word → Bool} {rs1 : RegIndex}
    (src : Source) (he : ∀ s, exec i s = compareInstr p rs1 src s) :
    CompareTemplate i p (fun s => s.reg rs1) src.value where
  decode s r hs hr := calc
    exec i s = decodeTo (compareOperands rs1 src s) s := by rw [he, compareInstr, hs]
    _ = _ := decodeTo_some _ hr
  execute s r hs hr := calc
    exec i s = executeFlag (fun r => p r.operand1 r.operand2) s := by rw [he, compareInstr, hs]
    _ = _ := executeFlag_some _ hr
  memoryAccess s r hs hr := calc
    exec i s = memoryPass s := by rw [he, compareInstr, hs]
    _ = _ := memoryPass_some hr
  writeBack s hs := calc
    exec i s = writeBackNothing s := by rw [he, compareInstr, hs]
    _ = .next s := rfl

/-- Settles O18: each form's meaning is the compare template with the form's predicate and second
source; each predicate unfolds to the comparison of the operands that the statement writes out. -/
theorem compareCompletes : Obligations.CompareCompletes := by
  unfold Obligations.CompareCompletes
  intro rs1 rs2 imm
  exact ⟨.of_compareInstr (.reg rs2) fun _ => rfl, .of_compareInstr (.imm imm) fun _ => rfl,
    .of_compareInstr (.reg rs2) fun _ => rfl, .of_compareInstr (.imm imm) fun _ => rfl,
    .of_compareInstr (.reg rs2) fun _ => rfl, .of_compareInstr (.imm imm) fun _ => rfl,
    .of_compareInstr (.reg rs2) fun _ => rfl, .of_compareInstr (.imm imm) fun _ => rfl,
    .of_compareInstr (.reg rs2) fun _ => rfl, .of_compareInstr (.imm imm) fun _ => rfl⟩

end Sys2Proof.Machine
end

section
/-! PROOF of O30 and O19. JUMP and BRANCH are one template that differs in what `branch_taken` is and
in when Memory-Access redirects (spec/46_control_transfer.md R195 to R201). -/

namespace Sys2Proof.Machine

/-! ## The common template -/

/-- A transfer to `t`: `taken` is `branch_taken` as a function of the flag, and `goes` says of an
EX-result whether Memory-Access redirects (R196 to R199). -/
def transferInstr (taken : Bool → Bool) (goes : ExMem → Bool) (t : Target) (s : State) : Result :=
  match s.stage with
  | .fetch => fetchAdvance s
  | .decode => decodeTo (targetOperands t s) s
  | .execute => executeTo (taken s.flag) (fun r => r.operand1 + r.operand2) s
  | .memoryAccess => memoryRedirect goes s
  | .writeBack => writeBackNothing s

/-- A jump is always taken (R196, R197). -/
theorem jumpInstr_eq_transferInstr (t : Target) (s : State) :
    jumpInstr t s = transferInstr (fun _ => true) (fun _ => true) t s := rfl

/-- A branch is taken by the flag of its Execute (R198, R199). -/
theorem branchInstr_eq_transferInstr (t : Target) (s : State) :
    branchInstr t s = transferInstr (fun flag => flag) ExMem.branchTaken t s := rfl

theorem exec_of_transfer {i : Instr} (h : i.op.type = .jump ∨ i.op.type = .branch) :
    ∃ taken goes t, ∀ s, exec i s = transferInstr taken goes t s := by
  cases i
  case jump | jumpi => exact ⟨_, _, _, jumpInstr_eq_transferInstr _⟩
  case branch | branchi => exact ⟨_, _, _, branchInstr_eq_transferInstr _⟩
  all_goals rcases h with h | h <;> cases h

/-! ## What a transfer leaves unchanged -/

section frame
variable {s t : State}

/-- A redirect writes the program counter and passes the record on (R125). -/
theorem memoryRedirect_frame {goes : ExMem → Bool} (hs : s.stage = .memoryAccess)
    (h : memoryRedirect goes s = .next t) : Frame s t (· = 31) False (fun _ => False) False := by
  rcases Option.eq_none_or_eq_some s.exMem with hr | ⟨r, hr⟩
  · rw [memoryRedirect_none goes hr] at h
    cases h
    exact (outputOnly_memWb hs none).mono
  · cases hg : goes r with
    | true =>
      rw [memoryRedirect_taken hr hg] at h
      cases h
      exact { setReg_frame s 31 r.result with memWb := fun hne => absurd hs hne }
    | false =>
      rw [memoryRedirect_not_taken hr hg] at h
      cases h
      exact (outputOnly_memWb hs _).mono

theorem transferInstr_frame {taken : Bool → Bool} {goes : ExMem → Bool} {target : Target}
    (h : transferInstr taken goes target s = .next t) :
    Frame s t (fun q => (s.stage = .fetch ∨ s.stage = .memoryAccess) ∧ q = 31)
      False (fun _ => False) False := by
  unfold transferInstr at h
  split at h <;> rename_i hs
  · exact (fetchAdvance_frame hs h).of_registers fun _ hq => ⟨.inl hs, hq⟩
  · exact (decodeTo_frame hs h).mono
  · exact (executeTo_frame hs h).mono
  · exact (memoryRedirect_frame hs h).of_registers fun _ hq => ⟨.inr hs, hq⟩
  · exact (writeBackNothing_frame h).mono

end frame

/-- Settles O30: both families are transfers, and a transfer writes the program counter in Fetch and,
when it redirects, in Memory-Access. -/
theorem transferFrame : Obligations.TransferFrame := by
  unfold Obligations.TransferFrame
  intro i hi s t h
  obtain ⟨taken, goes, target, he⟩ := exec_of_transfer hi
  rw [he] at h
  exact transferInstr_frame h

/-! ## What a transfer does -/

/-- No transfer has an io-operand (D15). -/
@[simp] theorem ioOperand_targetOperands (t : Target) (s : State) (r : IfId) :
    (targetOperands t s r).ioOperand = 0 := by
  cases t <;> rfl

/-- What a transfer does after Fetch (R196 to R199). -/
theorem TransferTemplate.of_transferInstr {i : Instr} {taken : Bool → Bool} {goes : ExMem → Bool}
    (t : Target) (he : ∀ s, exec i s = transferInstr taken goes t s) :
    TransferTemplate i taken goes (fun s r => (targetOperands t s r).operand1)
      (fun s r => (targetOperands t s r).operand2) where
  decode s r hs hr := calc
    exec i s = decodeTo (targetOperands t s) s := by rw [he, transferInstr, hs]
    _ = _ := by rw [decodeTo_some _ hr, ioOperand_targetOperands]
  execute s r hs hr := calc
    exec i s = executeTo (taken s.flag) (fun r => r.operand1 + r.operand2) s := by
      rw [he, transferInstr, hs]
    _ = _ := executeTo_some _ _ hr
  redirect s r hs hr hg := calc
    exec i s = memoryRedirect goes s := by rw [he, transferInstr, hs]
    _ = _ := memoryRedirect_taken hr hg
  pass s r hs hr hg := calc
    exec i s = memoryRedirect goes s := by rw [he, transferInstr, hs]
    _ = _ := memoryRedirect_not_taken hr hg
  writeBack s hs := calc
    exec i s = writeBackNothing s := by rw [he, transferInstr, hs]
    _ = .next s := rfl

/-- Settles O19: each form's meaning is the transfer to a register or by an offset, whose addends
(R195, D5) unfold to those that the statement writes out. -/
theorem transferCompletes : Obligations.TransferCompletes := by
  unfold Obligations.TransferCompletes
  intro rs off
  exact ⟨.of_transferInstr (.reg rs) (jumpInstr_eq_transferInstr _),
    .of_transferInstr (.offset off) (jumpInstr_eq_transferInstr _),
    .of_transferInstr (.reg rs) (branchInstr_eq_transferInstr _),
    .of_transferInstr (.offset off) (branchInstr_eq_transferInstr _)⟩

end Sys2Proof.Machine
end

section
/-! PROOF of O20, O21, O22 and O24. LOAD, STORE, NOP and HALT stage by stage after Fetch, and the stops
of Execute (spec/47_load_store.md R210 to R212, spec/48_misc.md R220, R221, spec/60_exceptions.md R233,
R235). -/

namespace Sys2Proof.Machine

/-! ## LOAD and STORE (R210 to R212) -/

/-- The range check as R37 writes it. -/
theorem legalAddress_iff_le (n : Nat) (ea : Word) :
    legalAddress n ea = true ↔ 4 ≤ n ∧ ea.toNat ≤ n - 4 := by
  rw [legalAddress, Bool.and_eq_true, decide_eq_true_iff, decide_eq_true_iff]

theorem legalAddress_eq_false_iff (n : Nat) (ea : Word) :
    legalAddress n ea = false ↔ ¬ (4 ≤ n ∧ ea.toNat ≤ n - 4) := by
  rw [← legalAddress_iff_le, Bool.not_eq_true]

section io
variable {s : State}

/-- LOAD and STORE compute and check their address alike (R210). -/
theorem exec_execute_io {i : Instr} (hi : i.op = .load ∨ i.op = .store) (hs : s.stage = .execute) :
    exec i s = executeAddress s := by
  cases i
  case load => rw [exec, execLoad, hs]
  case store => rw [exec, execStore, hs]
  all_goals rcases hi with hi | hi <;> cases hi

/-- Execute of a LOAD or STORE with a legal address. -/
theorem exec_execute_io_legal {i : Instr} {r : IdEx} (hi : i.op = .load ∨ i.op = .store)
    (hs : s.stage = .execute) (hr : s.idEx = some r)
    (hl : legalAddress s.dataSize (r.operand1 + r.operand2) = true) :
    exec i s = .next { s with
      exMem := some ⟨r.nextPc, r.instr, false, r.operand1 + r.operand2, r.ioOperand⟩ } :=
  (exec_execute_io hi hs).trans (executeAddress_legal hr hl)

/-- Execute of a LOAD or STORE with an illegal address (R235). -/
theorem exec_execute_io_illegal {i : Instr} {r : IdEx} (hi : i.op = .load ∨ i.op = .store)
    (hs : s.stage = .execute) (hr : s.idEx = some r)
    (hl : legalAddress s.dataSize (r.operand1 + r.operand2) = false) :
    exec i s = .fault .dataAddressOutOfRange :=
  (exec_execute_io hi hs).trans (executeAddress_illegal hr hl)

variable (rd rb : RegIndex) (off : Int)

theorem exec_load_decode {r : IfId} (hs : s.stage = .decode) (hr : s.ifId = some r) :
    exec (.load rd rb off) s = .next { s with
      idEx := some ⟨r.nextPc, r.instr, s.reg rb, BitVec.ofInt 32 off, rd.setWidth 32⟩ } := calc
  exec (.load rd rb off) s = decodeTo (loadOperands rd rb off s) s := by rw [exec, execLoad, hs]
  _ = _ := decodeTo_some _ hr

theorem exec_load_memoryAccess {r : ExMem} (hs : s.stage = .memoryAccess) (hr : s.exMem = some r)
    (hl : legalAddress s.dataSize r.result = true) :
    exec (.load rd rb off) s = .next { s with
      memWb := some ⟨r.nextPc, r.instr, s.data.readWord r.result.toNat, r.ioOperand⟩ } := calc
  exec (.load rd rb off) s = memoryLoad s := by rw [exec, execLoad, hs]
  _ = _ := memoryLoad_some hr hl

theorem exec_load_writeBack {r : MemWb} (hs : s.stage = .writeBack) (hr : s.memWb = some r)
    (hio : r.ioOperand = rd.setWidth 32) :
    exec (.load rd rb off) s = .next (s.setReg rd r.result) := calc
  exec (.load rd rb off) s = writeBackLoaded s := by rw [exec, execLoad, hs]
  _ = .next (s.setReg (ioRegister r.ioOperand) r.result) := writeBackLoaded_some hr
  _ = _ := by rw [hio, ioRegister_setWidth]

end io

/-- Settles O20: stage by stage, where the loaded word is its four bytes put together. -/
theorem loadCompletes : Obligations.LoadCompletes := by
  unfold Obligations.LoadCompletes
  exact fun rd rb off s => ⟨fun _ => exec_load_decode rd rb off,
    fun _ hs hr h4 hea => exec_execute_io_legal (.inl rfl) hs hr ((legalAddress_iff_le _ _).2 ⟨h4, hea⟩),
    fun _ hs hr h4 hea =>
      exec_load_memoryAccess rd rb off hs hr ((legalAddress_iff_le _ _).2 ⟨h4, hea⟩),
    fun _ => exec_load_writeBack rd rb off⟩

theorem State.atStage_of_stage {s : State} {st : Stage} (hs : s.stage = st) : s.atStage st = s :=
  hs ▸ s.atStage_self

/-- Settles O21: stage by stage, where the stored word is its four bytes one after another. -/
theorem storeCompletes : Obligations.StoreCompletes := by
  unfold Obligations.StoreCompletes
  refine fun rv rb off s => ⟨fun r hs hr => ?_, fun r hs hr h4 hea => ?_, fun r hs hr h4 hea => ?_,
    fun hs => ?_⟩
  · rw [← State.atStage_of_stage hs]
    exact exec_store_decode rv rb off hr
  · exact exec_execute_io_legal (.inr rfl) hs hr ((legalAddress_iff_le _ _).2 ⟨h4, hea⟩)
  · rw [← State.atStage_of_stage hs]
    exact exec_store_memoryAccess rv rb off hr ((legalAddress_iff_le _ _).2 ⟨h4, hea⟩)
  · rw [← State.atStage_of_stage hs]
    exact exec_store_writeBack rv rb off

/-! ## NOP and HALT (R220, R221) -/

/-- After Fetch HALT does what NOP does (log 18). -/
theorem execHalt_eq_execNop {s : State} (hs : s.stage ≠ .fetch) : execHalt s = execNop s := by
  unfold execHalt execNop
  split
  case h_1 hf => exact absurd hf hs
  all_goals rfl

/-- What an instruction that is NOP after Fetch does there. -/
theorem MiscTemplate.of_execNop {i : Instr} (he : ∀ s, s.stage ≠ .fetch → exec i s = execNop s) :
    MiscTemplate i where
  decode s r hs hr := calc
    exec i s = decodeTo (fun _ => noOperands) s := by rw [he s (by simp [hs]), execNop, hs]
    _ = _ := decodeTo_some _ hr
  execute s r hs hr := calc
    exec i s = executeTo false (fun _ => 0) s := by rw [he s (by simp [hs]), execNop, hs]
    _ = _ := executeTo_some false _ hr
  memoryAccess s r hs hr := calc
    exec i s = memoryPass s := by rw [he s (by simp [hs]), execNop, hs]
    _ = _ := memoryPass_some hr
  writeBack s hs := calc
    exec i s = writeBackNothing s := by rw [he s (by simp [hs]), execNop, hs]
    _ = .next s := rfl

/-- Settles O22: both do after Fetch what NOP does. -/
theorem miscCompletes : Obligations.MiscCompletes := by
  unfold Obligations.MiscCompletes
  exact ⟨.of_execNop fun _ _ => rfl, .of_execNop fun _ => execHalt_eq_execNop⟩

/-! ## The stops of Execute (R233, R235) -/

theorem IdEx.stop_of_unknown {r : IdEx} {m : OpcodeMap} (n : Nat)
    (h : decodeType m r.instr = .unknown) : r.stop m n = some .unknownInstruction := by
  rw [IdEx.stop, h]

/-- Decode resolves no operand of an UNKNOWN word (R136). -/
theorem IfId.decoded_of_unknown {r : IfId} {s : State}
    (h : decodeType s.opcodes r.instr = .unknown) : r.decoded s = ⟨r.nextPc, r.instr, 0, 0, 0⟩ := by
  rw [IfId.decoded, IfId.operands, opOfWord_of_unknown h]
  rfl

/-- An UNKNOWN word does not stop Decode: the stop there is for type IO only (R234). -/
theorem IfId.stop_of_unknown {r : IfId} {m : OpcodeMap} (h : decodeType m r.instr = .unknown) :
    r.stop m = none := by
  rw [Option.eq_none_iff_forall_ne_some]
  intro c hc
  rw [decodeType_of_badIo (IfId.stop_some hc).1] at h
  cases h

/-- Settles O24: the address is checked for LOAD and STORE alike, and an UNKNOWN word passes Decode and
stops Execute. -/
theorem executeStops : Obligations.ExecuteStops := by
  unfold Obligations.ExecuteStops
  refine ⟨fun i s r hi hs hr hl => ?_, fun s r hr hu => ?_, fun s r hr hu => ?_⟩
  · exact exec_execute_io_illegal hi hs hr ((legalAddress_eq_false_iff _ _).2 hl)
  · rw [runStage_execute_some s r hr, IdEx.stop_of_unknown _ hu]
  · have hgo : s.decodes := fun r' hr' => by
      rw [← Option.some.inj (hr.symm.trans hr')]
      exact IfId.stop_of_unknown hu
    rw [runStage_decode s hgo, hr, Option.map_some, IfId.decoded_of_unknown hu]
    rfl

end Sys2Proof.Machine
end

section
/-! PROOF of O25, O26 and O27. The passage of one instruction alone (spec/42_pipeline.md R132,
spec/70_reset_and_hazards.md R274): Fetch advances the program counter, and the stages after it are the
instruction's template. -/

namespace Sys2Proof.Machine

/-! ## Passages -/

@[simp] theorem State.reg_advanced_pc (s : State) : s.advanced.reg 31 = s.reg 31 + 1 :=
  (s.reg_setReg 31 31 _).trans (if_pos rfl)

section passage
variable {i : Instr} {s : State} {w : Word}

/-- The state in which Decode finds the word at the program counter. -/
def State.fetchedAlone (s : State) (w : Word) : State :=
  { s.advanced with ifId := some ⟨s.reg 31 + 1, w⟩ }

variable (hi : i ≠ .halt) (hw : s.code[(s.reg 31).toNat]? = some w)
include hi hw

theorem exec_fetch_alone :
    exec i (s.atStage .fetch) = .next ((s.fetchedAlone w).atStage .fetch) :=
  (exec_fetch hi rfl).trans (fetchAdvance_eq (s := s.atStage .fetch) hw)

/-- A passage that goes on is the four stages after Fetch one after another. -/
theorem passage_of_stages {s1 s2 s3 s4 : State}
    (hdecode : exec i ((s.fetchedAlone w).atStage .decode) = .next s1)
    (hexecute : exec i (s1.atStage .execute) = .next s2)
    (hmemory : exec i (s2.atStage .memoryAccess) = .next s3)
    (hwrite : exec i (s3.atStage .writeBack) = .next s4) : passage i s = .next s4.settled := by
  rw [passage, exec_fetch_alone hi hw, andThen_next, State.atStage_atStage, hdecode, andThen_next,
    hexecute, andThen_next, hmemory, andThen_next, hwrite, andThen_next]
  rfl

/-- A passage stops where its Execute stops. -/
theorem passage_of_stop {s1 : State} {c : Fault}
    (hdecode : exec i ((s.fetchedAlone w).atStage .decode) = .next s1)
    (hexecute : exec i (s1.atStage .execute) = .fault c) : passage i s = .fault c := by
  rw [passage, exec_fetch_alone hi hw, andThen_next, State.atStage_atStage, hdecode, andThen_next,
    hexecute, andThen_fault]

end passage

/-! ## The effect of a template -/

/-- What Decode resolves from the register file alone. -/
def ReadsRegisters (o : State → Word) : Prop := ∀ s t : State, s.regs = t.regs → o s = o t

theorem readsRegisters_reg (r : RegIndex) : ReadsRegisters fun s => s.reg r :=
  fun _ _ h => State.reg_of_regs h r

theorem readsRegisters_const (v : Word) : ReadsRegisters fun _ => v := fun _ _ _ => rfl

/-- An offset is added to the program counter (D5). -/
theorem readsRegisters_offset (v : Word) : ReadsRegisters fun s => s.reg 31 + v :=
  fun _ _ h => congrArg (· + v) (State.reg_of_regs h 31)

/-- Decode resolves it alike after Fetch: only the program counter has been advanced (R122). -/
theorem ReadsRegisters.decode_alone {o : State → Word} (h : ReadsRegisters o) (s : State) (w : Word) :
    o ((s.fetchedAlone w).atStage .decode) = o s.advanced :=
  h _ _ rfl

section templates
variable {i : Instr} {o1 o2 : State → Word}

theorem ArithmeticTemplate.hasEffect {f : Word → Word → Word} {rd : RegIndex}
    (h : ArithmeticTemplate i f rd o1 o2) (hi : i ≠ .halt) (h1 : ReadsRegisters o1)
    (h2 : ReadsRegisters o2) : HasEffect i fun s => s.setReg rd (f (o1 s) (o2 s)) := by
  intro s w hw
  rw [passage_of_stages hi hw (h.decode _ _ rfl rfl) (h.execute _ _ rfl rfl)
    (h.memoryAccess _ _ rfl rfl) (h.writeBack _ _ rfl rfl),
    h1.decode_alone, h2.decode_alone]
  rfl

theorem CompareTemplate.hasEffect {p : Word → Word → Bool} (h : CompareTemplate i p o1 o2)
    (hi : i ≠ .halt) (h1 : ReadsRegisters o1) (h2 : ReadsRegisters o2) :
    HasEffect i fun s => { s with flag := p (o1 s) (o2 s) } := by
  intro s w hw
  rw [passage_of_stages hi hw (h.decode _ _ rfl rfl) (h.execute _ _ rfl rfl)
    (h.memoryAccess _ _ rfl rfl) (h.writeBack _ rfl),
    h1.decode_alone, h2.decode_alone]
  rfl

theorem MiscTemplate.hasEffect (h : MiscTemplate i) (hi : i ≠ .halt) : HasEffect i fun s => s := by
  intro s w hw
  rw [passage_of_stages hi hw (h.decode _ _ rfl rfl) (h.execute _ _ rfl rfl)
    (h.memoryAccess _ _ rfl rfl) (h.writeBack _ rfl)]
  rfl

/-- A transfer goes to `target` if Execute takes it: `goes` looks at what Execute set, and the two
addends are resolved where the program counter has been advanced (R195 to R199). -/
theorem TransferTemplate.hasEffect {taken : Bool → Bool} {goes : ExMem → Bool}
    {o1 o2 : State → IfId → Word} (target : State → Word) (h : TransferTemplate i taken goes o1 o2)
    (hi : i ≠ .halt) (hgoes : ∀ r b, r.branchTaken = taken b → goes r = taken b)
    (htarget : ∀ s r, r.nextPc = s.reg 31 → o1 s r + o2 s r = target s)
    (hregs : ReadsRegisters target) :
    HasEffect i fun s => if taken s.flag then s.setReg 31 (target s) else s := by
  intro s w hw
  change passage i s = .next
    (if taken s.flag then s.advanced.setReg 31 (target s.advanced) else s.advanced).settled
  cases ht : taken s.flag with
  | true =>
    rw [passage_of_stages hi hw (h.decode _ _ rfl rfl) (h.execute _ _ rfl rfl)
      (h.redirect _ _ rfl rfl ((hgoes _ s.flag rfl).trans ht)) (h.writeBack _ rfl), if_pos rfl,
      ← hregs.decode_alone s w,
      ← htarget ((s.fetchedAlone w).atStage .decode) ⟨s.reg 31 + 1, w⟩ s.reg_advanced_pc.symm]
    rfl
  | false =>
    rw [passage_of_stages hi hw (h.decode _ _ rfl rfl) (h.execute _ _ rfl rfl)
      (h.pass _ _ rfl rfl ((hgoes _ s.flag rfl).trans ht)) (h.writeBack _ rfl), if_neg nofun]
    rfl

end templates

/-- Settles O25: the effect of each form's template, whose sources are registers and literals. -/
theorem arithmeticEffect : Obligations.ArithmeticEffect := by
  unfold Obligations.ArithmeticEffect
  intro rd r1 r2 imm
  obtain ⟨hadd, haddi, hsub, hsubi, hand, handi, hor, hori, hshl, hshli, hshra, hshrai, hshrl,
    hshrli⟩ := binaryCompletes rd r1 r2 imm
  obtain ⟨hnot, hnoti, hmov, hmovi⟩ := unaryCompletes rd r1 imm
  have reg1 := readsRegisters_reg r1
  have reg2 := readsRegisters_reg r2
  have lit := readsRegisters_const (BitVec.ofInt 32 imm)
  have zero := readsRegisters_const 0
  exact ⟨hadd.hasEffect nofun reg1 reg2, haddi.hasEffect nofun reg1 lit,
    hsub.hasEffect nofun reg1 reg2, hsubi.hasEffect nofun reg1 lit,
    hand.hasEffect nofun reg1 reg2, handi.hasEffect nofun reg1 lit,
    hor.hasEffect nofun reg1 reg2, hori.hasEffect nofun reg1 lit,
    hshl.hasEffect nofun reg1 reg2, hshli.hasEffect nofun reg1 lit,
    hshra.hasEffect nofun reg1 reg2, hshrai.hasEffect nofun reg1 lit,
    hshrl.hasEffect nofun reg1 reg2, hshrli.hasEffect nofun reg1 lit,
    hnot.hasEffect nofun reg1 zero, hnoti.hasEffect nofun lit zero,
    hmov.hasEffect nofun reg1 zero, hmovi.hasEffect nofun lit zero⟩

/-! ## HALT -/

/-- Alone in the pipeline HALT is held in Fetch, and nothing follows it (R15, R134). -/
theorem passage_halt {s : State} {w : Word} (hw : s.code[(s.reg 31).toNat]? = some w) :
    passage .halt s = .next s.settled := by
  rw [passage, exec_halt_fetch rfl, fetchHold_eq (s := s.atStage .fetch) hw, andThen_next,
    exec_decode_absent _ rfl rfl, andThen_next, exec_execute_absent _ rfl rfl, andThen_next,
    exec_memoryAccess_absent _ rfl rfl, andThen_next, exec_writeBack_absent _ rfl rfl, andThen_next]
  rfl

/-- Settles O26: the effect of each form's template; HALT is held. -/
theorem controlEffect : Obligations.ControlEffect := by
  unfold Obligations.ControlEffect
  intro r1 r2 imm
  obtain ⟨hceq, hceqi, hcltu, hcltui, hclts, hcltsi, hcgtu, hcgtui, hcgts, hcgtsi⟩ :=
    compareCompletes r1 r2 imm
  obtain ⟨hjump, hjumpi, hbranch, hbranchi⟩ := transferCompletes r1 imm
  obtain ⟨hnop, -⟩ := miscCompletes
  have reg1 := readsRegisters_reg r1
  have reg2 := readsRegisters_reg r2
  have lit := readsRegisters_const (BitVec.ofInt 32 imm)
  have offset := readsRegisters_offset (BitVec.ofInt 32 imm)
  have absolute (s : State) : s.reg r1 + 0 = s.reg r1 := BitVec.add_zero _
  have relative (s : State) (r : IfId) (h : r.nextPc = s.reg 31) :
      r.nextPc + BitVec.ofInt 32 imm = s.reg 31 + BitVec.ofInt 32 imm := by rw [h]
  exact ⟨hceq.hasEffect nofun reg1 reg2, hceqi.hasEffect nofun reg1 lit,
    hcltu.hasEffect nofun reg1 reg2, hcltui.hasEffect nofun reg1 lit,
    hclts.hasEffect nofun reg1 reg2, hcltsi.hasEffect nofun reg1 lit,
    hcgtu.hasEffect nofun reg1 reg2, hcgtui.hasEffect nofun reg1 lit,
    hcgts.hasEffect nofun reg1 reg2, hcgtsi.hasEffect nofun reg1 lit,
    hjump.hasEffect _ nofun (fun _ _ _ => rfl) (fun s _ _ => absolute s) reg1,
    hjumpi.hasEffect _ nofun (fun _ _ _ => rfl) relative offset,
    hbranch.hasEffect _ nofun (fun _ _ => id) (fun s _ _ => absolute s) reg1,
    hbranchi.hasEffect _ nofun (fun _ _ => id) relative offset,
    hnop.hasEffect nofun, fun _ _ => passage_halt⟩

/-! ## LOAD -/

section load
variable (rd rb : RegIndex) (off : Int) {s : State} {w : Word}
  (hw : s.code[(s.reg 31).toNat]? = some w)
include hw

/-- Alone in the pipeline a LOAD from a legal address reads the word there (R211). -/
theorem passage_load_legal
    (hl : legalAddress s.dataSize (s.advanced.reg rb + BitVec.ofInt 32 off) = true) :
    passage (.load rd rb off) s = .next (s.advanced.setReg rd
      (s.data.readWord (s.advanced.reg rb + BitVec.ofInt 32 off).toNat)).settled :=
  (passage_of_stages (i := .load rd rb off) nofun hw (exec_load_decode rd rb off rfl rfl)
    (exec_execute_io_legal (.inl rfl) rfl rfl hl) (exec_load_memoryAccess rd rb off rfl rfl hl)
    (exec_load_writeBack rd rb off rfl rfl rfl)).trans rfl

/-- With an illegal address it stops in Execute (R235). -/
theorem passage_load_illegal
    (hl : legalAddress s.dataSize (s.advanced.reg rb + BitVec.ofInt 32 off) = false) :
    passage (.load rd rb off) s = .fault .dataAddressOutOfRange :=
  passage_of_stop (i := .load rd rb off) nofun hw (exec_load_decode rd rb off rfl rfl)
    (exec_execute_io_illegal (.inl rfl) rfl rfl hl)

end load

/-- Settles O27: the passages of LOAD and STORE, with a legal address and with an illegal one. -/
theorem loadStoreEffect : Obligations.LoadStoreEffect := by
  unfold Obligations.LoadStoreEffect
  intro r rb off s w hw
  refine ⟨fun hl => ?_, fun hl => ?_⟩
  · have hl := (legalAddress_iff_le _ _).2 hl
    exact ⟨passage_load_legal r rb off hw hl, passage_store_legal r rb off hw hl⟩
  · have hl := (legalAddress_eq_false_iff _ _).2 hl
    exact ⟨passage_load_illegal r rb off hw hl, passage_store_illegal r rb off hw hl⟩

end Sys2Proof.Machine
end

section
/-! PROOF of O50. The stops of a state of the invariant (spec/60_exceptions.md R230 to R239): memory
addresses are legal and no bad IO word is in flight, so Execute and Fetch are the stages that stop. -/

namespace Sys2Proof.Machine

/-! ## The two stops of Execute (R233, R235) -/

section stop
variable {r : IdEx} {m : OpcodeMap} {n : Nat}

theorem IdEx.stop_eq_unknown_iff :
    r.stop m n = some .unknownInstruction ↔ decodeType m r.instr = .unknown := by
  rw [IdEx.stop]
  cases decodeType m r.instr
  case io => cases legalAddress n (r.operand1 + r.operand2) <;> simp
  all_goals simp

theorem IdEx.stop_eq_address_iff :
    r.stop m n = some .dataAddressOutOfRange ↔ decodeType m r.instr = .io ∧
      ¬ (4 ≤ n ∧ (r.operand1 + r.operand2).toNat ≤ n - 4) := by
  rw [← legalAddress_eq_false_iff, IdEx.stop]
  cases decodeType m r.instr
  case io => cases legalAddress n (r.operand1 + r.operand2) <;> simp
  all_goals simp

end stop

/-! ## A step under the invariant -/

section inv
variable {s : State} (hinv : s.Inv) (hdone : s.done = false)
include hinv hdone

/-- A step stops in Execute, or in Fetch, or goes on (R239). -/
theorem State.Inv.step_cases :
    (∃ r c, s.idEx = some r ∧ r.stop s.opcodes s.dataSize = some c ∧ Machine.step s = .fault c) ∨
    (s.executes ∧ s.code.length ≤ s.redirectedPc.toNat ∧ Machine.step s = .fault .fetchOutOfRange) ∨
    (s.executes ∧ s.redirectedPc.toNat < s.code.length ∧ ∃ t, Machine.step s = .next t) := by
  rw [step_of_running hinv.not_fatal hdone]
  rcases cycle_cases s hinv.address_legal with h | ⟨-, r, -, hb, -⟩ | ⟨he, -, hout, hc⟩ |
    ⟨he, -, w, hw, hc⟩
  · exact .inl h
  · rw [isBadIo_of_admissible hinv.map_admissible] at hb
    cases hb
  · exact .inr (.inl ⟨he, hout, hc⟩)
  · exact .inr (.inr ⟨he, (List.getElem?_eq_some_iff.1 hw).1, _, hc⟩)

/-- A stop for another cause than Fetch's is the one that Execute's record raises. -/
theorem State.Inv.step_fault_iff {c : Fault} (hne : c ≠ .fetchOutOfRange) :
    Machine.step s = .fault c ↔ ∃ r, s.idEx = some r ∧ r.stop s.opcodes s.dataSize = some c := by
  refine ⟨fun h => ?_, fun ⟨r, hr, hs⟩ =>
    step_of_stop ⟨hdone, hinv.not_fatal⟩ hinv.address_legal hr hs⟩
  rcases hinv.step_cases hdone with ⟨r, c', hr, hs, hc⟩ | ⟨-, -, hc⟩ | ⟨-, -, t, hc⟩ <;>
    rw [h] at hc <;> cases hc
  · exact ⟨r, hr, hs⟩
  · exact absurd rfl hne

theorem State.Inv.step_fetchOutOfRange_iff :
    Machine.step s = .fault .fetchOutOfRange ↔ s.executes ∧ s.code.length ≤ s.redirectedPc.toNat := by
  rcases hinv.step_cases hdone with ⟨r, c, hr, hs, hc⟩ | ⟨he, hout, hc⟩ | ⟨-, hin, t, hc⟩
  · refine ⟨fun h => ?_, fun ⟨he, _⟩ => absurd (he r hr) (by simp [hs])⟩
    rw [h] at hc
    cases hc
    rcases IdEx.stop_some hs with h | h <;> cases h
  · exact ⟨fun _ => ⟨he, hout⟩, fun _ => hc⟩
  · exact ⟨fun h => (nomatch h.symm.trans hc), fun ⟨_, hout⟩ => absurd hin (Nat.not_lt.2 hout)⟩

theorem State.Inv.step_next_iff :
    (∃ t, Machine.step s = .next t) ↔ s.executes ∧ s.redirectedPc.toNat < s.code.length := by
  rcases hinv.step_cases hdone with ⟨r, c, hr, hs, hc⟩ | ⟨-, hout, hc⟩ | ⟨he, hin, t, hc⟩
  · exact ⟨fun ⟨_, h⟩ => (nomatch h.symm.trans hc), fun ⟨he, _⟩ => absurd (he r hr) (by simp [hs])⟩
  · exact ⟨fun ⟨_, h⟩ => (nomatch h.symm.trans hc), fun ⟨_, hin⟩ => absurd hin (Nat.not_lt.2 hout)⟩
  · exact ⟨fun _ => ⟨he, hin⟩, fun _ => ⟨t, hc⟩⟩

theorem State.Inv.cause_of_step {c : Fault} (h : Machine.step s = .fault c) :
    c = .unknownInstruction ∨ c = .dataAddressOutOfRange ∨ c = .fetchOutOfRange := by
  by_cases hne : c = .fetchOutOfRange
  · exact .inr (.inr hne)
  · obtain ⟨r, -, hs⟩ := (hinv.step_fault_iff hdone hne).1 h
    exact (IdEx.stop_some hs).imp_right .inl

end inv

/-! ## Nothing is refused -/

theorem cycle_ne_refused (s : State) (q : Refusal) : cycle s ≠ .refused q := by
  intro h
  by_cases hl : s.addressLegal
  · rcases cycle_cases s hl with ⟨r, c, -, -, hc⟩ | ⟨-, r, -, -, hc⟩ | ⟨-, -, -, hc⟩ |
      ⟨-, -, w, -, hc⟩ <;> rw [h] at hc <;> cases hc
  · rw [cycle_illegal s hl] at h
    cases h

theorem step_ne_refused (s : State) (q : Refusal) : step s ≠ .refused q := by
  cases hf : s.fatal with
  | some c => rw [step_of_fatal hf]; nofun
  | none =>
    cases hd : s.done with
    | true => simp [step, advance, hf, hd]
    | false => rw [step_of_running hf hd]; exact cycle_ne_refused s q

/-- Settles O50: the stops of Execute are read off its record, Fetch stops where Execute does not, and
a step does nothing else than stop or go on. -/
theorem stopsExactly : Obligations.StopsExactly := by
  unfold Obligations.StopsExactly
  refine ⟨fun s hinv hdone => ⟨?_, ?_, hinv.step_fetchOutOfRange_iff hdone,
    fun c => hinv.cause_of_step hdone, hinv.step_next_iff hdone⟩, step_ne_refused⟩
  · simp only [hinv.step_fault_iff hdone (c := .unknownInstruction) nofun, IdEx.stop_eq_unknown_iff]
  · simp only [hinv.step_fault_iff hdone (c := .dataAddressOutOfRange) nofun,
      IdEx.stop_eq_address_iff]

end Sys2Proof.Machine
end
